-- ==== Sys2Proof/Word.lean ====
section
/-! DEFINITION. The widths of RBFE (spec/00_scope.md R4, decision D2): registers, addresses and lengths are 32 bits wide. -/

namespace Sys2Proof

/-- A register, address, length or cursor: `ADDR_W` = 32 bits (R3, R11). -/
abbrev Word := BitVec 32

/-- A 16-bit field: `stream_type`, `stream_counter`, `LAST_VALID` (R19, R120). -/
abbrev Half := BitVec 16

/-- One byte of `IMEM`, `OMEM`, `PAT`, `LBUF` or a table. -/
abbrev Byte := BitVec 8

end Sys2Proof
end

