-- ==== Sys2Proof/Syntax.lean ====
section
/-! DEFINITION. The 14 operations of RBFE, one constructor per row of spec/opcode_table.json (spec/30_encoding.md R80). -/

namespace Sys2Proof

/-- The two command ports (spec/60_exceptions.md R220): the master's port A, the consumer's port B. -/
inductive Port where
  | a
  | b
deriving DecidableEq, Repr

/-- The logical streams and their output rings, 0 = LOW, 1 = HIGH, 2 = AUD (spec/00_scope.md R7). -/
inductive StreamId where
  | low
  | high
  | aud
deriving DecidableEq, Repr

/-- An operation as issued. `STRM` (R78) is already a stream: the reserved value 3 is no operation (R82).
POP is the one operation legal on both ports (R80), so it names the port it was issued on; that port
is where its word was written, not a field of the word. All other operands are in registers (R79). -/
inductive Instr where
  | move
  | find
  | cmp
  | copy
  | hdec
  | route
  | seqw (s : StreamId)
  | seql (s : StreamId)
  | polls
  | pollc
  | emit (s : StreamId)
  | push (s : StreamId)
  | pop (p : Port) (s : StreamId)
  | srst
deriving DecidableEq, Repr

end Sys2Proof
end

