-- ==== Sys2Proof/WellFormed.lean ====
section
/-! DEFINITION. Which operations may be issued on which port (spec/30_encoding.md R80, R82; spec/60_exceptions.md R220). -/

namespace Sys2Proof

/-- The port an operation is issued on: port A for all but a POP issued on port B (R80, column "ports"). -/
def Instr.port : Instr → Port
  | .pop p _ => p
  | _ => .a

/-- The one check an operation must pass on a port (R82, last clause: on `CMDB` only POP is legal). That
`STRM` is 0, 1 or 2, and 0 where it is unused, holds of every `Instr` by its type. -/
def Instr.wellFormed (p : Port) (i : Instr) : Bool :=
  decide (i.port = p)

end Sys2Proof
end

