-- ==== Sys2Proof/Decode.lean ====
section
/-! DEFINITION. The command word: decoder and encoder (spec/30_encoding.md R78, R80, R81, R82). -/

namespace Sys2Proof

/-- Why a command word is illegal, one constructor per clause of R82. -/
inductive Illegal where
  /-- Bits 31:10 are not all zero. -/
  | reservedBits
  /-- `OPC` is not in the opcode map (R80). -/
  | unknownOpcode
  /-- The operation does not use `STRM` and `STRM` is not 0. -/
  | streamUnused
  /-- The operation uses `STRM` and `STRM` is 3. -/
  | streamReserved
  /-- The word was written to `CMDB` and `OPC` is not POP. -/
  | portRights
deriving DecidableEq, Repr

/-- `OPC`, bits 7:0 of the command word (R78). -/
def opcodeField (w : Word) : Nat := w.toNat % 256

/-- `STRM`, bits 9:8 of the command word (R78). -/
def streamField (w : Word) : Nat := w.toNat / 256 % 4

/-- Bits 31:10 of the command word, which must be zero (R78). -/
def zeroField (w : Word) : Nat := w.toNat / 1024

/-- The stream a number names (R7); `none` for the reserved value 3. -/
def streamOfNat : Nat → Option StreamId
  | 0 => some .low
  | 1 => some .high
  | 2 => some .aud
  | _ => none

/-- The number of a stream (R7). -/
def natOfStream : StreamId → Nat
  | .low => 0
  | .high => 1
  | .aud => 2

/-- An operation that does not use `STRM`: `STRM` must be 0 (R82). -/
def plainOp (strm : Nat) (i : Instr) : Except Illegal Instr :=
  if strm = 0 then .ok i else .error .streamUnused

/-- An operation that uses `STRM`: `STRM` must not be 3 (R82). -/
def streamOp (strm : Nat) (mk : StreamId → Instr) : Except Illegal Instr :=
  match streamOfNat strm with
  | some s => .ok (mk s)
  | none => .error .streamReserved

/-- The opcode map (R80). -/
def decodeOpcode (p : Port) (opc strm : Nat) : Except Illegal Instr :=
  match opc with
  | 0x01 => plainOp strm .move
  | 0x02 => plainOp strm .find
  | 0x03 => plainOp strm .cmp
  | 0x04 => plainOp strm .copy
  | 0x08 => plainOp strm .hdec
  | 0x10 => plainOp strm .route
  | 0x11 => streamOp strm .seqw
  | 0x12 => streamOp strm .seql
  | 0x13 => plainOp strm .polls
  | 0x14 => plainOp strm .pollc
  | 0x18 => streamOp strm .emit
  | 0x20 => streamOp strm .push
  | 0x21 => streamOp strm (.pop p)
  | 0x3F => plainOp strm .srst
  | _ => .error .unknownOpcode

/-- The operation a word written to port `p` starts, or why the word is illegal (R82). -/
def decode (p : Port) (w : Word) : Except Illegal Instr :=
  if zeroField w ≠ 0 then .error .reservedBits
  else if p = .b ∧ opcodeField w ≠ 0x21 then .error .portRights
  else decodeOpcode p (opcodeField w) (streamField w)

/-- `OPC` of an operation (R80). -/
def opcodeOf : Instr → Nat
  | .move => 0x01
  | .find => 0x02
  | .cmp => 0x03
  | .copy => 0x04
  | .hdec => 0x08
  | .route => 0x10
  | .seqw _ => 0x11
  | .seql _ => 0x12
  | .polls => 0x13
  | .pollc => 0x14
  | .emit _ => 0x18
  | .push _ => 0x20
  | .pop _ _ => 0x21
  | .srst => 0x3F

/-- `STRM` of an operation, 0 where it is unused (R80). -/
def streamNumber : Instr → Nat
  | .seqw s => natOfStream s
  | .seql s => natOfStream s
  | .emit s => natOfStream s
  | .push s => natOfStream s
  | .pop _ s => natOfStream s
  | .move => 0
  | .find => 0
  | .cmp => 0
  | .copy => 0
  | .hdec => 0
  | .route => 0
  | .polls => 0
  | .pollc => 0
  | .srst => 0

/-- The command word of an operation, format `F-CMD` (R78): `OPC` in bits 7:0, `STRM` in bits 9:8. -/
def encode (i : Instr) : Word :=
  BitVec.ofNat 32 (opcodeOf i + 256 * streamNumber i)

/-- What the decoder reads on port A, where every operation is legal, from an instruction of `nbits`
bits `w`; every bit above `nbits` is 0, and a word of more than 32 bits is no command word. -/
def decodeTableWord (nbits w : Nat) : Option Instr :=
  let v := w % 2 ^ nbits
  if v < 2 ^ 32 then (decode .a (BitVec.ofNat 32 v)).toOption else none

end Sys2Proof
end

