-- ==== Sys2Proof/Config.lean ====
section
/-! DEFINITION. The compile-time parameters of spec/00_scope.md R3 and the free values of spec/93_implementation_defined.md U1, U3. -/

namespace Sys2Proof

/-- The configuration record of R3: every compile-time parameter and the three informative ones, under the
spec's names, each default the value this spec takes. UNVERIFIED: the literals are the source's, unaudited
(log entry 12). The state, the step and every operation take the record as an argument. -/
structure Params where
  addrW : Nat := 32
  padHdrSize : Nat := 22
  irhLenOff : Nat := 4
  irhEchoOff : Nat := 12
  irhCommitOff : Nat := 16
  startCode : List Byte := [0x00, 0x00, 0x00, 0x01]
  spsPrefix : Nat := 6
  maxWalk : Nat := 10
  winLo : Nat := 1
  winHi : Nat := 20
  tol : Nat := 40
  ctrMod : Nat := 65536
  nStream : Nat := 3
  descCap : Nat := 42
  outCapLow : Nat := 49152
  outCapHigh : Nat := 262144
  outCapAud : Nat := 12288
  routeLow : Half := 0x0800
  routeHigh : Half := 0x0400
  routeAud : Half := 0x0100
  tSlice : Half := 0x0001
  tSps : Half := 0x0002
  tPps : Half := 0x0004
  tVps : Half := 0x0008
  patMax : Nat := 16
  lbufSize : Nat := 256
  nSig : Nat := 8
  nSps : Nat := 4
  spsMax : Nat := 64
  /-- `T_TRANSIENT` in milliseconds: informative, no rule depends on it (R3). -/
  retryTransient : Nat := 1
  /-- `T_EMPTY` in milliseconds: informative (R3). -/
  retryEmpty : Nat := 10
  /-- `T_NODATA` in milliseconds: informative (R3). -/
  retryNoData : Nat := 25
deriving DecidableEq, Repr

/-- `IRH_MIN`, derived (R3): `IRH_COMMIT_OFF + 4`. -/
def Params.irhMin (P : Params) : Nat := P.irhCommitOff + 4

/-- The records that the rest of the spec has room for. Registers are 32 bits wide and streams three (spec/10_state.md
R25, spec/30_encoding.md R78), so `ADDR_W` and `N_STREAM` have one value; the tables fit their windows of the
register map (R25), the outcomes of a walk its nine nibbles (spec/30_encoding.md R85), counters 16 bits (R71), capacities a register; a
modulus, a capacity and the number of slots are not 0. -/
def Params.fits (P : Params) : Bool :=
  decide (P.addrW = 32 ∧ P.nStream = 3 ∧ P.patMax ≤ 16 ∧ P.lbufSize ≤ 256 ∧ P.nSig ≤ 8 ∧ P.nSps ≤ 4 ∧
    P.spsMax ≤ 64 ∧ 1 ≤ P.descCap ∧ P.descCap ≤ 42 ∧ P.maxWalk ≤ 10 ∧ 1 ≤ P.ctrMod ∧ P.ctrMod ≤ 65536 ∧
    P.startCode ≠ [] ∧ ∀ cap ∈ [P.outCapLow, P.outCapHigh, P.outCapAud], 1 ≤ cap ∧ cap < 2 ^ 32)

/-- The parameters of this machine: the defaults of R3 (log entry 12). -/
abbrev Config.params : Params := {}

/-- What a byte of `IMEM` holds before the producer's first write to it (spec/20_memory.md R52 "the initial
content if none"): a free value (U3, log entry 2). -/
opaque Config.imemInitial : Nat → Byte

/-- What byte `i` of `OMEM[o]` holds after the `gen`-th hardware reset until a PUSH writes it: a free
value (spec/10_state.md R27; U1, log entry 3). -/
opaque Config.omemUnwritten (gen : Nat) (o : StreamId) (i : Nat) : Byte

/-- What field `field` (0 = off, 1 = seq, 2 = size) of `DESC[o][slot]` holds after the `gen`-th hardware
reset until a PUSH writes the slot: a free value (R27; U1, log entry 3). -/
opaque Config.descUnwritten (gen : Nat) (o : StreamId) (slot field : Nat) : Word

end Sys2Proof
end

