-- ==== Sys2Proof/Machine/State.lean ====
section
/-! DEFINITION. The state of RBFE as plain data (spec/10_state.md R10), what its environment does to it (spec/60_exceptions.md R221), and the state after reset (R27). -/

namespace Sys2Proof.Machine

/-- One value per stream or output ring, indexed LOW, HIGH, AUD (R7). -/
structure PerStream (α : Type) where
  low : α
  high : α
  aud : α
deriving DecidableEq, Repr

/-- A sparse memory: (address, value) pairs in one canonical form (`Memory.wf`). `Memory Byte` is a list
of `Host.Cell`. An unlisted address has not been written. -/
abbrev Memory (β : Type) := List (Nat × β)

/-- The resync state of one stream (R19). -/
structure Resync where
  lastValid : Half
  lvSet : Bool
  invRun : Word
  lost : Word
  syncLost : Word
deriving DecidableEq, Repr

/-- A frame descriptor, format `F-DESC` (spec/30_encoding.md R76). -/
structure Desc where
  off : Word
  seq : Word
  size : Word
deriving DecidableEq, Repr

/-- One output ring (R20): the byte store with its capacity `OUT_CAP[o]` (read-only, R25), the byte
cursor `OWR`, the descriptor table and its indices. `omem` and `desc` list what has been written since
the hardware reset; the rest is unspecified (R27). -/
structure OutRing where
  cap : Word
  omem : Memory Byte
  owr : Word
  desc : Memory Desc
  fwr : Word
  frd : Word
deriving DecidableEq, Repr

/-- One entry of the SPS rewrite table (R23); its byte strings hold `SPS_MAX` bytes. -/
structure SpsEntry (P : Params) where
  valid : Bool
  mlen : Byte
  rlen : Byte
  pattern : Vector Byte P.spsMax
  repl : Vector Byte P.spsMax
deriving DecidableEq, Repr

/-- The producer's side (spec/20_memory.md R52): what its writes have left in `IMEM` so far, and the writes
that land before each coming single-byte read, one batch a read. -/
structure InputRing where
  mem : Memory Byte
  pending : List (List Host.Cell)
deriving DecidableEq, Repr

/-- A register access of the consumer on port B (R26). -/
inductive ConsumerAct where
  | read (off : Nat)
  | write (off : Nat) (v : Word)
deriving DecidableEq, Repr

/-- What the environment does next (spec/60_exceptions.md R221; spec/70_reset_and_hazards.md R240). Offsets
are byte offsets of the register map (R25). -/
inductive HostAct where
  | masterRead (off : Nat)
  | masterWrite (off : Nat) (v : Word)
  | consumer (a : ConsumerAct)
  | produce (c : Host.Cell)
  | resetInput
deriving DecidableEq, Repr

/-- The canonical header (spec/42_header_codec.md R120). -/
structure Hdr where
  length : Word
  sequenceCounter : Word
  captureTime : Word
  streamType : Half
  streamCounter : Half
deriving DecidableEq, Repr

/-- The frame-header layouts (spec/30_encoding.md R71, R72). -/
inductive Layout where
  | padded
  | compact
deriving DecidableEq, Repr

/-- The kinds a signature can name (R22). -/
inductive NalKind where
  | slice
  | idr
  | sps
  | pps
  | vps
deriving DecidableEq, Repr

/-- The two poll variants (spec/43_demux.md R140). -/
inductive Variant where
  | scan
  | chain
deriving DecidableEq, Repr

/-- The outcome codes of spec/30_encoding.md R83. -/
inductive StatusCode where
  | ok
  | notFound
  | empty
  | transient
  | noData
  | init
  | suppressed
  | resync
  | dropLen
  | misclass
  | spsUnknown
  | walkSync
  | skipped
  | tooBig
  | errRange
  | errCfg
  | illegal
deriving DecidableEq, Repr

/-- The sticky bits of `EVENT` (R14). -/
inductive Event where
  | transient
  | dropLen
  | seqAnom
  | syncLost
  | walkSync
  | misclass
  | spsUnknown
  | tooBig
  | loss
  | errRange
  | errCfg
  | illegal
deriving DecidableEq, Repr

/-- What a successful push reports (spec/45_output_ring.md R180): `(size, off, slot)`. -/
structure Stored where
  size : Word
  off : Word
  slot : Word
deriving DecidableEq, Repr

/-- The geometry of the input ring as integers, the source's `RingGeometry` (R16). -/
structure Geom where
  off : Nat
  size : Nat
deriving DecidableEq, Repr

namespace Parametric

/-- The whole machine with the compile-time parameters `P` (spec/00_scope.md R3), which are an argument of the
model and not state (R28): they fix the sizes of the tables. The first part is the state of the block (R10); the
second is its environment and its outputs, which the spec calls inputs of the step relation and choices of the
environment (R28). -/
@[ext]
structure State (P : Params) where
  ctrl : Word
  bufOffset : Word
  bufSize : Word
  hdrSize : Word
  cmd : Word
  status : Word
  arg : Vector Word 4
  res : Vector Word 5
  cmdb : Word
  statusb : Word
  resb : Vector Word 3
  event : Word
  cur : Word
  curValid : Bool
  resync : PerStream Resync
  ring : PerStream OutRing
  pat : Vector Byte P.patMax
  lbuf : Vector Byte P.lbufSize
  sig : Vector Word P.nSig
  spslut : Vector (SpsEntry P) P.nSps
  input : InputRing
  consumer : List (List ConsumerAct)
  inbox : List HostAct
  rdataA : Word
  rdataB : Word
  dataOutA : List Byte
  dataOutB : List Byte
  resetCount : Nat
deriving DecidableEq, Repr

end Parametric

/-- The state of the machine of this row: the parameters have their defaults (log entry 12). -/
abbrev State : Type := Parametric.State Config.params

/-- Why the machine stops. No operation stops it (spec/60_exceptions.md R210). -/
inductive Fault where
  /-- Raised by a master access at `off` that is not an aligned word below 0x2000: the register map (R25)
  has no register there for port A (R26). Safe: the model stops where the spec says nothing (log entry 10). -/
  | registerAccess (off : Nat)
deriving DecidableEq, Repr

/-- Why an operation has no meaning. -/
inductive Refusal where
  /-- Raised by an arm of `exec` whose operation has no meaning yet: none is left. Safe. -/
  | notModelled (mnemonic : String)
deriving DecidableEq, Repr

/-- No baseline, no violations, nothing lost (R27). -/
def Resync.zero : Resync :=
  { lastValid := 0, lvSet := false, invRun := 0, lost := 0, syncLost := 0 }

/-- An output ring after the hardware reset (R27): indices 0, nothing written. -/
def OutRing.fresh (cap : Word) : OutRing :=
  { cap := cap, omem := [], owr := 0, desc := [], fwr := 0, frd := 0 }

/-- An unusable SPS table entry, all zero (R23, R27). -/
def SpsEntry.zero {P : Params} : SpsEntry P :=
  { valid := false, mlen := 0, rlen := 0, pattern := Vector.replicate _ 0, repl := Vector.replicate _ 0 }

/-- The machine with parameters `P` right after reset (R27): every register and table 0. The environment has nothing queued
and nothing has been presented on a channel (log entries 1, 2, 4, 5, 8, 9: DESIGN CHOICE). -/
def Parametric.State.reset (P : Params) : Parametric.State P where
  ctrl := 0
  bufOffset := 0
  bufSize := 0
  hdrSize := 0
  cmd := 0
  status := 0
  arg := Vector.replicate 4 0
  res := Vector.replicate 5 0
  cmdb := 0
  statusb := 0
  resb := Vector.replicate 3 0
  event := 0
  cur := 0
  curValid := false
  resync := { low := Resync.zero, high := Resync.zero, aud := Resync.zero }
  ring :=
    { low := OutRing.fresh (BitVec.ofNat 32 P.outCapLow)
      high := OutRing.fresh (BitVec.ofNat 32 P.outCapHigh)
      aud := OutRing.fresh (BitVec.ofNat 32 P.outCapAud) }
  pat := Vector.replicate _ 0
  lbuf := Vector.replicate _ 0
  sig := Vector.replicate _ 0
  spslut := Vector.replicate _ SpsEntry.zero
  input := { mem := [], pending := [] }
  consumer := []
  inbox := []
  rdataA := 0
  rdataB := 0
  dataOutA := []
  dataOutB := []
  resetCount := 0

/-- The machine of this row right after reset: the parameters have their defaults (log entry 12). -/
def State.reset : State := Parametric.State.reset Config.params

end Sys2Proof.Machine
end

