-- ==== Sys2Proof/Machine/Memory.lean ====
section
/-! DEFINITION. Sparse memories in canonical form: one representation for `IMEM`, `OMEM` and `DESC` (spec/20_memory.md R40). -/

namespace Sys2Proof.Machine

/-- The value last written at `a`; `none` where nothing has been written. -/
def Memory.read {β : Type} : Memory β → Nat → Option β
  | [], _ => none
  | (b, v) :: m, a => if a = b then some v else Memory.read m a

/-- Write `v` at `a`, keeping the addresses strictly rising. -/
def Memory.write {β : Type} : Memory β → Nat → β → Memory β
  | [], a, v => [(a, v)]
  | (b, w) :: m, a, v =>
    if a < b then (a, v) :: (b, w) :: m
    else if a = b then (a, v) :: m
    else (b, w) :: Memory.write m a v

/-- The canonical form: addresses strictly rising. An unlisted address reads as `none`, which no entry
equals, so equal memories are equal lists. -/
abbrev Memory.wf {β : Type} (m : Memory β) : Prop :=
  m.Pairwise (fun x y => x.1 < y.1)

/-- The producer's writes of one batch, in order (spec/20_memory.md R52). -/
def produce (cells : List Host.Cell) (m : Memory Byte) : Memory Byte :=
  cells.foldl (fun m c => Memory.write m c.1 c.2) m

/-- The byte `IMEM` holds at `a` (R52): the producer's most recent write, or the initial content. -/
def imemByte (m : Memory Byte) (a : Nat) : Byte :=
  (Memory.read m a).getD (Config.imemInitial a)

end Sys2Proof.Machine
end

