-- ==== Sys2Proof/Machine/Operands.lean ====
section
/-! DEFINITION. Operand forms: byte assembly, register fields, per-stream access and the carriers of operands and results (spec/00_scope.md R4 to R6, spec/30_encoding.md R77). -/

namespace Sys2Proof.Machine

/-- Little-endian value of a byte sequence, the lowest address first: `le16` and `le32` of R5 for two
and four bytes. The single place that fixes the byte order (spec/20_memory.md R46). -/
def leBytes : List Byte → Nat
  | [] => 0
  | b :: bs => b.toNat + 256 * leBytes bs

/-- Bits `hi` down to `lo` of a register value (R4). -/
def field (w : Word) (hi lo : Nat) : Nat :=
  w.toNat / 2 ^ lo % 2 ^ (hi + 1 - lo)

/-- One bit of a register value (R4). -/
def bit (w : Word) (i : Nat) : Bool :=
  decide (field w i i = 1)

/-- An unsigned value stored in a 32-bit register: `-> u32` (R4). -/
def toWord (n : Nat) : Word :=
  BitVec.ofNat 32 n

/-- The element of stream or ring `s`. -/
def PerStream.get {α : Type} (v : PerStream α) : StreamId → α
  | .low => v.low
  | .high => v.high
  | .aud => v.aud

/-- Replace the element of stream or ring `s`. -/
def PerStream.set {α : Type} (v : PerStream α) (s : StreamId) (x : α) : PerStream α :=
  match s with
  | .low => { v with low := x }
  | .high => { v with high := x }
  | .aud => { v with aud := x }

/-- Apply a function to all three elements. -/
def PerStream.map {α β : Type} (f : α → β) (v : PerStream α) : PerStream β :=
  { low := f v.low, high := f v.high, aud := f v.aud }

/-- An address or count operand, `ARG[i]` as an unsigned integer (R77). -/
def Parametric.State.argNat {P : Params} (s : Parametric.State P) (i : Fin 4) : Nat :=
  s.arg[i].toNat

/-- A signed operand, `sext_32(ARG[i])` (R77). -/
def Parametric.State.argInt {P : Params} (s : Parametric.State P) (i : Fin 4) : Int :=
  s.arg[i].toInt

/-- A 16-bit operand, `ARG[i][15:0]`; the upper half is ignored (R77). -/
def Parametric.State.argHalf {P : Params} (s : Parametric.State P) (i : Fin 4) : Half :=
  BitVec.ofNat 16 (s.arg[i].toNat % 65536)

/-- The input ring after some reads: the producer's schedule has moved on (spec/20_memory.md R52). -/
def Parametric.State.setInput {P : Params} (s : Parametric.State P) (inp : InputRing) : Parametric.State P :=
  { s with input := inp }

/-- `CUR <- a` for a ring address (spec/10_state.md R12). -/
def Parametric.State.setCur {P : Params} (s : Parametric.State P) (a : Nat) : Parametric.State P :=
  { s with cur := toWord a }

/-- `CUR <- a; CUR_VALID <- 1` (R12). -/
def Parametric.State.initCur {P : Params} (s : Parametric.State P) (a : Nat) : Parametric.State P :=
  { s with cur := toWord a, curValid := true }

/-- All five result registers (R6). -/
def Parametric.State.setResults5 {P : Params} (s : Parametric.State P) (v0 v1 v2 v3 v4 : Word) : Parametric.State P :=
  { s with res := #v[v0, v1, v2, v3, v4] }

/-- `RES[i] <- v` (R6). -/
def Parametric.State.setRes {P : Params} (s : Parametric.State P) (i : Fin 5) (v : Word) : Parametric.State P :=
  { s with res := s.res.set i v }

/-- `RES[0..2]` on port A, `RESB[0..2]` on port B (R6). -/
def Parametric.State.setResults3 {P : Params} (s : Parametric.State P) (p : Port) (v0 v1 v2 : Word) : Parametric.State P :=
  match p with
  | .a => { s with res := ((s.res.set 0 v0).set 1 v1).set 2 v2 }
  | .b => { s with resb := ((s.resb.set 0 v0).set 1 v1).set 2 v2 }

/-- Present a byte sequence on the data-out channel of a port (spec/45_output_ring.md R185). -/
def Parametric.State.setDataOut {P : Params} (s : Parametric.State P) (p : Port) (bytes : List Byte) : Parametric.State P :=
  match p with
  | .a => { s with dataOutA := bytes }
  | .b => { s with dataOutB := bytes }

/-- Replace the resync state of stream `st` (R19). -/
def Parametric.State.setResync {P : Params} (s : Parametric.State P) (st : StreamId) (r : Resync) : Parametric.State P :=
  { s with resync := s.resync.set st r }

/-- Replace output ring `o` (R20). -/
def Parametric.State.setRing {P : Params} (s : Parametric.State P) (o : StreamId) (r : OutRing) : Parametric.State P :=
  { s with ring := s.ring.set o r }

/-- Store bytes in a byte array from index `k` on; bytes beyond its end are dropped. -/
def storeBytes {n : Nat} (v : Vector Byte n) (k : Nat) : List Byte → Vector Byte n
  | [] => v
  | b :: bs => storeBytes (v.setIfInBounds k b) (k + 1) bs

/-- `CTRL.SPS_RW` (spec/10_state.md R15). -/
def Parametric.State.spsRw {P : Params} (s : Parametric.State P) : Bool := bit s.ctrl 0

/-- `CTRL.LAYOUT` (R15). -/
def Parametric.State.layoutField {P : Params} (s : Parametric.State P) : Nat := field s.ctrl 5 4

/-- `CTRL.SCAN_POLICY` (R15). -/
def Parametric.State.scanPolicy {P : Params} (s : Parametric.State P) : Bool := bit s.ctrl 6

/-- `CTRL.CHAIN_POLICY` (R15). -/
def Parametric.State.chainPolicy {P : Params} (s : Parametric.State P) : Bool := bit s.ctrl 7

/-- `enabled(s)`: `LOW_EN`, `HIGH_EN`, `AUD_EN` (spec/43_demux.md R132). -/
def Parametric.State.enabled {P : Params} (s : Parametric.State P) : StreamId → Bool
  | .low => bit s.ctrl 1
  | .high => bit s.ctrl 2
  | .aud => bit s.ctrl 3

/-- Signature entry fields `B0`, `B1`, `LEN` (spec/10_state.md R22). -/
def sigB0 (e : Word) : Nat := field e 7 0
def sigB1 (e : Word) : Nat := field e 15 8
def sigLen (e : Word) : Nat := field e 17 16

/-- Signature entry field `KIND`; 5 to 7 name no kind (R22). -/
def sigKind (e : Word) : Option NalKind :=
  match field e 22 20 with
  | 0 => some .slice
  | 1 => some .idr
  | 2 => some .sps
  | 3 => some .pps
  | 4 => some .vps
  | _ => none

/-- The bits of a `SIG` entry that a write stores (R22): `KIND`, `LEN`, `B1`, `B0`. -/
def sigMask : Word := 0x0073FFFF

/-- A usable SPS table entry (R23). -/
def SpsEntry.usable {P : Params} (e : SpsEntry P) : Bool :=
  e.valid && decide (1 ≤ e.mlen.toNat ∧ e.mlen.toNat ≤ P.spsMax)
    && decide (1 ≤ e.rlen.toNat ∧ e.rlen.toNat ≤ P.spsMax)

/-- `MATCH[0..MLEN-1]` of an entry (R23, R172). -/
def SpsEntry.patternBytes {P : Params} (e : SpsEntry P) : List Byte := e.pattern.toList.take e.mlen.toNat

/-- `REPL[0..RLEN-1]` of an entry (R23, R171). -/
def SpsEntry.replBytes {P : Params} (e : SpsEntry P) : List Byte := e.repl.toList.take e.rlen.toNat

end Sys2Proof.Machine
end

