-- ==== Sys2Proof/Machine/Flags.lean ====
section
/-! DEFINITION. Outcome codes and sticky events: how an operation finishes (spec/30_encoding.md R83, R84; spec/60_exceptions.md R210 to R214). This is what the block has instead of exceptions. -/

namespace Sys2Proof.Machine

/-- The code of an outcome (R83). -/
def StatusCode.code : StatusCode → Byte
  | .ok => 0x00
  | .notFound => 0x01
  | .empty => 0x02
  | .transient => 0x03
  | .noData => 0x04
  | .init => 0x05
  | .suppressed => 0x06
  | .resync => 0x07
  | .dropLen => 0x08
  | .misclass => 0x09
  | .spsUnknown => 0x0A
  | .walkSync => 0x0B
  | .skipped => 0x0C
  | .tooBig => 0x0D
  | .errRange => 0x10
  | .errCfg => 0x11
  | .illegal => 0x12

/-- The status register's value for an outcome: the code in bits 7:0, zero above (R84). -/
def StatusCode.word (c : StatusCode) : Word := c.code.setWidth 32

/-- The bit of `EVENT` an event sets (spec/10_state.md R14). -/
def Event.position : Event → Nat
  | .transient => 0
  | .dropLen => 1
  | .seqAnom => 2
  | .syncLost => 3
  | .walkSync => 4
  | .misclass => 5
  | .spsUnknown => 6
  | .tooBig => 7
  | .loss => 8
  | .errRange => 9
  | .errCfg => 10
  | .illegal => 11

/-- The `EVENT` value with only this event's bit set. -/
def Event.mask (e : Event) : Word := BitVec.ofNat 32 (2 ^ e.position)

/-- `event(EV_X)`: set a sticky bit (R14). -/
def Parametric.State.raise {P : Params} (s : Parametric.State P) (e : Event) : Parametric.State P :=
  { s with event := s.event ||| e.mask }

/-- `finish(ST_X)` on port `p`: write the outcome code into that port's status register (R84). -/
def Parametric.State.finish {P : Params} (s : Parametric.State P) (p : Port) (c : StatusCode) : Parametric.State P :=
  match p with
  | .a => { s with status := c.word }
  | .b => { s with statusb := c.word }

/-- The outcome of an illegal command word on port `p` (R82). -/
def Parametric.State.illegal {P : Params} (s : Parametric.State P) (p : Port) : Parametric.State P :=
  (s.raise .illegal).finish p .illegal

/-- The outcome when `geom_ok` or `hdr_ok` fails (spec/10_state.md R17, spec/60_exceptions.md R213). -/
def Parametric.State.errCfg {P : Params} (s : Parametric.State P) : Parametric.State P :=
  (s.raise .errCfg).finish .a .errCfg

/-- The outcome when an operand is outside the operation's domain (R212). -/
def Parametric.State.errRange {P : Params} (s : Parametric.State P) : Parametric.State P :=
  (s.raise .errRange).finish .a .errRange

/-- The nibbles of a list of outcomes, the first lowest (spec/30_encoding.md R85). -/
def nibbles : List StatusCode → Nat
  | [] => 0
  | c :: cs => c.code.toNat % 16 + 16 * nibbles cs

/-- `pack(out)` for `RES[3]`: frames 0 to 7 (R85). -/
def packLow (out : List StatusCode) : Word := toWord (nibbles (out.take 8))

/-- `pack(out)` for `RES[4]`: frame 8 (R85). -/
def packHigh (out : List StatusCode) : Word := toWord (nibbles ((out.drop 8).take 1))

end Sys2Proof.Machine
end

