-- ==== Sys2Proof/Machine/Ops.lean ====
section
/-! DEFINITION. The shared operations over memory and registers: ring addresses, reads of `IMEM`, search, compare, copy, header decoding, classification, sequence tracking, output rings, emission. The compile-time parameters of spec/00_scope.md R3 are an argument of each that depends on them: of the type of its state, or its last. The block takes no exceptions (spec/60_exceptions.md R210): an abnormal outcome is `Parametric.State.raise` and `Parametric.State.finish` of Flags.lean. -/

namespace Sys2Proof.Machine

/-! ### Geometry and ring addresses (spec/10_state.md R17; spec/41_ring_locator.md R100 to R104) -/

/-- The geometry the registers hold now. -/
def Parametric.State.geom {P : Params} (s : Parametric.State P) : Geom :=
  { off := s.bufOffset.toNat, size := s.bufSize.toNat }

/-- The payload span `S` (R3). -/
def Geom.span (g : Geom) : Nat := g.size - g.off

/-- `geom_ok` (R17). -/
def Geom.ok (g : Geom) (P : Params := Config.params) : Bool :=
  decide (P.irhMin ≤ g.off ∧ g.off < g.size ∧ g.size ≤ 2 ^ 31 ∧ 2 ≤ g.span)

/-- Whether `a` is a ring address (R7). -/
def Geom.isRing (g : Geom) (a : Nat) : Bool :=
  decide (g.off ≤ a ∧ a < g.size)

/-- `wrap(x)` (R100). -/
def Geom.wrap (g : Geom) (x : Nat) : Nat :=
  if x < g.size then x else x - g.span

/-- `dist(a, b)`, the forward ring distance (R102). -/
def Geom.dist (g : Geom) (a b : Nat) : Nat :=
  if a ≤ b then b - a else b + g.span - a

/-- `move(a, d)`: the three middle lines of R103, over the integers. -/
def Geom.move (g : Geom) (a : Nat) (d : Int) : Nat :=
  let r : Int := (a : Int) + d
  if (g.size : Int) ≤ r then (r - (g.span : Int)).toNat
  else if r < (g.off : Int) then (r + (g.span : Int)).toNat
  else r.toNat

/-- `layout()` (spec/42_header_codec.md R121). `CTRL.LAYOUT` = 3 selects no layout: `hdr_ok` is then false. -/
def Parametric.State.layout {P : Params} (s : Parametric.State P) : Layout :=
  if s.layoutField = 2 then .padded
  else if s.layoutField = 1 then .compact
  else if s.hdrSize.toNat = P.padHdrSize then .padded
  else .compact

/-- `hdr_min` (R121): the bytes the layout's fields occupy. -/
def Layout.minSize : Layout → Nat
  | .padded => 22
  | .compact => 16

/-- `geom_ok` of the registers (R17). -/
def Parametric.State.geomOk {P : Params} (s : Parametric.State P) : Bool := s.geom.ok P

/-- `hdr_ok`, which includes `geom_ok` (R17). -/
def Parametric.State.hdrOk {P : Params} (s : Parametric.State P) : Bool :=
  s.geomOk && decide (s.layoutField ≠ 3 ∧ s.layout.minSize ≤ s.hdrSize.toNat ∧
    s.hdrSize.toNat + P.spsPrefix < s.geom.span)

/-! ### Reads of the input ring (spec/20_memory.md R48, R51, R52; R101) -/

/-- `IRead(a)`: the producer's next batch of writes lands, then one byte is read (R52). -/
def iread (a : Nat) (inp : InputRing) : Byte × InputRing :=
  match inp.pending with
  | [] => (imemByte inp.mem a, inp)
  | batch :: rest =>
    let m := produce batch inp.mem
    (imemByte m a, { mem := m, pending := rest })

/-- `n` single-byte reads at `addr k`, `addr (k+1)`, …, in that order (R48, R51). -/
def readSeq (addr : Nat → Nat) : Nat → Nat → InputRing → List Byte × InputRing
  | 0, _, inp => ([], inp)
  | n + 1, k, inp =>
    let (b, inp1) := iread (addr k) inp
    let (bs, inp2) := readSeq addr n (k + 1) inp1
    (b :: bs, inp2)

/-- `MemRead(IMEM, a, n)` as an unsigned value (R6, R42). -/
def memRead (a n : Nat) (inp : InputRing) : Nat × InputRing :=
  let (bs, inp1) := readSeq (fun k => a + k) n 0 inp
  (leBytes bs, inp1)

/-- `rb(a, k)`, the ring byte `k` places after `a` (R101). -/
def rb (g : Geom) (a k : Nat) (inp : InputRing) : Byte × InputRing :=
  iread (g.wrap (a + k)) inp

/-- `copy_bytes(a, n)` (spec/41_ring_locator.md R109). -/
def copyBytes (g : Geom) (a n : Nat) (inp : InputRing) : List Byte × InputRing :=
  readSeq (fun k => g.wrap (a + k)) n 0 inp

/-! ### Search and compare (spec/41_ring_locator.md R105, R107) -/

/-- Whether the bytes at `rb(src, k)`, `rb(src, k+1)`, … are the pattern; reading stops at the first
mismatch (R51 allows it). -/
def matchAt (g : Geom) (src : Nat) : List Byte → Nat → InputRing → Bool × InputRing
  | [], _, inp => (true, inp)
  | p :: ps, k, inp =>
    let (b, inp1) := rb g src k inp
    if b = p then matchAt g src ps (k + 1) inp1 else (false, inp1)

/-- The search loop of `find_win`: `n` positions from `k` on (R105). -/
def findFrom (g : Geom) (src : Nat) (pat : List Byte) : Nat → Nat → InputRing → Option Nat × InputRing
  | 0, _, inp => (none, inp)
  | n + 1, k, inp =>
    let (hit, inp1) := matchAt g src pat k inp
    if hit then (some (g.wrap (src + k)), inp1) else findFrom g src pat n (k + 1) inp1

/-- `find_win(src, L, pat)` (R105): positions 0 to `L - m`, none if `L < m`. -/
def findWin (g : Geom) (src len : Nat) (pat : List Byte) (inp : InputRing) : Option Nat × InputRing :=
  if len < pat.length then (none, inp)
  else findFrom g src pat (len - pat.length + 1) 0 inp

/-- `cmp_bytes(loc, a)` from position `k` on: the local bytes against the ring bytes (R107). -/
def cmpBytes (g : Geom) (a : Nat) : List Byte → Nat → InputRing → Ordering × InputRing
  | [], _, inp => (.eq, inp)
  | l :: ls, k, inp =>
    let (r, inp1) := rb g a k inp
    if l.toNat < r.toNat then (.lt, inp1)
    else if r.toNat < l.toNat then (.gt, inp1)
    else cmpBytes g a ls (k + 1) inp1

/-- The result word of an ordering (R107). -/
def orderingWord : Ordering → Word
  | .lt => 0xFFFFFFFF
  | .gt => 0x00000001
  | .eq => 0x00000000

/-! ### Frame headers (spec/42_header_codec.md R122; spec/30_encoding.md R71, R72) -/

/-- The `n`-byte little-endian field at offset `o` of the header at `h`: `u32at(o)`, `u16at(o)` (R122). -/
def headerField (g : Geom) (h o n : Nat) (inp : InputRing) : Nat × InputRing :=
  let (bs, inp1) := readSeq (fun k => g.wrap (h + (o + k))) n 0 inp
  (leBytes bs, inp1)

/-- Offsets of `capture_time`, `stream_type`, `stream_counter` (R71, R72); `length` and
`sequence_counter` are at 0 and 4 in both layouts. -/
def Layout.timeOff : Layout → Nat
  | .padded => 12
  | .compact => 8
def Layout.typeOff : Layout → Nat
  | .padded => 16
  | .compact => 12
def Layout.counterOff : Layout → Nat
  | .padded => 18
  | .compact => 14

/-- `decode_hdr(h)` (R122), reading only the field bytes, in ascending offset order. -/
def decodeHdr (g : Geom) (l : Layout) (h : Nat) (inp : InputRing) : Hdr × InputRing :=
  let (len, inp1) := headerField g h 0 4 inp
  let (sq, inp2) := headerField g h 4 4 inp1
  let (time, inp3) := headerField g h l.timeOff 4 inp2
  let (ty, inp4) := headerField g h l.typeOff 2 inp3
  let (ctr, inp5) := headerField g h l.counterOff 2 inp4
  ({ length := BitVec.ofNat 32 len, sequenceCounter := BitVec.ofNat 32 sq,
     captureTime := BitVec.ofNat 32 time, streamType := BitVec.ofNat 16 ty,
     streamCounter := BitVec.ofNat 16 ctr }, inp5)

/-! ### Classification (spec/43_demux.md R130, R152) -/

/-- `route(t)`: the first route bit in the order LOW, HIGH, AUD (R130). -/
def route (t : Half) (P : Params := Config.params) : Option StreamId :=
  if t &&& P.routeLow ≠ 0 then some .low
  else if t &&& P.routeHigh ≠ 0 then some .high
  else if t &&& P.routeAud ≠ 0 then some .aud
  else none

/-- The kind bits `t & 0x000F` of a `stream_type` (R131). -/
def kindBits (t : Half) (P : Params := Config.params) : Half :=
  t &&& (P.tSlice ||| P.tSps ||| P.tPps ||| P.tVps)

/-- Whether a signature entry matches the two bytes after a start code (R152). -/
def sigMatches (e : Word) (b0 b1 : Byte) : Bool :=
  decide (sigLen e = 1 ∧ sigB0 e = b0.toNat) ||
  decide (sigLen e = 2 ∧ sigB0 e = b0.toNat ∧ sigB1 e = b1.toNat)

/-- `sig_lookup(b0, b1)`: the kind of the first matching entry (R152). -/
def sigLookup (b0 b1 : Byte) : List Word → Option NalKind
  | [] => none
  | e :: es =>
    match sigKind e with
    | some k => if sigMatches e b0 b1 then some k else sigLookup b0 b1 es
    | none => sigLookup b0 b1 es

/-! ### Sequence tracking (spec/43_demux.md R134, R137, R140) -/

/-- `(c - last) mod CTR_MOD`, over the integers (R134; spec/00_scope.md R4). -/
def counterDistance (c last : Half) (P : Params := Config.params) : Nat :=
  (((c.toNat : Int) - last.toNat) % P.ctrMod).toNat

/-- Whether a forward distance is in the window (R134). -/
def inWindow (d : Nat) (P : Params := Config.params) : Bool :=
  decide (P.winLo ≤ d ∧ d ≤ P.winHi)

/-- `seq_window(s, c)`: the outcome, the distance `d`, and the state after (R134). -/
def seqWindow {P : Params} (st : StreamId) (c : Half) (s : Parametric.State P) : StatusCode × Nat × Parametric.State P :=
  let r := s.resync.get st
  if r.lvSet = false then
    (.ok, 0, s.setResync st { r with lastValid := c, lvSet := true, invRun := 0 })
  else
    let d := counterDistance c r.lastValid P
    if inWindow d P then
      (.ok, d, s.setResync st { r with lastValid := c, invRun := 0 })
    else
      let run := r.invRun + 1
      if P.tol < run.toNat then
        (.resync, d, ((s.raise .seqAnom).setResync st
          { r with lastValid := c, invRun := 0, syncLost := r.syncLost + 1 }).raise .syncLost)
      else
        (.suppressed, d, (s.raise .seqAnom).setResync st { r with invRun := run })

/-- `lost` of `seq_loss`, over the integers: -1 to `CTR_MOD - 2` (R137). -/
def lostFrames (c last : Half) (P : Params := Config.params) : Int :=
  ((P.ctrMod : Int) + c.toNat - last.toNat) % P.ctrMod - 1

/-- `seq_loss(s, c)`: the number of frames skipped and the state after; its outcome is always `ST_OK` (R137). -/
def seqLoss {P : Params} (st : StreamId) (c : Half) (s : Parametric.State P) : Int × Parametric.State P :=
  let r := s.resync.get st
  if r.lvSet = false then
    (0, s.setResync st { r with lastValid := c, lvSet := true })
  else
    let lost := lostFrames c r.lastValid P
    if 0 < lost then
      (lost, (s.setResync st { r with lastValid := c, lost := r.lost + BitVec.ofInt 32 lost }).raise .loss)
    else
      (lost, s.setResync st { r with lastValid := c })

/-- Whether a variant uses the window policy (R140). -/
def Parametric.State.usesWindow {P : Params} (s : Parametric.State P) : Variant → Bool
  | .scan => !s.scanPolicy
  | .chain => s.chainPolicy

/-- `seq_check(variant, s, c)` (R140). -/
def seqCheck {P : Params} (v : Variant) (st : StreamId) (c : Half) (s : Parametric.State P) :
    StatusCode × Parametric.State P :=
  if s.usesWindow v then
    let (code, _, s1) := seqWindow st c s
    (code, s1)
  else
    let (_, s1) := seqLoss st c s
    (.ok, s1)

/-! ### Output rings (spec/45_output_ring.md R180, R184) -/

/-- The copy of R180: byte `k` of the frame goes to index `(off + k) mod OUT_CAP`. -/
def ringWrite (cap off : Nat) : List Byte → Nat → Memory Byte → Memory Byte
  | [], _, m => m
  | b :: bs, k, m => ringWrite cap off bs (k + 1) (Memory.write m ((off + k) % cap) b)

/-- The critical section of `push` (R180): bytes, byte cursor, descriptor and `FWR` change together. -/
def OutRing.store (r : OutRing) (bytes : List Byte) (sq : Word) (P : Params := Config.params) : OutRing :=
  { r with
    omem := ringWrite r.cap.toNat r.owr.toNat bytes 0 r.omem
    owr := toWord ((r.owr.toNat + bytes.length) % r.cap.toNat)
    desc := Memory.write r.desc r.fwr.toNat { off := r.owr, seq := sq, size := toWord bytes.length }
    fwr := toWord ((r.fwr.toNat + 1) % P.descCap) }

/-- `push(o, bytes, seq)` (R180): what was stored, or the code of the refusal. -/
def push {P : Params} (o : StreamId) (bytes : List Byte) (sq : Word) (s : Parametric.State P) :
    Except StatusCode Stored × Parametric.State P :=
  let r := s.ring.get o
  if bytes.length = 0 then (.error .dropLen, s.raise .dropLen)
  else if r.cap.toNat ≤ bytes.length then (.error .tooBig, s.raise .tooBig)
  else (.ok { size := toWord bytes.length, off := r.owr, slot := r.fwr }, s.setRing o (r.store bytes sq P))

/-- Byte `i` of `OMEM[o]`: the last PUSH's, or unspecified since the hardware reset (R27, U1). -/
def Parametric.State.omemByte {P : Params} (s : Parametric.State P) (o : StreamId) (i : Nat) : Byte :=
  (Memory.read (s.ring.get o).omem i).getD (Config.omemUnwritten s.resetCount o i)

/-- `DESC[o][slot]`: the last PUSH's into the slot, or unspecified since the hardware reset (R27, U1). -/
def Parametric.State.descAt {P : Params} (s : Parametric.State P) (o : StreamId) (slot : Nat) : Desc :=
  (Memory.read (s.ring.get o).desc slot).getD
    { off := Config.descUnwritten s.resetCount o slot 0
      seq := Config.descUnwritten s.resetCount o slot 1
      size := Config.descUnwritten s.resetCount o slot 2 }

/-- The bytes a descriptor points at, as they are now (R183, R184). -/
def Parametric.State.descBytes {P : Params} (s : Parametric.State P) (o : StreamId) (d : Desc) : List Byte :=
  (List.range d.size.toNat).map (fun k => s.omemByte o ((d.off.toNat + k) % (s.ring.get o).cap.toNat))

/-- `pop(o)` on port `p` with the rest of POP: results, data-out and outcome (R184, R185). -/
def popCommand {P : Params} (p : Port) (o : StreamId) (s : Parametric.State P) : Parametric.State P :=
  let r := s.ring.get o
  if r.frd = r.fwr then s.finish p .empty
  else
    let d := s.descAt o r.frd.toNat
    let data := s.descBytes o d
    let s1 := s.setRing o { r with frd := toWord ((r.frd.toNat + 1) % P.descCap) }
    ((s1.setResults3 p d.size d.seq d.off).setDataOut p data).finish p .ok

/-! ### Emission (spec/44_sps_emit.md R171, R172) -/

/-- Whether an entry can be that of an SPS of `n` bytes (R172). -/
def SpsEntry.fitsLength {P : Params} (e : SpsEntry P) (n : Nat) : Bool :=
  e.usable && decide (e.mlen.toNat = n)

/-- `sps_match(a, n)`: the first usable entry of length `n` whose bytes are the ring's (R172). The frame is
read once, and only if some entry has its length (spec/70_reset_and_hazards.md R260; log entry 13). -/
def spsMatch {P : Params} (g : Geom) (a n : Nat) (es : List (SpsEntry P)) (inp : InputRing) :
    Option (SpsEntry P) × InputRing :=
  if es.any (fun e => e.fitsLength n) then
    let (bytes, inp1) := copyBytes g a n inp
    (es.find? (fun e => e.fitsLength n && decide (e.patternBytes = bytes)), inp1)
  else (none, inp)

/-- `emit(s, a, n, seq, is_sps)` (R171). The bytes are read before the push. -/
def emit {P : Params} (st : StreamId) (a n : Nat) (sq : Word) (isSps : Bool) (s : Parametric.State P) :
    Except StatusCode Stored × Parametric.State P :=
  if n = 0 then (.error .dropLen, s.raise .dropLen)
  else if isSps = true ∧ s.spsRw = true then
    match spsMatch s.geom a n s.spslut.toList s.input with
    | (none, inp) => (.error .spsUnknown, (s.setInput inp).raise .spsUnknown)
    | (some e, inp) => push st e.replBytes sq (s.setInput inp)
  else
    let (bytes, inp) := copyBytes s.geom a n s.input
    push st bytes sq (s.setInput inp)

/-- The outcome code of a push or an emission. -/
def outcomeCode : Except StatusCode Stored → StatusCode
  | .ok _ => .ok
  | .error c => c

/-! ### Delivery of one frame (spec/43_demux.md R142) -/

/-- The last two steps of `deliver`: the trim of an SPS and the emission (R142). -/
def deliverPayload {P : Params} (st : StreamId) (h : Hdr) (pay : Nat) (isSps : Bool) (s : Parametric.State P) : StatusCode × Parametric.State P :=
  let n := h.length.toNat
  if isSps then
    if n < P.spsPrefix then (.dropLen, s.raise .dropLen)
    else
      let (r, s1) := emit st (s.geom.move pay P.spsPrefix) (n - P.spsPrefix)
        h.sequenceCounter true s
      (outcomeCode r, s1)
  else
    let (r, s1) := emit st pay n h.sequenceCounter false s
    (outcomeCode r, s1)

/-- `deliver(variant, H, pay, is_sps)` (R142): route, enable, sequence, trim, emit. -/
def deliver {P : Params} (v : Variant) (h : Hdr) (pay : Nat) (isSps : Bool) (s : Parametric.State P) : StatusCode × Parametric.State P :=
  match route h.streamType P with
  | none => (.misclass, s.raise .misclass)
  | some st =>
    if s.enabled st = false then (.skipped, s)
    else
      match seqCheck v st h.streamCounter s with
      | (.ok, s1) => deliverPayload st h pay isSps s1
      | (c, s1) => (c, s1)

/-! ### Commit sampling (spec/43_demux.md R145, R146) -/

/-- `sample_chain()`: the commit address, or `none` if inconsistent. `commit_len` is read and unused (R145). -/
def sampleChain (g : Geom) (inp : InputRing) (P : Params := Config.params) : Option Nat × InputRing :=
  let (off, inp1) := memRead P.irhCommitOff 4 inp
  let (_, inp2) := memRead P.irhLenOff 4 inp1
  let (echo, inp3) := memRead P.irhEchoOff 4 inp2
  (if off ≠ echo ∨ g.span ≤ off then none else some (g.off + off), inp3)

/-- `sample_scan()` (R146): the commit offset alone. -/
def sampleScan (g : Geom) (inp : InputRing) (P : Params := Config.params) : Option Nat × InputRing :=
  let (off, inp1) := memRead P.irhCommitOff 4 inp
  (if g.span ≤ off then none else some (g.off + off), inp1)

/-- A poll is outside the spec's defined behaviour when `CUR_VALID = 1` and `CUR` is not a ring address
(spec/93_implementation_defined.md U6, log entry 6). -/
def Parametric.State.staleCursor {P : Params} (s : Parametric.State P) : Bool :=
  s.curValid && !s.geom.isRing s.cur.toNat

end Sys2Proof.Machine
end

