-- ==== Sys2Proof/Machine/Codec.lean ====
section
/-! DEFINITION. The Frame Header Codec operation HDEC (spec/42_header_codec.md). -/

namespace Sys2Proof.Machine

/-- HDEC (R122). -/
def execHdec {P : Params} (s : Parametric.State P) : Host.Outcome (Parametric.State P) Fault Refusal :=
  let g := s.geom
  let h := s.argNat 0
  if s.hdrOk = false then .next s.errCfg
  else if g.isRing h = false then .next s.errRange
  else
    let (hd, inp) := decodeHdr g s.layout h s.input
    .next (((s.setInput inp).setResults5 hd.length hd.sequenceCounter hd.captureTime
      (hd.streamType.setWidth 32) (hd.streamCounter.setWidth 32)).finish .a .ok)

end Sys2Proof.Machine
end

