-- ==== Sys2Proof/Machine/Registers.lean ====
section
/-! DEFINITION. The register map and the rights of the two ports (spec/10_state.md R25, R26; spec/60_exceptions.md R220), and what the environment's accesses do (spec/46_control.md R201; spec/70_reset_and_hazards.md R240). -/

namespace Sys2Proof.Machine

/-! ### Packed byte arrays (R25) -/

/-- Word `i` of a packed byte array: byte `4i` lowest (R25). -/
def packedRead {n : Nat} (v : Vector Byte n) (i : Nat) : Word :=
  toWord (leBytes ((v.toList.drop (4 * i)).take 4))

/-- The four bytes of a word, lowest first (R25). -/
def wordBytes (w : Word) : List Byte :=
  [w.extractLsb' 0 8, w.extractLsb' 8 8, w.extractLsb' 16 8, w.extractLsb' 24 8]

/-- Write word `i` of a packed byte array (R25). -/
def packedWrite {n : Nat} (v : Vector Byte n) (i : Nat) (w : Word) : Vector Byte n :=
  storeBytes v (4 * i) (wordBytes w)

/-! ### Reads (R25, R26) -/

/-- `LAST_VALID[s]`, `INV_RUN[s]`, `LOST[s]`, `SYNC_LOST[s]` at word `j` of stream `s`'s group (R25). -/
def Resync.regRead (r : Resync) : Nat → Word
  | 0 => r.lastValid.setWidth 32 ||| (if r.lvSet then 0x80000000 else 0)
  | 1 => r.invRun
  | 2 => r.lost
  | 3 => r.syncLost
  | _ => 0

/-- `OUT_CAP[o]`, `OWR[o]`, `FWR[o]`, `FRD[o]` at word `j` of ring `o`'s group (R25). -/
def OutRing.regRead (r : OutRing) : Nat → Word
  | 0 => r.cap
  | 1 => r.owr
  | 2 => r.fwr
  | 3 => r.frd
  | _ => 0

/-- `SPSLUT[i].HDRW`: `MLEN` 7:0, `RLEN` 15:8, `VALID` 31 (R25). -/
def SpsEntry.headerWord {P : Params} (e : SpsEntry P) : Word :=
  toWord (e.mlen.toNat + 256 * e.rlen.toNat + (if e.valid then 2 ^ 31 else 0))

/-- Offset `j` within an SPS table entry's window (R25). -/
def SpsEntry.regRead {P : Params} (e : SpsEntry P) (j : Nat) : Word :=
  if j = 0 then e.headerWord
  else if 0x40 ≤ j ∧ j < 0x80 then packedRead e.pattern ((j - 0x40) / 4)
  else if 0x80 ≤ j ∧ j < 0xC0 then packedRead e.repl ((j - 0x80) / 4)
  else 0

/-- A word of a descriptor: `off`, `seq`, `size`, and a reserved word that reads zero (R25). -/
def Desc.regRead (d : Desc) : Nat → Word
  | 0 => d.off
  | 1 => d.seq
  | 2 => d.size
  | _ => 0

/-- The descriptor windows, `j` the offset from 0x1000; outside the 42 slots of a window it is reserved (R25). -/
def Parametric.State.descRegRead {P : Params} (s : Parametric.State P) (j : Nat) : Word :=
  match streamOfNat (j / 0x400) with
  | some o =>
    if j % 0x400 / 0x10 < P.descCap
    then (s.descAt o (j % 0x400 / 0x10)).regRead (j % 0x10 / 4)
    else 0
  | none => 0

/-- The control registers below 0x0080 (R25); 0x0048 to 0x007C are reserved. -/
def Parametric.State.controlRead {P : Params} (s : Parametric.State P) (off : Nat) : Word :=
  if off = 0x00 then s.ctrl
  else if off = 0x04 then s.bufOffset
  else if off = 0x08 then s.bufSize
  else if off = 0x0C then s.hdrSize
  else if off = 0x10 then s.cmd
  else if off = 0x14 then s.status
  else if off < 0x28 then s.arg[(off - 0x18) / 4]?.getD 0
  else if off < 0x3C then s.res[(off - 0x28) / 4]?.getD 0
  else if off = 0x3C then s.event
  else if off = 0x40 then s.cur
  else if off = 0x44 then (if s.curValid then 1 else 0)
  else 0

/-- A read of the register at an aligned offset below 0x2000 (R25). Reserved offsets, and offsets the
map does not list, read 0 (R26; log entry 11). -/
def Parametric.State.regRead {P : Params} (s : Parametric.State P) (off : Nat) : Word :=
  if off < 0x80 then s.controlRead off
  else if off < 0xC0 then
    match streamOfNat ((off - 0x80) / 0x10) with
    | some st => (s.resync.get st).regRead (off % 0x10 / 4)
    | none => 0
  else if off < 0x100 then
    match streamOfNat ((off - 0xC0) / 0x10) with
    | some o => (s.ring.get o).regRead (off % 0x10 / 4)
    | none => 0
  else if off < 0x110 then packedRead s.pat ((off - 0x100) / 4)
  else if off < 0x130 then s.sig[(off - 0x110) / 4]?.getD 0
  else if off < 0x200 then 0
  else if off < 0x300 then packedRead s.lbuf ((off - 0x200) / 4)
  else if off < 0x400 then 0
  else if off < 0x800 then
    match s.spslut[(off - 0x400) / 0x100]? with
    | some e => e.regRead (off % 0x100)
    | none => 0
  else if 0x1000 ≤ off then s.descRegRead (off - 0x1000)
  else 0

/-! ### Writes by the master (R25, R26) -/

/-- A write within an SPS table entry's window (R25). -/
def SpsEntry.regWrite {P : Params} (e : SpsEntry P) (j : Nat) (v : Word) : SpsEntry P :=
  if j = 0 then
    { e with mlen := v.extractLsb' 0 8, rlen := v.extractLsb' 8 8, valid := bit v 31 }
  else if 0x40 ≤ j ∧ j < 0x80 then { e with pattern := packedWrite e.pattern ((j - 0x40) / 4) v }
  else if 0x80 ≤ j ∧ j < 0xC0 then { e with repl := packedWrite e.repl ((j - 0x80) / 4) v }
  else e

/-- Replace entry `i` of the SPS table. -/
def Parametric.State.setSps {P : Params} (s : Parametric.State P) (i : Nat) (e : SpsEntry P) : Parametric.State P :=
  { s with spslut := s.spslut.setIfInBounds i e }

/-- A write to the register at an aligned offset below 0x2000 other than `CMD` (R25). `CTRL` keeps bits
7:0 (R15), `EVENT` is write-one-to-clear (R14), `SIG` keeps its fields (R22); a write to a read-only or
reserved offset is ignored (R26). -/
def Parametric.State.regWrite {P : Params} (s : Parametric.State P) (off : Nat) (v : Word) : Parametric.State P :=
  if off = 0x00 then { s with ctrl := v &&& 0xFF }
  else if off = 0x04 then { s with bufOffset := v }
  else if off = 0x08 then { s with bufSize := v }
  else if off = 0x0C then { s with hdrSize := v }
  else if 0x18 ≤ off ∧ off < 0x28 then { s with arg := s.arg.setIfInBounds ((off - 0x18) / 4) v }
  else if off = 0x3C then { s with event := s.event &&& ~~~v }
  else if 0x100 ≤ off ∧ off < 0x110 then { s with pat := packedWrite s.pat ((off - 0x100) / 4) v }
  else if 0x110 ≤ off ∧ off < 0x130 then
    { s with sig := s.sig.setIfInBounds ((off - 0x110) / 4) (v &&& sigMask) }
  else if 0x200 ≤ off ∧ off < 0x300 then { s with lbuf := packedWrite s.lbuf ((off - 0x200) / 4) v }
  else if 0x400 ≤ off ∧ off < 0x800 then
    match s.spslut[(off - 0x400) / 0x100]? with
    | some e => s.setSps ((off - 0x400) / 0x100) (e.regWrite (off % 0x100) v)
    | none => s
  else s

/-- The offset of `CMD` (R25). -/
def cmdOffset : Nat := 0x10

/-- The offset of `CMDB` (R25). -/
def cmdbOffset : Nat := 0x2000

/-- Whether port A has a register at an offset: an aligned word below 0x2000 (R25, R26). -/
def masterMayAccess (off : Nat) : Bool :=
  decide (off % 4 = 0 ∧ off < 0x2000)

/-! ### The consumer's accesses (R26; spec/60_exceptions.md R220) -/

/-- A read on port B: its own registers, the output-ring registers and the descriptor windows; any other
register reads zero (R220). -/
def Parametric.State.portBRead {P : Params} (s : Parametric.State P) (off : Nat) : Word :=
  if off = 0x2000 then s.cmdb
  else if off = 0x2004 then s.statusb
  else if off = 0x2008 then s.resb[0]
  else if off = 0x200C then s.resb[1]
  else if off = 0x2010 then s.resb[2]
  else if off % 4 = 0 ∧ (0xC0 ≤ off ∧ off ≤ 0xFC ∨ 0x1000 ≤ off ∧ off ≤ 0x1BFC) then s.regRead off
  else 0

/-- A write of `CMDB`: the word is stored (R18) and a legal one runs POP on port B; every other word is
illegal (R82). -/
def portBCommand {P : Params} (w : Word) (s : Parametric.State P) : Parametric.State P :=
  match decode .b w with
  | .ok (.pop .b o) => popCommand .b o { s with cmdb := w }
  | .ok _ => Parametric.State.illegal { s with cmdb := w } .b
  | .error _ => Parametric.State.illegal { s with cmdb := w } .b

/-- One access of the consumer (R220): a read returns its value, a write to anything but `CMDB` does nothing. -/
def serveConsumer {P : Params} (a : ConsumerAct) (s : Parametric.State P) : Parametric.State P :=
  match a with
  | .read off => { s with rdataB := s.portBRead off }
  | .write off v => if off = cmdbOffset then portBCommand v s else s

/-- The consumer accesses of one gap, in order. -/
def serveAll {P : Params} (acts : List ConsumerAct) (s : Parametric.State P) : Parametric.State P :=
  acts.foldl (fun s a => serveConsumer a s) s

/-- A gap inside a port A operation in which port B is served (spec/20_memory.md R55, spec/46_control.md
R200): the next batch of the consumer's schedule takes effect (log entry 5). -/
def consumerGap {P : Params} (s : Parametric.State P) : Parametric.State P :=
  match s.consumer with
  | [] => s
  | batch :: rest => serveAll batch { s with consumer := rest }

/-! ### Producer writes between operations, and the reset input -/

/-- A producer write of one byte (spec/20_memory.md R52). -/
def producerWrite {P : Params} (c : Host.Cell) (s : Parametric.State P) : Parametric.State P :=
  { s with input := { s.input with mem := Memory.write s.input.mem c.1 c.2 } }

/-- The reset input (spec/70_reset_and_hazards.md R240): every register and table of R27, fresh unspecified
ring contents; `IMEM`, what the agents do next, and the parameters `OUT_CAP` are not affected. -/
def hardwareReset {P : Params} (s : Parametric.State P) : Parametric.State P :=
  { Parametric.State.reset P with
    ring := s.ring.map (fun r => OutRing.fresh r.cap)
    input := s.input
    consumer := s.consumer
    inbox := s.inbox
    resetCount := s.resetCount + 1 }

end Sys2Proof.Machine
end

