-- ==== Sys2Proof/Machine/Control.lean ====
section
/-! DEFINITION. The control operation SRST (spec/46_control.md). -/

namespace Sys2Proof.Machine

/-- The part of SRST before the rings: the cursor and the resync state (R200). -/
def clearTracking {P : Params} (s : Parametric.State P) : Parametric.State P :=
  { s with
    cur := 0
    curValid := false
    resync := { low := Resync.zero, high := Resync.zero, aud := Resync.zero } }

/-- SRST's update of one ring: indices zero, contents kept (R200). -/
def clearRing {P : Params} (o : StreamId) (s : Parametric.State P) : Parametric.State P :=
  s.setRing o { s.ring.get o with owr := 0, fwr := 0, frd := 0 }

/-- SRST (R200). Each ring is updated atomically with respect to POP, so port B may be served after each
update (R200, spec/70_reset_and_hazards.md R254). -/
def execSrst {P : Params} (s : Parametric.State P) : Host.Outcome (Parametric.State P) Fault Refusal :=
  let s1 := consumerGap (clearRing .low (clearTracking s))
  let s2 := consumerGap (clearRing .high s1)
  let s3 := consumerGap (clearRing .aud s2)
  .next (Parametric.State.finish { s3 with event := 0 } .a .ok)

end Sys2Proof.Machine
end

