-- ==== Sys2Proof/Machine/Demux.lean ====
section
/-! DEFINITION. The demultiplexer operations ROUTE, SEQW, SEQL, POLLS, POLLC (spec/43_demux.md). -/

namespace Sys2Proof.Machine

/-- ROUTE (R131). -/
def execRoute {P : Params} (s : Parametric.State P) : Host.Outcome (Parametric.State P) Fault Refusal :=
  let t := s.argHalf 0
  match route t P with
  | none => .next ((s.raise .misclass).finish .a .misclass)
  | some st =>
    .next (((s.setRes 0 (toWord (natOfStream st))).setRes 1 ((kindBits t P).setWidth 32)).finish .a .ok)

/-- SEQW (R135). -/
def execSeqw {P : Params} (st : StreamId) (s : Parametric.State P) : Host.Outcome (Parametric.State P) Fault Refusal :=
  let (code, d, s1) := seqWindow st (s.argHalf 0) s
  .next ((s1.setRes 0 (toWord d)).finish .a code)

/-- SEQL (R138). -/
def execSeql {P : Params} (st : StreamId) (s : Parametric.State P) : Host.Outcome (Parametric.State P) Fault Refusal :=
  let (lost, s1) := seqLoss st (s.argHalf 0) s
  .next ((s1.setRes 0 (BitVec.ofInt 32 lost)).finish .a .ok)

/-! ### POLLS (R150) -/

/-- The bytes of a header before the start code: `HDR_SIZE`, and for an SPS its prefix (R150). -/
def headerBack (hdrSize : Nat) (k : NalKind) (P : Params := Config.params) : Nat :=
  hdrSize + (if k = .sps then P.spsPrefix else 0)

/-- POLLS once both start codes and the kind are known: header, length check, delivery (R150). -/
def pollsFrame {P : Params} (i1 i2 : Nat) (k : NalKind) (s : Parametric.State P) : Parametric.State P :=
  let g := s.geom
  let h := g.move i1 (-(headerBack s.hdrSize.toNat k P : Int))
  let (hd, inp) := decodeHdr g s.layout h s.input
  let s1 := (((s.setInput inp).setRes 2 hd.length).setRes 3
    (hd.streamType.setWidth 32)).setRes 4 (hd.streamCounter.setWidth 32)
  if ¬ hd.length.toNat < g.dist i1 i2 then
    ((s1.raise .dropLen).setCur i2).finish .a .dropLen
  else
    let (v, s2) := deliver .scan hd (g.move h s.hdrSize.toNat) (decide (k = .sps)) s1
    (s2.setCur i2).finish .a v

/-- POLLS once the first start code is at `i1`: the second start code and the signature (R150, R152). -/
def pollsSecond {P : Params} (i1 wr : Nat) (s : Parametric.State P) : Parametric.State P :=
  let g := s.geom
  let s1 := (s.setCur i1).setRes 0 (toWord i1)
  let s2 := g.move i1 4
  match findWin g s2 (g.dist s2 wr) P.startCode s1.input with
  | (none, inp) => (s1.setInput inp).finish .a .noData
  | (some i2, inp) =>
    let s3 := (s1.setInput inp).setRes 1 (toWord i2)
    let (b0, inp0) := rb g i1 4 s3.input
    let (b1, inp1) := rb g i1 5 inp0
    let s4 := s3.setInput inp1
    match sigLookup b0 b1 s4.sig.toList with
    | none => ((s4.raise .misclass).setCur i2).finish .a .misclass
    | some k => pollsFrame i1 i2 k s4

/-- POLLS with a consistent sample `wr` (R150). -/
def pollsSampled {P : Params} (wr : Nat) (s : Parametric.State P) : Parametric.State P :=
  let g := s.geom
  if s.curValid = false then (s.initCur wr).finish .a .init
  else
    match findWin g s.cur.toNat (g.dist s.cur.toNat wr) P.startCode s.input with
    | (none, inp) => (s.setInput inp).finish .a .noData
    | (some i1, inp) => pollsSecond i1 wr (s.setInput inp)

/-- POLLS (R150). A stale cursor (U6) finishes with `ST_ERR_CFG` and no other effect (DESIGN CHOICE, log entry 6). -/
def execPolls {P : Params} (s : Parametric.State P) : Host.Outcome (Parametric.State P) Fault Refusal :=
  if s.hdrOk = false then .next s.errCfg
  else if s.staleCursor then .next (s.finish .a .errCfg)
  else
    match sampleScan s.geom s.input P with
    | (none, inp) => .next (((s.setInput inp).raise .transient).finish .a .transient)
    | (some wr, inp) => .next (pollsSampled wr (s.setInput inp))

/-! ### POLLC (R160) -/

/-- How a walk ends: aborted after `n` recorded frames, or at `end` with the walk table (R160, R24). -/
inductive Walk where
  | sync (n : Nat)
  | done (tab : List (Nat × Hdr))
deriving DecidableEq, Repr

/-- The walk of R160 from `p` to `stop`, `left` headers before `MAX_WALK` is reached, `tab` recorded so far. -/
def walk (g : Geom) (l : Layout) (hdrSize stop : Nat) :
    Nat → Nat → List (Nat × Hdr) → InputRing → Walk × InputRing
  | 0, p, tab, inp => if p = stop then (.done tab, inp) else (.sync tab.length, inp)
  | left + 1, p, tab, inp =>
    if p = stop then (.done tab, inp)
    else
      let (hd, inp1) := decodeHdr g l p inp
      if g.dist p stop < hdrSize + hd.length.toNat then (.sync tab.length, inp1)
      else walk g l hdrSize stop left (g.move p (hdrSize + hd.length.toNat : Nat)) (tab ++ [(p, hd)]) inp1

/-- The delivery loop of R160: every recorded frame but the last, in order; after each delivery port B may
be served (spec/20_memory.md R55). -/
def deliverBatch {P : Params} (tab : List (Nat × Hdr)) (s : Parametric.State P) : List StatusCode × Parametric.State P :=
  match tab with
  | [] => ([], s)
  | [_] => ([], s)
  | (h, hd) :: f :: fs =>
    let (c, s1) := deliver .chain hd (s.geom.move h s.hdrSize.toNat)
      (decide (hd.streamType &&& P.tSps ≠ 0)) s
    let (cs, s2) := deliverBatch (f :: fs) (consumerGap s1)
    (c :: cs, s2)

/-- The `walk_sync` exit of R160. -/
def walkSync {P : Params} (n stop : Nat) (s : Parametric.State P) : Parametric.State P :=
  (((s.raise .walkSync).setCur stop).setResults5 (toWord n) 0 (toWord stop) 0 0).finish .a .walkSync

/-- The normal exit of R160, with the walk table and the outcomes. -/
def pollcDone {P : Params} (tab : List (Nat × Hdr)) (s : Parametric.State P) : Parametric.State P :=
  let (out, s1) := deliverBatch tab s
  let last := (tab.getLast?.map Prod.fst).getD s.cur.toNat
  ((s1.setCur last).setResults5 (toWord tab.length) (toWord (out.count .ok)) (toWord last) (packLow out)
    (packHigh out)).finish .a .ok

/-- POLLC with a consistent sample `stop` (R160). -/
def pollcSampled {P : Params} (stop : Nat) (s : Parametric.State P) : Parametric.State P :=
  if s.curValid = false then (s.initCur stop).finish .a .init
  else if stop = s.cur.toNat then s.finish .a .empty
  else
    match walk s.geom s.layout s.hdrSize.toNat stop P.maxWalk s.cur.toNat [] s.input with
    | (.sync n, inp) => walkSync n stop (s.setInput inp)
    | (.done tab, inp) => pollcDone tab (s.setInput inp)

/-- POLLC (R160). A stale cursor (U6) finishes with `ST_ERR_CFG` and no other effect (DESIGN CHOICE, log entry 6). -/
def execPollc {P : Params} (s : Parametric.State P) : Host.Outcome (Parametric.State P) Fault Refusal :=
  if s.hdrOk = false then .next s.errCfg
  else if s.staleCursor then .next (s.finish .a .errCfg)
  else
    match sampleChain s.geom s.input P with
    | (none, inp) => .next (((s.setInput inp).raise .transient).finish .a .transient)
    | (some stop, inp) => .next (pollcSampled stop (s.setInput inp))

end Sys2Proof.Machine
end

