-- ==== Sys2Proof/Machine/Locator.lean ====
section
/-! DEFINITION. The Ring Locator operations MOVE, FIND, CMP, COPY (spec/41_ring_locator.md). -/

namespace Sys2Proof.Machine

/-- MOVE (R103). -/
def execMove {P : Params} (s : Parametric.State P) : Host.Outcome (Parametric.State P) Fault Refusal :=
  let g := s.geom
  let a := s.argNat 0
  let d := s.argInt 1
  if s.geomOk = false then .next s.errCfg
  else if ¬(g.isRing a = true ∧ -(g.span : Int) < d ∧ d < g.span) then .next s.errRange
  else .next ((s.setRes 0 (toWord (g.move a d))).finish .a .ok)

/-- The window length `L` of FIND: `len`, or `S + len` for a negative `len` (R105). -/
def findLength (span : Nat) (len : Int) : Nat :=
  (if 0 ≤ len then len else (span : Int) + len).toNat

/-- FIND (R105). -/
def execFind {P : Params} (s : Parametric.State P) : Host.Outcome (Parametric.State P) Fault Refusal :=
  let g := s.geom
  let src := s.argNat 0
  let len := s.argInt 1
  let m := s.argNat 2
  if s.geomOk = false then .next s.errCfg
  else if ¬(g.isRing src = true ∧ (-(g.span : Int) < len ∧ len < g.span) ∧
      (1 ≤ m ∧ m ≤ P.patMax)) then .next s.errRange
  else
    match findWin g src (findLength g.span len) (s.pat.toList.take m) s.input with
    | (none, inp) => .next ((s.setInput inp).finish .a .notFound)
    | (some r, inp) => .next (((s.setInput inp).setRes 0 (toWord r)).finish .a .ok)

/-- The domain of CMP and COPY: a ring address, `n <= LBUF_SIZE` and `n < S` (R107, R109). -/
def bufferDomain (g : Geom) (a n : Nat) (P : Params := Config.params) : Bool :=
  g.isRing a && decide (n ≤ P.lbufSize ∧ n < g.span)

/-- CMP (R107). -/
def execCmp {P : Params} (s : Parametric.State P) : Host.Outcome (Parametric.State P) Fault Refusal :=
  let g := s.geom
  let a := s.argNat 0
  let n := s.argNat 2
  if s.geomOk = false then .next s.errCfg
  else if bufferDomain g a n P = false then .next s.errRange
  else
    let (o, inp) := cmpBytes g a (s.lbuf.toList.take n) 0 s.input
    .next (((s.setInput inp).setRes 0 (orderingWord o)).finish .a .ok)

/-- COPY (R109). -/
def execCopy {P : Params} (s : Parametric.State P) : Host.Outcome (Parametric.State P) Fault Refusal :=
  let g := s.geom
  let a := s.argNat 0
  let n := s.argNat 2
  if s.geomOk = false then .next s.errCfg
  else if bufferDomain g a n P = false then .next s.errRange
  else
    let (bytes, inp) := copyBytes g a n s.input
    .next (Parametric.State.finish { s with input := inp, lbuf := storeBytes s.lbuf 0 bytes } .a .ok)

end Sys2Proof.Machine
end

