-- ==== Sys2Proof/Machine/Emission.lean ====
section
/-! DEFINITION. The emission operation EMIT, through the SPS rewriter (spec/44_sps_emit.md). -/

namespace Sys2Proof.Machine

/-- The results of a push on port A: `RES[0..2]` on success, none on a refusal (spec/44_sps_emit.md R170,
spec/45_output_ring.md R181). -/
def finishStored {P : Params} (r : Except StatusCode Stored × Parametric.State P) : Parametric.State P :=
  match r with
  | (.ok v, s) => (s.setResults3 .a v.size v.off v.slot).finish .a .ok
  | (.error c, s) => s.finish .a c

/-- EMIT (R170). -/
def execEmit {P : Params} (st : StreamId) (s : Parametric.State P) : Host.Outcome (Parametric.State P) Fault Refusal :=
  let g := s.geom
  let a := s.argNat 0
  let n := s.argNat 1
  if s.geomOk = false then .next s.errCfg
  else if ¬(g.isRing a = true ∧ n < g.span) then .next s.errRange
  else .next (finishStored (emit st a n s.arg[2] (bit s.arg[3] 0) s))

end Sys2Proof.Machine
end

