-- ==== Sys2Proof/Machine/OutputRing.lean ====
section
/-! DEFINITION. The output-ring operations PUSH and POP (spec/45_output_ring.md). -/

namespace Sys2Proof.Machine

/-- PUSH (R181). -/
def execPush {P : Params} (o : StreamId) (s : Parametric.State P) : Host.Outcome (Parametric.State P) Fault Refusal :=
  let n := s.argNat 1
  if P.lbufSize < n then .next s.errRange
  else .next (finishStored (push o (s.lbuf.toList.take n) s.arg[2] s))

/-- POP on the port it was issued on (R185). -/
def execPop {P : Params} (p : Port) (o : StreamId) (s : Parametric.State P) : Host.Outcome (Parametric.State P) Fault Refusal :=
  .next (popCommand p o s)

end Sys2Proof.Machine
end

