-- ==== Sys2Proof/Machine/Dispatch.lean ====
section
/-! DEFINITION. Dispatch: one arm per operation of spec/opcode_table.json. -/

namespace Sys2Proof.Machine

def exec (i : Instr) (s : State) : Host.Outcome State Fault Refusal :=
  match i with
  | .move => Sys2Proof.Machine.execMove s
  | .find => Sys2Proof.Machine.execFind s
  | .cmp => Sys2Proof.Machine.execCmp s
  | .copy => Sys2Proof.Machine.execCopy s
  | .hdec => Sys2Proof.Machine.execHdec s
  | .route => Sys2Proof.Machine.execRoute s
  | .seqw st => Sys2Proof.Machine.execSeqw st s
  | .seql st => Sys2Proof.Machine.execSeql st s
  | .polls => Sys2Proof.Machine.execPolls s
  | .pollc => Sys2Proof.Machine.execPollc s
  | .emit st => Sys2Proof.Machine.execEmit st s
  | .push o => Sys2Proof.Machine.execPush o s
  | .pop p o => Sys2Proof.Machine.execPop p o s
  | .srst => Sys2Proof.Machine.execSrst s

end Sys2Proof.Machine
end

