-- ==== Sys2Proof/Machine/Step.lean ====
section
/-! DEFINITION. One step: the next access of an agent (spec/60_exceptions.md R221). The block fetches nothing (spec/10_state.md R12): a command word written to `CMD` or `CMDB` is decoded and run at once (R18, spec/46_control.md R201). -/

namespace Sys2Proof.Machine

/-- What the operations do on a machine with parameters `P`. -/
abbrev Meaning (P : Params) := Instr → Parametric.State P → Host.Outcome (Parametric.State P) Fault Refusal

/-! ### With any parameters, given what the operations do -/

/-- Run a command word written to a port: a legal one is executed, an illegal one finishes with
`ST_ILLEGAL` (spec/30_encoding.md R82). -/
def runCommandWith {P : Params} (run : Meaning P) (p : Port) (w : Word) (s : Parametric.State P) :
    Host.Outcome (Parametric.State P) Fault Refusal :=
  match decode p w with
  | .ok i => run i s
  | .error _ => .next (s.illegal p)

/-- A write by the master (R26): `CMD` stores the word and starts its operation (R18). -/
def masterWriteWith {P : Params} (run : Meaning P) (off : Nat) (v : Word) (s : Parametric.State P) :
    Host.Outcome (Parametric.State P) Fault Refusal :=
  if masterMayAccess off = false then .fault (.registerAccess off)
  else if off = cmdOffset then runCommandWith run .a v { s with cmd := v }
  else .next (s.regWrite off v)

/-- A read by the master (R26). -/
def masterRead {P : Params} (off : Nat) (s : Parametric.State P) : Host.Outcome (Parametric.State P) Fault Refusal :=
  if masterMayAccess off = false then .fault (.registerAccess off)
  else .next { s with rdataA := s.regRead off }

/-- An access of the consumer (R220): `CMDB` stores the word and starts its operation (R18). -/
def consumerAccessWith {P : Params} (run : Meaning P) (a : ConsumerAct) (s : Parametric.State P) :
    Host.Outcome (Parametric.State P) Fault Refusal :=
  match a with
  | .read off => .next { s with rdataB := s.portBRead off }
  | .write off v => if off = cmdbOffset then runCommandWith run .b v { s with cmdb := v } else .next s

/-- What one agent does. -/
def performWith {P : Params} (run : Meaning P) (a : HostAct) (s : Parametric.State P) : Host.Outcome (Parametric.State P) Fault Refusal :=
  match a with
  | .masterRead off => masterRead off s
  | .masterWrite off v => masterWriteWith run off v s
  | .consumer c => consumerAccessWith run c s
  | .produce c => .next (producerWrite c s)
  | .resetInput => .next (hardwareReset s)

/-- One step. With nothing queued the block does nothing (spec/70_reset_and_hazards.md R240). -/
def stepWith {P : Params} (run : Meaning P) (s : Parametric.State P) : Host.Outcome (Parametric.State P) Fault Refusal :=
  match s.inbox with
  | [] => .next s
  | a :: rest => performWith run a { s with inbox := rest }

/-! ### The machine of this row: the default parameters, its operations run by `exec` -/

/-- Run a command word written to a port. -/
def runCommand (p : Port) (w : Word) (s : State) : Host.Outcome State Fault Refusal := runCommandWith exec p w s

/-- A write by the master. -/
def masterWrite (off : Nat) (v : Word) (s : State) : Host.Outcome State Fault Refusal := masterWriteWith exec off v s

/-- An access of the consumer. -/
def consumerAccess (a : ConsumerAct) (s : State) : Host.Outcome State Fault Refusal := consumerAccessWith exec a s

/-- One step. -/
def step (s : State) : Host.Outcome State Fault Refusal := stepWith exec s

/-- The same state with the master about to write this word to `CMD`, so that the next step runs it (log
entry 4). A command word has 32 bits. -/
def State.withFetchWord (s : State) (nbits w : Nat) : State :=
  { s with inbox := .masterWrite 0x10 (BitVec.ofNat 32 (w % 2 ^ nbits)) :: s.inbox }

end Sys2Proof.Machine
end

