-- ==== Sys2Proof/Safety.lean ====
section
/-! DEFINITION. The terms the claims use: what a read returns under the producer's schedule, what the ring holds now, and the invariant of the machine. -/

namespace Sys2Proof.Machine

/-! ### The producer's schedule (spec/20_memory.md R52) -/

/-- The input ring after `n` single-byte reads: the batches before those reads have landed. -/
def InputRing.advance (inp : InputRing) (n : Nat) : InputRing :=
  { mem := produce (inp.pending.take n).flatten inp.mem, pending := inp.pending.drop n }

/-- What the `n`-th read from now (`n` ≥ 1) returns if it is a read of address `a`. -/
def InputRing.readAt (inp : InputRing) (n a : Nat) : Byte :=
  imemByte (inp.advance n).mem a

/-- The producer writes nothing while operations run. -/
def Parametric.State.quiet {P : Params} (s : State P) : Prop := s.input.pending = []

/-- What the next `n` reads return if they are those of the ring bytes from `a` on, in ring order
(spec/20_memory.md R48). -/
def Parametric.State.bytesRead {P : Params} (s : State P) (a n : Nat) : List Byte :=
  (List.range n).map (fun k => s.input.readAt (k + 1) (s.geom.wrap (a + k)))

/-! ### What the ring holds now -/

/-- The ring byte `k` places after ring address `a`, as `IMEM` stands (R101). -/
def Parametric.State.ringByte {P : Params} (s : State P) (a k : Nat) : Byte :=
  imemByte s.input.mem (s.geom.wrap (a + k))

/-- The ring holds these bytes from ring address `a` on (wrapping at the physical end). -/
def Parametric.State.holds {P : Params} (s : State P) (a : Nat) (bytes : List Byte) : Prop :=
  ∀ k, ∀ h : k < bytes.length, s.ringByte a k = bytes[k]

/-- The pattern occurs `k` places after `src` inside the window of `len` bytes, and nowhere before (R105). -/
def Parametric.State.firstMatch {P : Params} (s : State P) (src len : Nat) (pat : List Byte) (k : Nat) : Prop :=
  k + pat.length ≤ len ∧ s.holds (src + k) pat ∧ ∀ j, j < k → ¬ s.holds (src + j) pat

/-- The pattern occurs nowhere in the window (R105). -/
def Parametric.State.noMatch {P : Params} (s : State P) (src len : Nat) (pat : List Byte) : Prop :=
  ∀ k, k + pat.length ≤ len → ¬ s.holds (src + k) pat

/-- The `n`-byte little-endian field at offset `o` of the header at `h`, as `IMEM` stands (R122). -/
def Parametric.State.fieldNow {P : Params} (s : State P) (h o n : Nat) : Nat :=
  leBytes ((List.range n).map (fun k => s.ringByte h (o + k)))

/-- The header at `h` in the selected layout, as `IMEM` stands (R71, R72, R122). -/
def Parametric.State.headerNow {P : Params} (s : State P) (h : Nat) : Hdr :=
  { length := BitVec.ofNat 32 (s.fieldNow h 0 4)
    sequenceCounter := BitVec.ofNat 32 (s.fieldNow h 4 4)
    captureTime := BitVec.ofNat 32 (s.fieldNow h s.layout.timeOff 4)
    streamType := BitVec.ofNat 16 (s.fieldNow h s.layout.typeOff 2)
    streamCounter := BitVec.ofNat 16 (s.fieldNow h s.layout.counterOff 2) }

/-- A field of the input-ring header, as `IMEM` stands (spec/30_encoding.md R70). -/
def Parametric.State.irhNow {P : Params} (s : State P) (off : Nat) : Nat :=
  leBytes ((List.range 4).map (fun k => imemByte s.input.mem (off + k)))

/-- The frames of the ring chain from `p` up to `q`, on the way to `stop`: each recorded header is at its
place, its length does not pass `stop`, and the next follows it (spec/20_memory.md R43, spec/43_demux.md R160). -/
def Parametric.State.chainNow {P : Params} (s : State P) (stop : Nat) : Nat → List (Nat × Hdr) → Nat → Prop
  | p, [], q => p = q
  | p, (h, hd) :: rest, q =>
    p ≠ stop ∧ h = p ∧ hd = s.headerNow p ∧
    s.hdrSize.toNat + hd.length.toNat ≤ s.geom.dist p stop ∧
    s.chainNow stop (s.geom.move p (s.hdrSize.toNat + hd.length.toNat : Nat)) rest q

/-- The bytes of `encode_hdr(H, layout)` (spec/42_header_codec.md R123), `hdrSize` of them. -/
def encodeHdr (l : Layout) (hd : Hdr) (hdrSize : Nat) : List Byte :=
  let le := fun (v n : Nat) => (List.range n).map (fun k => BitVec.ofNat 8 (v / 256 ^ k))
  let fields := le hd.length.toNat 4 ++ le hd.sequenceCounter.toNat 4 ++
    (match l with | .padded => [0, 0, 0, 0] | .compact => []) ++
    le hd.captureTime.toNat 4 ++ le hd.streamType.toNat 2 ++ le hd.streamCounter.toNat 2
  fields ++ List.replicate (hdrSize - fields.length) 0

/-- The two memories hold the same bytes wherever the block may read: the payload region and the three
header fields (spec/20_memory.md R44, spec/30_encoding.md R70). -/
def agreeWhereRead (g : Geom) (m1 m2 : Memory Byte) : Prop :=
  ∀ a, (g.off ≤ a ∧ a < g.size) ∨ (4 ≤ a ∧ a < 8) ∨ (12 ≤ a ∧ a < 20) → imemByte m1 a = imemByte m2 a

/-! ### The SPS rewrite table (spec/10_state.md R23, spec/44_sps_emit.md R172) -/

/-- A usable entry for an SPS of `n` bytes: `VALID` is 1, `MLEN` and `RLEN` are 1 to 64, `MLEN` is `n`. -/
abbrev SpsEntry.ofLength {P : Params} (e : SpsEntry P) (n : Nat) : Prop :=
  e.valid = true ∧ (1 ≤ e.mlen.toNat ∧ e.mlen.toNat ≤ 64) ∧ (1 ≤ e.rlen.toNat ∧ e.rlen.toNat ≤ 64) ∧
  e.mlen.toNat = n

/-- Entry `e` is the first of the table that is usable, of the length of `bytes`, and has these bytes. -/
def Parametric.State.firstSps {P : Params} (s : State P) (bytes : List Byte) (e : SpsEntry P) : Prop :=
  let fits := fun e : SpsEntry P => e.ofLength bytes.length ∧ e.pattern.toList.take bytes.length = bytes
  ∃ before after, s.spslut.toList = before ++ e :: after ∧ (∀ b ∈ before, ¬ fits b) ∧ fits e

/-- How many bytes the lookup of an SPS of `n` bytes reads: none without a usable entry of its length. -/
def Parametric.State.spsReads {P : Params} (s : State P) (n : Nat) : Nat :=
  if ∃ e ∈ s.spslut.toList, e.ofLength n then n else 0

/-! ### What a push leaves in a ring -/

/-- Ring `r'` is ring `r` with one frame stored (spec/45_output_ring.md R180): the frame's bytes at
`(OWR + k) mod OUT_CAP`, every other byte as before, its descriptor in slot `FWR`, every other slot as
before, both write cursors advanced, the read index untouched. -/
structure OutRing.StoredFrame (r : OutRing) (bytes : List Byte) (sq : Word) (r' : OutRing) : Prop where
  cap : r'.cap = r.cap
  owr : r'.owr = BitVec.ofNat 32 ((r.owr.toNat + bytes.length) % r.cap.toNat)
  fwr : r'.fwr = BitVec.ofNat 32 ((r.fwr.toNat + 1) % 42)
  frd : r'.frd = r.frd
  slot : Memory.read r'.desc r.fwr.toNat =
    some { off := r.owr, seq := sq, size := BitVec.ofNat 32 bytes.length }
  otherSlots : ∀ j, j ≠ r.fwr.toNat → Memory.read r'.desc j = Memory.read r.desc j
  stored : ∀ k, ∀ h : k < bytes.length,
    Memory.read r'.omem ((r.owr.toNat + k) % r.cap.toNat) = some bytes[k]
  otherBytes : ∀ a, (∀ k, k < bytes.length → a ≠ (r.owr.toNat + k) % r.cap.toNat) →
    Memory.read r'.omem a = Memory.read r.omem a

/-- Frames pushed one after another into a ring. -/
def OutRing.storeAll (r : OutRing) (frames : List (List Byte × Word)) : OutRing :=
  frames.foldl (fun r f => r.store f.1 f.2) r

/-! ### Runs of the sequence operations -/

/-- SEQW on stream `st` for each counter in turn, the master writing `ARG[0]` before each. -/
def seqwAll (st : StreamId) (cs : List Word) (s : State) : State :=
  cs.foldl (fun s c =>
    match exec (.seqw st) { s with arg := s.arg.set 0 c } with
    | .next t => t
    | .fault _ => s
    | .refused _ => s) s

/-- A counter operand violates the window of a baseline (spec/43_demux.md R134): its forward distance mod
65536 is not 1 to 20. -/
def violates (last : Half) (c : Word) : Prop :=
  ¬(1 ≤ (c.setWidth 16 - last).toNat ∧ (c.setWidth 16 - last).toNat ≤ 20)

/-! ### Illegal command words -/

/-- The clauses of R82 (spec/30_encoding.md), on the bits of the word. -/
def IllegalWord (p : Port) (w : Word) : Prop :=
  w.extractLsb' 10 22 ≠ 0 ∨
  w.extractLsb' 0 8 ∉ ([0x01, 0x02, 0x03, 0x04, 0x08, 0x10, 0x11, 0x12, 0x13, 0x14, 0x18, 0x20, 0x21,
    0x3F] : List Byte) ∨
  (w.extractLsb' 0 8 ∈ ([0x01, 0x02, 0x03, 0x04, 0x08, 0x10, 0x13, 0x14, 0x3F] : List Byte) ∧
    w.extractLsb' 8 2 ≠ 0) ∨
  (w.extractLsb' 0 8 ∈ ([0x11, 0x12, 0x18, 0x20, 0x21] : List Byte) ∧ w.extractLsb' 8 2 = 3) ∨
  (p = .b ∧ w.extractLsb' 0 8 ≠ 0x21)

/-! ### The invariant of the machine -/

/-- What holds of an output ring in every run (spec/45_output_ring.md R180, R184, R186): indices in range,
canonical stores within their bounds, every listed descriptor inside the ring with all its bytes written,
and every unread slot listed. -/
structure OutRing.Inv (r : OutRing) : Prop where
  capPos : 0 < r.cap.toNat
  owrLt : r.owr.toNat < r.cap.toNat
  fwrLt : r.fwr.toNat < 42
  frdLt : r.frd.toNat < 42
  omemWf : Memory.wf r.omem
  omemIn : ∀ c ∈ r.omem, c.1 < r.cap.toNat
  descWf : Memory.wf r.desc
  descIn : ∀ e ∈ r.desc, e.1 < 42
  descBounds : ∀ e ∈ r.desc, e.2.off.toNat < r.cap.toNat ∧ 0 < e.2.size.toNat ∧ e.2.size.toNat < r.cap.toNat
  descWritten : ∀ e ∈ r.desc, ∀ k, k < e.2.size.toNat →
    (Memory.read r.omem ((e.2.off.toNat + k) % r.cap.toNat)).isSome = true
  unreadListed : ∀ k, k < (r.fwr.toNat + 42 - r.frd.toNat) % 42 →
    (Memory.read r.desc ((r.frd.toNat + k) % 42)).isSome = true

/-- What holds of the machine in every run: reserved bits read zero (spec/10_state.md R13, R14, R15, R22),
status registers hold codes of R83, memories are in canonical form, and the rings keep `OutRing.Inv`. -/
structure Parametric.State.Inv {P : Params} (s : State P) : Prop where
  ctrlReserved : s.ctrl.toNat < 256
  eventReserved : s.event.toNat < 4096
  statusCode : ∃ c : StatusCode, s.status = c.word
  statusbCode : ∃ c : StatusCode, s.statusb = c.word
  sigReserved : ∀ e ∈ s.sig.toList, e &&& ~~~sigMask = 0
  imemWf : Memory.wf s.input.mem
  rings : ∀ o, (s.ring.get o).Inv

/-- The accesses the register map gives the agents: every master access is an aligned word below 0x2000
(R25, R26). -/
def HostAct.mapped : HostAct → Bool
  | .masterRead off => masterMayAccess off
  | .masterWrite off _ => masterMayAccess off
  | .consumer _ => true
  | .produce _ => true
  | .resetInput => true

/-- A state from which every queued access has a register: no step of such a run stops. -/
def Parametric.State.Safe {P : Params} (s : State P) : Prop := ∀ a ∈ s.inbox, a.mapped = true

end Sys2Proof.Machine
end

