-- ==== Sys2Proof/Certificates/Slice0/Obligations.lean ====
section
/-! DEFINITION. The statements about the model. Each docstring names the rule it formalises. -/

open Sys2Proof Sys2Proof.Machine

/-! ### Command words -/

/-- Every operation's word decodes to it on its port (spec/30_encoding.md R78, R80). -/
def Obligations.DecodeOfEncodeIsTheOperation : Prop :=
  ∀ i : Instr, decode i.port (encode i) = .ok i

/-- Decode and encode agree on every operation and every word of either port: a word decodes to an operation
exactly when the operation is one the port may issue and the word is its encoding, so no bit is dropped
(R78, R80, R82). -/
def Obligations.DecodeAndEncodeAgree : Prop :=
  ∀ (p : Port) (w : Word) (i : Instr), decode p w = .ok i ↔ (i.wellFormed p = true ∧ encode i = w)

/-- R82: exactly the words its clauses name are illegal, and one sets `EV_ILLEGAL`, reports `ST_ILLEGAL` on
its port and does nothing else. -/
def Obligations.IllegalWordOnlyFlagsIllegal : Prop :=
  ∀ (p : Port) (w : Word) (s : State),
    (IllegalWord p w → runCommand p w s = .next
      (match p with
       | .a => { s with event := s.event ||| 0x800, status := 0x12 }
       | .b => { s with event := s.event ||| 0x800, statusb := 0x12 })) ∧
    (¬ IllegalWord p w → ∃ i, decode p w = .ok i ∧ runCommand p w s = exec i s)

/-- A few words written out from R78 and R80. -/
def Obligations.SampleWordsDecode : Prop :=
  decode .a 0x00000001 = .ok .move ∧ decode .a 0x00000008 = .ok .hdec ∧
  decode .a 0x00000111 = .ok (.seqw .high) ∧ decode .a 0x00000014 = .ok .pollc ∧
  decode .a 0x00000218 = .ok (.emit .aud) ∧ decode .b 0x00000121 = .ok (.pop .b .high) ∧
  decode .a 0x0000003F = .ok .srst

/-- A step takes the next access and performs it in the state with the rest of the inbox: a register access of the
master or the consumer, a producer's write of one byte of `IMEM` (spec/60_exceptions.md R221, spec/20_memory.md R52);
with nothing queued it changes nothing. A command word written to `CMD` or `CMDB` is stored and its operation runs
at once (spec/10_state.md R18, spec/46_control.md R201). How accesses queue up is the model's choice (log entry 4). -/
def Obligations.StepRunsTheDecodedCommand : Prop :=
  ∀ s : State,
    (s.inbox = [] → step s = .next s) ∧
    ∀ rest : List HostAct,
      (∀ off, s.inbox = .masterRead off :: rest → step s = masterRead off { s with inbox := rest }) ∧
      (∀ off v, s.inbox = .masterWrite off v :: rest → step s = masterWrite off v { s with inbox := rest }) ∧
      (∀ a, s.inbox = .consumer a :: rest → step s = consumerAccess a { s with inbox := rest }) ∧
      (∀ (a : Nat) (v : Byte), s.inbox = .produce (a, v) :: rest →
        ∃ m, step s = .next { s with inbox := rest, input := { s.input with mem := m } } ∧
          ∀ b, imemByte m b = if b = a then v else imemByte s.input.mem b) ∧
      ∀ (w : Word) (i : Instr),
        (s.inbox = .masterWrite 0x10 w :: rest → decode .a w = .ok i →
          step s = exec i { s with inbox := rest, cmd := w }) ∧
        (s.inbox = .consumer (.write 0x2000 w) :: rest → decode .b w = .ok i →
          step s = exec i { s with inbox := rest, cmdb := w })

/-! ### Ring addresses (spec/41_ring_locator.md) -/

/-- R100, R101 and R102 on a legal geometry. -/
def Obligations.WrapAndDistanceLaws : Prop :=
  ∀ g : Geom, g.ok = true →
    (∀ x, g.off ≤ x → x < g.size + g.span →
      g.isRing (g.wrap x) = true ∧ g.wrap x = g.off + (x - g.off) % g.span) ∧
    (∀ a b, g.isRing a = true → g.isRing b = true →
      (g.dist a b : Int) = ((b : Int) - a) % g.span ∧ g.dist a b < g.span ∧ g.dist a a = 0 ∧
      g.wrap (a + g.dist a b) = b)

/-- The five laws of R104. -/
def Obligations.MoveLaws : Prop :=
  ∀ g : Geom, g.ok = true → ∀ a, g.isRing a = true → ∀ d : Int, -(g.span : Int) < d → d < g.span →
    g.isRing (g.move a d) = true ∧
    (g.move a d : Int) = g.off + (((a : Int) - g.off + d) % g.span) ∧
    g.move (g.move a d) (-d) = a ∧
    (0 ≤ d → g.move a d = g.wrap (a + d.toNat) ∧ g.dist a (g.move a d) = d.toNat) ∧
    (∀ d1 d2 : Int, d = d1 + d2 → -(g.span : Int) < d1 → d1 < g.span → -(g.span : Int) < d2 → d2 < g.span →
      g.move a d = g.move (g.move a d1) d2)

/-- MOVE, with both refusals (R103). -/
def Obligations.MoveResult : Prop :=
  ∀ s : State,
    let off : Int := s.bufOffset.toNat
    let span : Int := s.geom.span
    let a : Int := s.arg[0].toNat
    let d : Int := s.arg[1].toInt
    (s.geomOk = false →
      exec .move s = .next { s with event := s.event ||| 0x400, status := 0x11 }) ∧
    (s.geomOk = true → ¬(off ≤ a ∧ a < s.bufSize.toNat ∧ -span < d ∧ d < span) →
      exec .move s = .next { s with event := s.event ||| 0x200, status := 0x10 }) ∧
    (s.geomOk = true → off ≤ a → a < s.bufSize.toNat → -span < d → d < span →
      exec .move s = .next
        { s with res := s.res.set 0 (BitVec.ofInt 32 (off + (a - off + d) % span)), status := 0 })

/-- FIND over a ring nobody writes meanwhile: the address of the lowest match in the window, or
`ST_NOTFOUND` (R105, R106). -/
def Obligations.FindReturnsTheFirstMatch : Prop :=
  ∀ s : State, s.quiet → s.geomOk = true → s.geom.isRing s.arg[0].toNat = true →
    ∀ len : Int, len = s.arg[1].toInt → -(s.geom.span : Int) < len → len < s.geom.span →
    1 ≤ s.arg[2].toNat → s.arg[2].toNat ≤ 16 →
    ∀ window : Nat, (window : Int) = (if 0 ≤ len then len else (s.geom.span : Int) + len) →
    ∀ pat : List Byte, pat = s.pat.toList.take s.arg[2].toNat →
    (∀ k, s.firstMatch s.arg[0].toNat window pat k →
      exec .find s = .next
        { s with res := s.res.set 0 (BitVec.ofNat 32 (s.geom.wrap (s.arg[0].toNat + k))), status := 0 }) ∧
    (s.noMatch s.arg[0].toNat window pat → exec .find s = .next { s with status := 1 })

/-- FIND under any producer (R105, spec/20_memory.md R52): the positions of the window are tried in order,
`start k` being the number of reads before position `k`. A position that misses is read up to its first
differing byte. Either every position missed and FIND reports `ST_NOTFOUND`, or the first that did not is
reported and its `m` bytes were the last reads. That reading stops at a mismatch is the model's choice (log
entry 13). -/
def Obligations.FindUnderAnyProducer : Prop :=
  ∀ s : State, s.geomOk = true → s.geom.isRing s.arg[0].toNat = true →
    ∀ len : Int, len = s.arg[1].toInt → -(s.geom.span : Int) < len → len < s.geom.span →
    ∀ m : Nat, m = s.arg[2].toNat → 1 ≤ m → m ≤ 16 →
    ∀ window : Nat, (window : Int) = (if 0 ≤ len then len else (s.geom.span : Int) + len) →
    ∃ start : Nat → Nat, start 0 = 0 ∧
      let equal := fun k j =>
        s.pat[j]? = some (s.input.readAt (start k + (j + 1)) (s.geom.wrap (s.arg[0].toNat + (k + j))))
      let misses := fun k => ∃ j, j < m ∧ start (k + 1) = start k + (j + 1) ∧ (∀ i, i < j → equal k i) ∧ ¬ equal k j
      (((∀ k, k + m ≤ window → misses k) ∧
          exec .find s = .next { s with input := s.input.advance (start (window + 1 - m)), status := 1 }) ∨
        ∃ k, k + m ≤ window ∧ (∀ i, i < k → misses i) ∧ (∀ j, j < m → equal k j) ∧
          exec .find s = .next
            { s with
              input := s.input.advance (start k + m)
              res := s.res.set 0 (BitVec.ofNat 32 (s.geom.wrap (s.arg[0].toNat + k)))
              status := 0 })

/-- CMP under any producer: the first position whose byte differed decides, bytes unsigned; equal if none
differed (R107). That reading stops at the first difference is the model's choice (log
entry 13). -/
def Obligations.CmpFirstDifferenceDecides : Prop :=
  ∀ s : State, s.geomOk = true → s.geom.isRing s.arg[0].toNat = true →
    s.arg[2].toNat ≤ 256 → s.arg[2].toNat < s.geom.span →
    let byteRead := fun j => s.input.readAt (j + 1) (s.geom.wrap (s.arg[0].toNat + j))
    ((∀ j, j < s.arg[2].toNat → s.lbuf[j]? = some (byteRead j)) →
      exec .cmp s = .next
        { s with input := s.input.advance s.arg[2].toNat, res := s.res.set 0 0, status := 0 }) ∧
    (∀ i l, i < s.arg[2].toNat → (∀ j, j < i → s.lbuf[j]? = some (byteRead j)) → s.lbuf[i]? = some l →
      (l.toNat < (byteRead i).toNat →
        exec .cmp s = .next
          { s with input := s.input.advance (i + 1), res := s.res.set 0 0xFFFFFFFF, status := 0 }) ∧
      ((byteRead i).toNat < l.toNat →
        exec .cmp s = .next
          { s with input := s.input.advance (i + 1), res := s.res.set 0 1, status := 0 }))

/-- COPY under any producer: byte `j` of `LBUF` is what the `j`-th read returned, the rest of `LBUF` is
unchanged (R109). -/
def Obligations.CopyFillsTheLocalBuffer : Prop :=
  ∀ s : State, s.geomOk = true → s.geom.isRing s.arg[0].toNat = true →
    s.arg[2].toNat ≤ 256 → s.arg[2].toNat < s.geom.span →
    ∃ buf : Vector Byte 256,
      exec .copy s = .next { s with input := s.input.advance s.arg[2].toNat, lbuf := buf, status := 0 } ∧
      ∀ j, buf[j]? =
        if j < s.arg[2].toNat
        then some (s.input.readAt (j + 1) (s.geom.wrap (s.arg[0].toNat + j)))
        else s.lbuf[j]?

/-! ### Frame headers (spec/42_header_codec.md) -/

/-- Which layout is selected (R121, R73), and the bounds of `geom_ok` and `hdr_ok` (spec/10_state.md R17). -/
def Obligations.LayoutSelection : Prop :=
  ∀ s : State,
    let geomBounds := 20 ≤ s.bufOffset.toNat ∧ s.bufOffset.toNat < s.bufSize.toNat ∧ s.bufSize.toNat ≤ 2 ^ 31 ∧
      2 ≤ s.bufSize.toNat - s.bufOffset.toNat
    (s.ctrl.extractLsb' 4 2 = 2 → s.layout = .padded) ∧
    (s.ctrl.extractLsb' 4 2 = 1 → s.layout = .compact) ∧
    (s.ctrl.extractLsb' 4 2 = 0 → s.hdrSize = 22 → s.layout = .padded) ∧
    (s.ctrl.extractLsb' 4 2 = 0 → s.hdrSize ≠ 22 → s.layout = .compact) ∧
    (s.geomOk = true ↔ geomBounds) ∧
    (s.hdrOk = true ↔
      geomBounds ∧ s.ctrl.extractLsb' 4 2 ≠ 3 ∧
      (match s.layout with | .padded => 22 | .compact => 16) ≤ s.hdrSize.toNat ∧
      s.hdrSize.toNat + 6 < s.bufSize.toNat - s.bufOffset.toNat)

/-- HDEC under any producer (R122): 16 reads in ascending offset order; each field is little-endian at the
offset its layout gives (spec/30_encoding.md R71, R72). That the other header
bytes are not read is the model's choice (log entry 13). -/
def Obligations.HdecDecodesTheFields : Prop :=
  ∀ s : State, s.hdrOk = true → s.geom.isRing s.arg[0].toNat = true →
    let byte := fun n o => (s.input.readAt n (s.geom.wrap (s.arg[0].toNat + o))).toNat
    let u32 := fun n o => byte n o + 256 * byte (n + 1) (o + 1) + 65536 * byte (n + 2) (o + 2) +
      16777216 * byte (n + 3) (o + 3)
    let u16 := fun n o => byte n o + 256 * byte (n + 1) (o + 1)
    (s.layout = .padded →
      exec .hdec s = .next
        { s with
          input := s.input.advance 16
          res := #v[BitVec.ofNat 32 (u32 1 0), BitVec.ofNat 32 (u32 5 4), BitVec.ofNat 32 (u32 9 12),
            BitVec.ofNat 32 (u16 13 16), BitVec.ofNat 32 (u16 15 18)]
          status := 0 }) ∧
    (s.layout = .compact →
      exec .hdec s = .next
        { s with
          input := s.input.advance 16
          res := #v[BitVec.ofNat 32 (u32 1 0), BitVec.ofNat 32 (u32 5 4), BitVec.ofNat 32 (u32 9 8),
            BitVec.ofNat 32 (u16 13 12), BitVec.ofNat 32 (u16 15 14)]
          status := 0 })

/-- R123: a header placed in the ring in the selected layout, at any ring address, is decoded to itself. -/
def Obligations.HeaderRoundTrip : Prop :=
  ∀ (s : State) (hd : Hdr), s.quiet → s.hdrOk = true → s.geom.isRing s.arg[0].toNat = true →
    s.holds s.arg[0].toNat (encodeHdr s.layout hd s.hdrSize.toNat) →
    exec .hdec s = .next
      { s with
        res := #v[hd.length, hd.sequenceCounter, hd.captureTime, hd.streamType.setWidth 32,
          hd.streamCounter.setWidth 32]
        status := 0 }

/-! ### Refused operands and configurations (spec/60_exceptions.md R212, R213) -/

/-- R212: the operand domains; an operand outside changes the status and `EV_ERR_RANGE` only. -/
def Obligations.OperandOutsideDomain : Prop :=
  ∀ s : State,
    let refusal : State := { s with event := s.event ||| 0x200, status := 0x10 }
    let notRing : Prop := ¬(s.bufOffset.toNat ≤ s.arg[0].toNat ∧ s.arg[0].toNat < s.bufSize.toNat)
    let span : Nat := s.bufSize.toNat - s.bufOffset.toNat
    (s.geomOk = true →
      (notRing ∨ ¬(-(span : Int) < s.arg[1].toInt ∧ s.arg[1].toInt < span) → exec .move s = .next refusal) ∧
      (notRing ∨ ¬(-(span : Int) < s.arg[1].toInt ∧ s.arg[1].toInt < span) ∨
        ¬(1 ≤ s.arg[2].toNat ∧ s.arg[2].toNat ≤ 16) → exec .find s = .next refusal) ∧
      (notRing ∨ 256 < s.arg[2].toNat ∨ span ≤ s.arg[2].toNat →
        exec .cmp s = .next refusal ∧ exec .copy s = .next refusal) ∧
      (notRing ∨ span ≤ s.arg[1].toNat → ∀ st, exec (.emit st) s = .next refusal)) ∧
    (s.hdrOk = true → notRing → exec .hdec s = .next refusal) ∧
    (256 < s.arg[1].toNat → ∀ o, exec (.push o) s = .next refusal)

/-- R213: a bad geometry or header size changes the status and `EV_ERR_CFG` only, before any other check;
ROUTE, SEQW, SEQL, PUSH, POP and SRST do the same whatever the geometry registers hold and never report
`ST_ERR_CFG`. -/
def Obligations.BadConfigurationIsReportedFirst : Prop :=
  ∀ s : State,
    let refusal : State := { s with event := s.event ||| 0x400, status := 0x11 }
    (s.geomOk = false →
      exec .move s = .next refusal ∧ exec .find s = .next refusal ∧ exec .cmp s = .next refusal ∧
      exec .copy s = .next refusal ∧ ∀ st, exec (.emit st) s = .next refusal) ∧
    (s.hdrOk = false →
      exec .hdec s = .next refusal ∧ exec .polls s = .next refusal ∧ exec .pollc s = .next refusal) ∧
    ∀ (t : State) (x y z : Word) (i : Instr),
      (i = .route ∨ i = .srst ∨ (∃ st, i = .seqw st ∨ i = .seql st ∨ i = .push st) ∨ ∃ p st, i = .pop p st) →
      exec i s = .next t →
      exec i { s with bufOffset := x, bufSize := y, hdrSize := z } =
        .next { t with bufOffset := x, bufSize := y, hdrSize := z } ∧
      (i.port = .a → t.status ≠ 0x11) ∧ (i.port = .b → t.statusb ≠ 0x11)

/-! ### Classification and sequence tracking (spec/43_demux.md) -/

/-- ROUTE (R131): LOW, HIGH, AUD in this order by the route bits of `ARG[0][15:0]`. -/
def Obligations.RouteByTypeBits : Prop :=
  ∀ s : State,
    let found := fun n : Word =>
      exec .route s = .next { s with res := (s.res.set 0 n).set 1 (s.arg[0] &&& 0xF), status := 0 }
    (s.arg[0].getLsbD 11 = true → found 0) ∧
    (s.arg[0].getLsbD 11 = false → s.arg[0].getLsbD 10 = true → found 1) ∧
    (s.arg[0].getLsbD 11 = false → s.arg[0].getLsbD 10 = false → s.arg[0].getLsbD 8 = true → found 2) ∧
    (s.arg[0].getLsbD 11 = false → s.arg[0].getLsbD 10 = false → s.arg[0].getLsbD 8 = false →
      exec .route s = .next { s with event := s.event ||| 0x20, status := 9 })

/-- SEQW (R134, R135): baseline, acceptance in the window 1 to 20, suppression, resync after more than 40
violations. -/
def Obligations.SeqwWindowPolicy : Prop :=
  ∀ (s : State) (st : StreamId) (r : Resync), r = s.resync.get st →
    let c : Half := s.arg[0].setWidth 16
    let d : Nat := (c - r.lastValid).toNat
    (r.lvSet = false →
      exec (.seqw st) s = .next
        { s with
          resync := s.resync.set st { r with lastValid := c, lvSet := true, invRun := 0 }
          res := s.res.set 0 0
          status := 0 }) ∧
    (r.lvSet = true → 1 ≤ d → d ≤ 20 →
      exec (.seqw st) s = .next
        { s with
          resync := s.resync.set st { r with lastValid := c, invRun := 0 }
          res := s.res.set 0 (BitVec.ofNat 32 d)
          status := 0 }) ∧
    (r.lvSet = true → ¬(1 ≤ d ∧ d ≤ 20) → (r.invRun + 1).toNat ≤ 40 →
      exec (.seqw st) s = .next
        { s with
          resync := s.resync.set st { r with invRun := r.invRun + 1 }
          res := s.res.set 0 (BitVec.ofNat 32 d)
          event := s.event ||| 0x4
          status := 6 }) ∧
    (r.lvSet = true → ¬(1 ≤ d ∧ d ≤ 20) → 40 < (r.invRun + 1).toNat →
      exec (.seqw st) s = .next
        { s with
          resync := s.resync.set st
            { r with lastValid := c, invRun := 0, syncLost := r.syncLost + 1 }
          res := s.res.set 0 (BitVec.ofNat 32 d)
          event := s.event ||| 0xC
          status := 7 })

/-- R136: exactly 40 consecutive violations are suppressed without moving the baseline; the 41st resyncs
it once; an accepted counter anywhere restarts the count. -/
def Obligations.SyncLossThreshold : Prop :=
  ∀ (s : State) (st : StreamId) (r : Resync), r = s.resync.get st → r.lvSet = true → r.invRun = 0 →
    (∀ cs : List Word, cs.length = 40 → (∀ c ∈ cs, violates r.lastValid c) →
      (∀ k, 0 < k → k ≤ 40 → (seqwAll st (cs.take k) s).status = 6) ∧
      (seqwAll st cs s).resync.get st = { r with invRun := 40 } ∧
      ∀ c41, violates r.lastValid c41 →
        (seqwAll st (cs ++ [c41]) s).status = 7 ∧
        (seqwAll st (cs ++ [c41]) s).resync.get st =
          { r with lastValid := c41.setWidth 16, invRun := 0, syncLost := r.syncLost + 1 }) ∧
    (∀ (cs : List Word) (c : Word), ¬ violates ((seqwAll st cs s).resync.get st).lastValid c →
      (seqwAll st (cs ++ [c]) s).status = 0 ∧
      ((seqwAll st (cs ++ [c]) s).resync.get st).invRun = 0)

/-- SEQL (R137, R138): always delivered, the loss counted when positive, the baseline always moved. -/
def Obligations.SeqlLossPolicy : Prop :=
  ∀ (s : State) (st : StreamId) (r : Resync), r = s.resync.get st →
    let c : Half := s.arg[0].setWidth 16
    let lost : Int := (65536 + (c.toNat : Int) - r.lastValid.toNat) % 65536 - 1
    (r.lvSet = false →
      exec (.seql st) s = .next
        { s with
          resync := s.resync.set st { r with lastValid := c, lvSet := true }
          res := s.res.set 0 0
          status := 0 }) ∧
    (r.lvSet = true → 0 < lost →
      exec (.seql st) s = .next
        { s with
          resync := s.resync.set st { r with lastValid := c, lost := r.lost + BitVec.ofInt 32 lost }
          res := s.res.set 0 (BitVec.ofInt 32 lost)
          event := s.event ||| 0x100
          status := 0 }) ∧
    (r.lvSet = true → lost ≤ 0 →
      exec (.seql st) s = .next
        { s with
          resync := s.resync.set st { r with lastValid := c }
          res := s.res.set 0 (BitVec.ofInt 32 lost)
          status := 0 })

/-! ### Delivery (R142) -/

/-- `deliver` under any producer: its outcome and its whole effect at each of its checks, in the order route,
enable (spec/43_demux.md R130, R132), sequence, SPS prefix, empty frame, rewriter, capacity (R142,
spec/60_exceptions.md R217), and when it stores the frame. `s1` is the state after the sequence check; `n` and
`a` are the length and the place of what is left of the frame after the trim of an SPS. That the rewriter reads
a frame once is the model's choice (log entry 13). -/
def Obligations.DeliveryOrder : Prop :=
  ∀ (v : Variant) (hd : Hdr) (pay : Nat) (sps : Bool) (s s1 : State) (st : StreamId) (code : StatusCode),
    let t := hd.streamType
    let target : Option StreamId :=
      if t.getLsbD 11 then some .low else if t.getLsbD 10 then some .high else if t.getLsbD 8 then some .aud else none
    let enable := s.ctrl.getLsbD (match st with | .low => 1 | .high => 2 | .aud => 3)
    let n := if sps then hd.length.toNat - 6 else hd.length.toNat
    let a := if sps then s1.geom.move pay 6 else pay
    let cap := (s1.ring.get st).cap.toNat
    (target = none → deliver v hd pay sps s = (.misclass, { s with event := s.event ||| 0x20 })) ∧
    (target = some st → enable = false → deliver v hd pay sps s = (.skipped, s)) ∧
    (target = some st → enable = true → seqCheck v st hd.streamCounter s = (code, s1) →
      (code ≠ .ok → deliver v hd pay sps s = (code, s1)) ∧
      (code = .ok → sps = true → hd.length.toNat < 6 →
        deliver v hd pay sps s = (.dropLen, { s1 with event := s1.event ||| 0x2 })) ∧
      (code = .ok → (sps = true → 6 ≤ hd.length.toNat) → n = 0 →
        deliver v hd pay sps s = (.dropLen, { s1 with event := s1.event ||| 0x2 })) ∧
      (code = .ok → 0 < n → sps = false ∨ s.ctrl.getLsbD 0 = false →
        (cap ≤ n → deliver v hd pay sps s =
          (.tooBig, { s1 with input := s1.input.advance n, event := s1.event ||| 0x80 })) ∧
        (n < cap → ∃ r', (s1.ring.get st).StoredFrame (s1.bytesRead a n) hd.sequenceCounter r' ∧
          deliver v hd pay sps s =
            (.ok, { s1 with input := s1.input.advance n, ring := s1.ring.set st r' }))) ∧
      (code = .ok → 0 < n → sps = true → s.ctrl.getLsbD 0 = true →
        ((∀ e, ¬ s1.firstSps (s1.bytesRead a n) e) → deliver v hd pay sps s =
          (.spsUnknown, { s1 with input := s1.input.advance (s1.spsReads n), event := s1.event ||| 0x40 })) ∧
        ∀ e, s1.firstSps (s1.bytesRead a n) e →
          (cap ≤ e.rlen.toNat → deliver v hd pay sps s =
            (.tooBig, { s1 with input := s1.input.advance n, event := s1.event ||| 0x80 })) ∧
          (e.rlen.toNat < cap →
            ∃ r', (s1.ring.get st).StoredFrame (e.repl.toList.take e.rlen.toNat) hd.sequenceCounter r' ∧
            deliver v hd pay sps s =
              (.ok, { s1 with input := s1.input.advance n, ring := s1.ring.set st r' }))))

/-- Which policy a poll uses (R140). -/
def Obligations.PolicySelection : Prop :=
  ∀ (s : State) (st : StreamId) (c : Half),
    (s.ctrl.getLsbD 6 = false →
      seqCheck .scan st c s = ((seqWindow st c s).1, (seqWindow st c s).2.2)) ∧
    (s.ctrl.getLsbD 6 = true → seqCheck .scan st c s = (.ok, (seqLoss st c s).2)) ∧
    (s.ctrl.getLsbD 7 = false → seqCheck .chain st c s = (.ok, (seqLoss st c s).2)) ∧
    (s.ctrl.getLsbD 7 = true →
      seqCheck .chain st c s = ((seqWindow st c s).1, (seqWindow st c s).2.2))

/-! ### POLLS (R150) -/

/-- The start of POLLS under any producer: the commit offset is the first four reads; out of range is
transient; the first poll only places the cursor (R146, R150, spec/70_reset_and_hazards.md R243). -/
def Obligations.PollsSamplesTheCommitOffset : Prop :=
  ∀ s : State, s.hdrOk = true → (s.curValid = true → s.geom.isRing s.cur.toNat = true) →
    ∀ commit : Nat,
    commit = leBytes [s.input.readAt 1 16, s.input.readAt 2 17, s.input.readAt 3 18, s.input.readAt 4 19] →
    (s.geom.span ≤ commit →
      exec .polls s = .next
        { s with input := s.input.advance 4, event := s.event ||| 0x1, status := 3 }) ∧
    (commit < s.geom.span → s.curValid = false →
      exec .polls s = .next
        { s with
          input := s.input.advance 4
          cur := BitVec.ofNat 32 (s.bufOffset.toNat + commit)
          curValid := true
          status := 5 })

/-- POLLS without two start codes in the committed range (R150): nothing moves without the first; the
first alone moves `CUR` to it. -/
def Obligations.PollsWithoutTwoStartCodes : Prop :=
  ∀ s : State, s.quiet → s.hdrOk = true → s.curValid = true → s.geom.isRing s.cur.toNat = true →
    ∀ wr : Nat, s.irhNow 16 < s.geom.span → wr = s.bufOffset.toNat + s.irhNow 16 →
    (s.noMatch s.cur.toNat (s.geom.dist s.cur.toNat wr) [0, 0, 0, 1] →
      exec .polls s = .next { s with status := 4 }) ∧
    (∀ k1 i1, s.firstMatch s.cur.toNat (s.geom.dist s.cur.toNat wr) [0, 0, 0, 1] k1 →
      i1 = s.geom.wrap (s.cur.toNat + k1) →
      s.noMatch (s.geom.move i1 4) (s.geom.dist (s.geom.move i1 4) wr) [0, 0, 0, 1] →
      exec .polls s = .next
        { s with
          cur := BitVec.ofNat 32 i1
          res := s.res.set 0 (BitVec.ofNat 32 i1)
          status := 4 })

/-- `sig_lookup` (R152, spec/10_state.md R22): the kind of the first entry of the table that matches the two
bytes, by one byte or by two as its `LEN` says; entries with another `LEN` or with `KIND` 5 to 7 never match;
none if no entry does. -/
def Obligations.SignatureLookup : Prop :=
  ∀ (s : State) (b0 b1 : Byte),
    let hits := fun e : Word => (e.extractLsb' 20 3).toNat ≤ 4 ∧
      ((e.extractLsb' 16 2 = 1 ∧ e.extractLsb' 0 8 = b0) ∨
        (e.extractLsb' 16 2 = 2 ∧ e.extractLsb' 0 8 = b0 ∧ e.extractLsb' 8 8 = b1))
    (∀ (i : Nat) (e : Word), s.sig[i]? = some e → hits e →
      (∀ (j : Nat) (f : Word), j < i → s.sig[j]? = some f → ¬ hits f) →
      sigLookup b0 b1 s.sig.toList =
        [NalKind.slice, NalKind.idr, NalKind.sps, NalKind.pps, NalKind.vps][(e.extractLsb' 20 3).toNat]?) ∧
    ((∀ (i : Nat) (e : Word), s.sig[i]? = some e → ¬ hits e) → sigLookup b0 b1 s.sig.toList = none)

/-- POLLS with both start codes `i1` and `i2` (R150, R152): an unknown signature and a length that does not
fit drop the frame, otherwise the frame is delivered, and `CUR` moves to `i2` in every case. -/
def Obligations.PollsHandlesOneFrame : Prop :=
  ∀ s : State, s.quiet → s.hdrOk = true → s.curValid = true → s.geom.isRing s.cur.toNat = true →
    ∀ wr k1 k2 i1 i2 : Nat, s.irhNow 16 < s.geom.span → wr = s.bufOffset.toNat + s.irhNow 16 →
    s.firstMatch s.cur.toNat (s.geom.dist s.cur.toNat wr) [0, 0, 0, 1] k1 →
    i1 = s.geom.wrap (s.cur.toNat + k1) →
    s.firstMatch (s.geom.move i1 4) (s.geom.dist (s.geom.move i1 4) wr) [0, 0, 0, 1] k2 →
    i2 = s.geom.wrap (s.geom.move i1 4 + k2) →
    (sigLookup (s.ringByte i1 4) (s.ringByte i1 5) s.sig.toList = none →
      exec .polls s = .next
        { s with
          cur := BitVec.ofNat 32 i2
          res := (s.res.set 0 (BitVec.ofNat 32 i1)).set 1 (BitVec.ofNat 32 i2)
          event := s.event ||| 0x20
          status := 9 }) ∧
    (∀ kind h hd, sigLookup (s.ringByte i1 4) (s.ringByte i1 5) s.sig.toList = some kind →
      h = s.geom.move i1 (-((s.hdrSize.toNat + if kind = .sps then 6 else 0 : Nat) : Int)) →
      hd = s.headerNow h →
      let res : Vector Word 5 := #v[BitVec.ofNat 32 i1, BitVec.ofNat 32 i2, hd.length,
        hd.streamType.setWidth 32, hd.streamCounter.setWidth 32]
      (s.geom.dist i1 i2 ≤ hd.length.toNat →
        exec .polls s = .next
          { s with
            cur := BitVec.ofNat 32 i2
            res := res
            event := s.event ||| 0x2
            status := 8 }) ∧
      (hd.length.toNat < s.geom.dist i1 i2 →
        ∀ code t, deliver .scan hd (s.geom.move h s.hdrSize.toNat) (decide (kind = .sps))
            { s with cur := BitVec.ofNat 32 i1, res := res } = (code, t) →
          exec .polls s = .next
            { t with cur := BitVec.ofNat 32 i2, status := code.code.setWidth 32 }))

/-! ### POLLC (R160) -/

/-- The start of POLLC under any producer: offset, length and echo are the first twelve reads; an echo that
disagrees or an offset out of range is transient; the first poll only places the cursor; no new commit is
empty (R145, R160). -/
def Obligations.PollcSamplesTheCommitFields : Prop :=
  ∀ s : State, s.hdrOk = true → (s.curValid = true → s.geom.isRing s.cur.toNat = true) →
    ∀ commit echo : Nat,
    commit = leBytes [s.input.readAt 1 16, s.input.readAt 2 17, s.input.readAt 3 18, s.input.readAt 4 19] →
    echo = leBytes [s.input.readAt 9 12, s.input.readAt 10 13, s.input.readAt 11 14, s.input.readAt 12 15] →
    (commit ≠ echo ∨ s.geom.span ≤ commit →
      exec .pollc s = .next
        { s with input := s.input.advance 12, event := s.event ||| 0x1, status := 3 }) ∧
    (commit = echo → commit < s.geom.span → s.curValid = false →
      exec .pollc s = .next
        { s with
          input := s.input.advance 12
          cur := BitVec.ofNat 32 (s.bufOffset.toNat + commit)
          curValid := true
          status := 5 }) ∧
    (commit = echo → commit < s.geom.span → s.curValid = true → s.cur.toNat = s.bufOffset.toNat + commit →
      exec .pollc s = .next { s with input := s.input.advance 12, status := 2 })

/-- A walk that does not end at the commit point within 10 frames, or meets a length that would pass it,
discards the batch and moves `CUR` to the commit point (R160, R162). -/
def Obligations.PollcDiscardsABadBatch : Prop :=
  ∀ s : State, s.quiet → s.hdrOk = true → s.curValid = true → s.geom.isRing s.cur.toNat = true →
    s.irhNow 16 = s.irhNow 12 → s.irhNow 16 < s.geom.span →
    ∀ (stop q : Nat) (tab : List (Nat × Hdr)), stop = s.bufOffset.toNat + s.irhNow 16 →
    s.cur.toNat ≠ stop → s.chainNow stop s.cur.toNat tab q → q ≠ stop →
    (tab.length = 10 ∨
      (tab.length < 10 ∧ s.geom.dist q stop < s.hdrSize.toNat + (s.headerNow q).length.toNat)) →
    exec .pollc s = .next
      { s with
        cur := BitVec.ofNat 32 stop
        res := #v[BitVec.ofNat 32 tab.length, 0, BitVec.ofNat 32 stop, 0, 0]
        event := s.event ||| 0x10
        status := 0xB }

/-- A walk that ends at the commit point delivers every frame but the last and moves `CUR` to the last
(R160, R163). `deliverBatch` is the delivery loop, of which the other statements speak. -/
def Obligations.PollcDeliversAllButTheLast : Prop :=
  ∀ s : State, s.quiet → s.hdrOk = true → s.curValid = true → s.geom.isRing s.cur.toNat = true →
    s.irhNow 16 = s.irhNow 12 → s.irhNow 16 < s.geom.span →
    ∀ (stop last : Nat) (hd : Hdr) (fs : List (Nat × Hdr)), stop = s.bufOffset.toNat + s.irhNow 16 →
    s.chainNow stop s.cur.toNat (fs ++ [(last, hd)]) stop → fs.length ≤ 9 →
    ∀ out t, deliverBatch (fs ++ [(last, hd)]) s = (out, t) →
    exec .pollc s = .next
      { t with
        cur := BitVec.ofNat 32 last
        res := #v[BitVec.ofNat 32 (fs.length + 1), BitVec.ofNat 32 (out.count .ok), BitVec.ofNat 32 last,
          packLow out, packHigh out]
        status := 0 }

/-- The delivery loop of POLLC (R160, R163): the last frame plays no part; with one frame nothing happens;
otherwise the first is delivered, port B is served, and the loop goes on. Where port B is
served is how the model reads R55 (log entry 5). -/
def Obligations.DeliveryLoopLeavesTheLastFrame : Prop :=
  (∀ (fs : List (Nat × Hdr)) (x y : Nat × Hdr) (s : State),
    deliverBatch (fs ++ [x]) s = deliverBatch (fs ++ [y]) s ∧
    (deliverBatch (fs ++ [x]) s).1.length = fs.length) ∧
  (∀ (x : Nat × Hdr) (s : State), deliverBatch [x] s = ([], s)) ∧
  (∀ (f : Nat × Hdr) (fs : List (Nat × Hdr)) (s s1 : State) (c : StatusCode), fs ≠ [] →
    deliver .chain f.2 (s.geom.move f.1 s.hdrSize.toNat) (f.2.streamType.getLsbD 1) s = (c, s1) →
    deliverBatch (f :: fs) s =
      (c :: (deliverBatch fs (consumerGap s1)).1, (deliverBatch fs (consumerGap s1)).2))

/-- R161: whatever the input ring holds and however the producer changes it, the walk decodes headers at at most 10
places, the first at the start, each a ring address, 16 reads each, and goes on to the next only where the length
does not pass `stop`. A completed walk recorded all of them, each shorter than the span; an aborted one all but a
last whose length passes `stop`, or 10. That a header takes 16 reads, its other bytes not being read, is the model's
choice (log entry 13). -/
def Obligations.WalkIsBounded : Prop :=
  ∀ (g : Geom) (l : Layout) (hdrSize stop p : Nat) (inp : InputRing),
    g.ok = true → g.isRing stop = true → g.isRing p = true → 0 < hdrSize →
    ∃ places : List Nat,
      let header := fun (i q : Nat) => (decodeHdr g l q (inp.advance (16 * i))).1
      let whole := fun (i q : Nat) => hdrSize + (header i q).length.toNat
      places.length ≤ 10 ∧ (walk g l hdrSize stop 10 p [] inp).2 = inp.advance (16 * places.length) ∧
      (∀ q, places[0]? = some q → q = p) ∧
      (∀ i q, places[i]? = some q → g.isRing q = true ∧ q ≠ stop ∧
        ∀ q', places[i + 1]? = some q' → whole i q ≤ g.dist q stop ∧ q' = g.move q (whole i q)) ∧
      match (walk g l hdrSize stop 10 p [] inp).1 with
      | .sync n => n ≤ 10 ∧ ((n = 10 ∧ places.length = 10 ∧ ∀ q, places[9]? = some q → whole 9 q ≤ g.dist q stop) ∨
          (places.length = n + 1 ∧ ∀ q, places[n]? = some q → g.dist q stop < whole n q))
      | .done tab => (p ≠ stop → tab ≠ []) ∧ tab.length = places.length ∧
          ∀ i q, places[i]? = some q → tab[i]? = some (q, header i q) ∧ whole i q < g.span

/-- R85: nibble `i` of `RES[3]` is the code of frame `i`, frame 8 is in `RES[4][3:0]`, unused nibbles are 0.
-/
def Obligations.OutcomeNibbles : Prop :=
  ∀ out : List StatusCode, out.length ≤ 9 →
    (∀ i, i < 8 → (packLow out).toNat / 16 ^ i % 16 =
      match out[i]? with
      | some c => c.code.toNat % 16
      | none => 0) ∧
    (packHigh out).toNat =
      match out[8]? with
      | some c => c.code.toNat % 16
      | none => 0

/-! ### EMIT (spec/44_sps_emit.md) -/

/-- EMIT of a frame the rewriter does not touch, under any producer: the bytes read go to the ring as one
frame (R170, R171). -/
def Obligations.EmitCopiesTheFrame : Prop :=
  ∀ (s : State) (st : StreamId), s.geomOk = true → s.geom.isRing s.arg[0].toNat = true →
    0 < s.arg[1].toNat → s.arg[1].toNat < s.geom.span →
    s.arg[1].toNat < (s.ring.get st).cap.toNat →
    (s.arg[3].getLsbD 0 = false ∨ s.ctrl.getLsbD 0 = false) →
    ∃ r', (s.ring.get st).StoredFrame
        ((List.range s.arg[1].toNat).map
          (fun k => s.input.readAt (k + 1) (s.geom.wrap (s.arg[0].toNat + k)))) s.arg[2] r' ∧
      exec (.emit st) s = .next
        { s with
          input := s.input.advance s.arg[1].toNat
          ring := s.ring.set st r'
          res := ((s.res.set 0 s.arg[1]).set 1 (s.ring.get st).owr).set 2 (s.ring.get st).fwr
          status := 0 }

/-- EMIT of an SPS with the rewriter on, under any producer (R171, R172): the first table entry that is usable,
of the frame's length, and equal to the bytes read is substituted and judged by its own length; without one the
frame is refused. That the frame is read once is the model's choice (log entry 13). -/
def Obligations.EmitRewritesAKnownSps : Prop :=
  ∀ (s : State) (st : StreamId), s.geomOk = true → s.geom.isRing s.arg[0].toNat = true →
    0 < s.arg[1].toNat → s.arg[1].toNat < s.geom.span →
    s.arg[3].getLsbD 0 = true → s.ctrl.getLsbD 0 = true →
    let bytes := s.bytesRead s.arg[0].toNat s.arg[1].toNat
    (∀ e, s.firstSps bytes e →
      (e.rlen.toNat < (s.ring.get st).cap.toNat →
        ∃ r', (s.ring.get st).StoredFrame (e.repl.toList.take e.rlen.toNat) s.arg[2] r' ∧
          exec (.emit st) s = .next
            { s with
              input := s.input.advance s.arg[1].toNat
              ring := s.ring.set st r'
              res := ((s.res.set 0 (e.rlen.setWidth 32)).set 1 (s.ring.get st).owr).set 2 (s.ring.get st).fwr
              status := 0 }) ∧
      ((s.ring.get st).cap.toNat ≤ e.rlen.toNat →
        exec (.emit st) s = .next
          { s with input := s.input.advance s.arg[1].toNat, event := s.event ||| 0x80, status := 0xD })) ∧
    ((∀ e, ¬ s.firstSps bytes e) →
      exec (.emit st) s = .next
        { s with
          input := s.input.advance (s.spsReads s.arg[1].toNat)
          event := s.event ||| 0x40
          status := 0xA })

/-! ### PUSH and POP (spec/45_output_ring.md) -/

/-- PUSH of a frame that fits (R180, R181): its bytes, its descriptor and the cursors, and nothing else. -/
def Obligations.PushStoresTheFrame : Prop :=
  ∀ (s : State) (o : StreamId), 0 < s.arg[1].toNat → s.arg[1].toNat ≤ 256 →
    s.arg[1].toNat < (s.ring.get o).cap.toNat →
    ∃ r', (s.ring.get o).StoredFrame (s.lbuf.toList.take s.arg[1].toNat) s.arg[2] r' ∧
      exec (.push o) s = .next
        { s with
          ring := s.ring.set o r'
          res := ((s.res.set 0 s.arg[1]).set 1 (s.ring.get o).owr).set 2 (s.ring.get o).fwr
          status := 0 }

/-- An empty frame and a frame as large as the ring are refused (R180): status and one event, by PUSH and
by EMIT. -/
def Obligations.EmptyAndOversizedFramesAreRefused : Prop :=
  ∀ (s : State) (o : StreamId),
    (s.arg[1] = 0 → exec (.push o) s = .next { s with event := s.event ||| 0x2, status := 8 }) ∧
    (s.arg[1] = 0 → s.geomOk = true → s.geom.isRing s.arg[0].toNat = true →
      exec (.emit o) s = .next { s with event := s.event ||| 0x2, status := 8 }) ∧
    (0 < s.arg[1].toNat → s.arg[1].toNat ≤ 256 → (s.ring.get o).cap.toNat ≤ s.arg[1].toNat →
      exec (.push o) s = .next { s with event := s.event ||| 0x80, status := 0xD }) ∧
    (0 < s.arg[1].toNat → s.arg[1].toNat < s.geom.span → (s.ring.get o).cap.toNat ≤ s.arg[1].toNat →
      s.geomOk = true → s.geom.isRing s.arg[0].toNat = true →
      s.arg[3].getLsbD 0 = false ∨ s.ctrl.getLsbD 0 = false →
      exec (.emit o) s = .next
        { s with input := s.input.advance s.arg[1].toNat, event := s.event ||| 0x80, status := 0xD })

/-- POP on either port (R184, R185): the oldest unread descriptor and its bytes, results on the issuing
port only; an empty queue changes the status only. The fields that hold the channels are the model's
choice (log entry 8). -/
def Obligations.PopReturnsTheOldestUnreadFrame : Prop :=
  ∀ (s : State) (o : StreamId) (r : OutRing), r = s.ring.get o →
    (r.frd = r.fwr →
      exec (.pop .a o) s = .next { s with status := 2 } ∧
      exec (.pop .b o) s = .next { s with statusb := 2 }) ∧
    (r.frd ≠ r.fwr → ∀ d, d = s.descAt o r.frd.toNat →
      let data := (List.range d.size.toNat).map
        (fun k => s.omemByte o ((d.off.toNat + k) % r.cap.toNat))
      let ring := s.ring.set o { r with frd := BitVec.ofNat 32 ((r.frd.toNat + 1) % 42) }
      exec (.pop .a o) s = .next
        { s with
          ring := ring
          res := ((s.res.set 0 d.size).set 1 d.seq).set 2 d.off
          dataOutA := data
          status := 0 } ∧
      exec (.pop .b o) s = .next
        { s with
          ring := ring
          resb := #v[d.size, d.seq, d.off]
          dataOutB := data
          statusb := 0 })

/-- A frame pushed into an empty queue is what the next POP returns, bytes, counter and size (R180, R184,
spec/20_memory.md R55). The field that holds the channel is the model's choice (log entry 8). -/
def Obligations.PushedFrameIsPoppedIntact : Prop :=
  ∀ (s t : State) (o : StreamId), 0 < s.arg[1].toNat → s.arg[1].toNat ≤ 256 →
    s.arg[1].toNat < (s.ring.get o).cap.toNat →
    (s.ring.get o).frd = (s.ring.get o).fwr → (s.ring.get o).fwr.toNat < 42 →
    exec (.push o) s = .next t →
    ∃ u, exec (.pop .b o) t = .next u ∧ u.statusb = 0 ∧
      u.dataOutB = s.lbuf.toList.take s.arg[1].toNat ∧
      u.resb = #v[s.arg[1], s.arg[2], (s.ring.get o).owr] ∧
      (u.ring.get o).frd = (u.ring.get o).fwr

/-- R187: after `N` pushes without a pop the table holds the newest `min(N, 42)` descriptors, each in its
slot; the write index has advanced by `N` mod 42 and the read index not at all (R182). -/
def Obligations.NewestDescriptorsAreKept : Prop :=
  ∀ (r : OutRing) (frames : List (List Byte × Word)), r.fwr.toNat < 42 → r.owr.toNat < r.cap.toNat →
    (∀ f ∈ frames, 0 < f.1.length ∧ f.1.length < r.cap.toNat) →
    (r.storeAll frames).fwr.toNat = (r.fwr.toNat + frames.length) % 42 ∧
    (r.storeAll frames).frd = r.frd ∧
    ∀ i, ∀ h : i < frames.length, frames.length ≤ i + 42 →
      Memory.read (r.storeAll frames).desc ((r.fwr.toNat + i) % 42) =
        some
          { off := BitVec.ofNat 32
              ((r.owr.toNat + ((frames.take i).map (fun f => f.1.length)).sum) % r.cap.toNat)
            seq := frames[i].2
            size := BitVec.ofNat 32 frames[i].1.length }

/-! ### SRST (spec/46_control.md R200) -/

/-- SRST with no consumer in the way (R200): what it zeroes and everything it keeps. That a consumer may
act meanwhile is how the model reads R200 (log entry 5). -/
def Obligations.SrstClearsCursorTrackingAndQueues : Prop :=
  ∀ s : State, s.consumer = [] →
    exec .srst s = .next
      { s with
        cur := 0
        curValid := false
        resync :=
          { low := { lastValid := 0, lvSet := false, invRun := 0, lost := 0, syncLost := 0 }
            high := { lastValid := 0, lvSet := false, invRun := 0, lost := 0, syncLost := 0 }
            aud := { lastValid := 0, lvSet := false, invRun := 0, lost := 0, syncLost := 0 } }
        ring :=
          { low := { s.ring.low with owr := 0, fwr := 0, frd := 0 }
            high := { s.ring.high with owr := 0, fwr := 0, frd := 0 }
            aud := { s.ring.aud with owr := 0, fwr := 0, frd := 0 } }
        event := 0
        status := 0 }

/-- SRST with a consumer acting between its ring updates (R200, spec/70_reset_and_hazards.md R254): every
queue is empty afterwards and the ring contents are kept, whatever the consumer did. Where it may act is how
the model reads the rules (log entry 5). -/
def Obligations.SrstEmptiesQueuesUnderAnyConsumer : Prop :=
  ∀ s t : State, exec .srst s = .next t →
    t.cur = 0 ∧ t.curValid = false ∧ t.event = 0 ∧ t.status = 0 ∧ t.res = s.res ∧ t.ctrl = s.ctrl ∧
    ∀ o, t.ring.get o = { s.ring.get o with owr := 0, fwr := 0, frd := 0 } ∧
      t.resync.get o = { lastValid := 0, lvSet := false, invRun := 0, lost := 0, syncLost := 0 }

/-! ### Rules of the whole machine -/

/-- R210, R13: every operation finishes with an outcome code of R83 on its own port, and with no consumer
acting meanwhile leaves the other port's registers alone. Where a consumer may act is how the model reads
R55 (log entry 5). -/
def Obligations.EveryOperationFinishes : Prop :=
  ∀ (i : Instr) (s : State), ∃ t c, exec i s = .next t ∧
    (match i.port with
     | .a => t.status = StatusCode.word c ∧
         (s.consumer = [] → t.statusb = s.statusb ∧ t.resb = s.resb ∧ t.dataOutB = s.dataOutB)
     | .b => t.statusb = StatusCode.word c ∧ t.status = s.status ∧ t.res = s.res ∧ t.dataOutA = s.dataOutA)

/-- R11, R16, R21, R22, R23: no operation writes an operand, configuration or table register; `LBUF` is
written by COPY alone. -/
def Obligations.OperationsKeepOperandsAndConfiguration : Prop :=
  ∀ (i : Instr) (s t : State), exec i s = .next t →
    t.arg = s.arg ∧ t.ctrl = s.ctrl ∧ t.bufOffset = s.bufOffset ∧ t.bufSize = s.bufSize ∧
    t.hdrSize = s.hdrSize ∧ t.cmd = s.cmd ∧ t.pat = s.pat ∧ t.sig = s.sig ∧ t.spslut = s.spslut ∧
    t.inbox = s.inbox ∧ t.resetCount = s.resetCount ∧ (i ≠ .copy → t.lbuf = s.lbuf) ∧
    ∀ o, (t.ring.get o).cap = (s.ring.get o).cap

/-- R12: only POLLS, POLLC and SRST write `CUR` and `CUR_VALID`. -/
def Obligations.OnlyPollsAndSrstWriteTheCursor : Prop :=
  ∀ (i : Instr) (s t : State), i ≠ .polls → i ≠ .pollc → i ≠ .srst → exec i s = .next t →
    t.cur = s.cur ∧ t.curValid = s.curValid

/-- R12: while the master leaves the geometry alone, a valid cursor stays a ring address. -/
def Obligations.ValidCursorStaysARingAddress : Prop :=
  ∀ (i : Instr) (s t : State), (s.curValid = true → s.geom.isRing s.cur.toNat = true) →
    exec i s = .next t → t.curValid = true → t.geom.isRing t.cur.toNat = true

/-- R14: no operation but SRST clears an event bit. -/
def Obligations.EventBitsAreSticky : Prop :=
  ∀ (i : Instr) (s t : State), i ≠ .srst → exec i s = .next t → s.event &&& t.event = s.event

/-- R19: only SEQW, SEQL, POLLS, POLLC and SRST write the resync state, and SEQW and SEQL that of their
own stream only. -/
def Obligations.ResyncStateOwnership : Prop :=
  ∀ (i : Instr) (s t : State), exec i s = .next t →
    (i ≠ .polls → i ≠ .pollc → i ≠ .srst → (∀ st, i ≠ .seqw st ∧ i ≠ .seql st) → t.resync = s.resync) ∧
    (∀ st o, (i = .seqw st ∨ i = .seql st) → o ≠ st → t.resync.get o = s.resync.get o)

/-- R20: with no consumer acting meanwhile, only POP and SRST move a read index, and POP changes nothing
else of a ring. Where a consumer may act is how the model reads R55 (log entry 5). -/
def Obligations.ReadIndexOwnership : Prop :=
  ∀ (i : Instr) (s t : State), exec i s = .next t → s.consumer = [] →
    (i ≠ .srst → (∀ p o, i ≠ .pop p o) → ∀ o, (t.ring.get o).frd = (s.ring.get o).frd) ∧
    (∀ p q, i = .pop p q → ∀ o,
      t.ring.get o = { s.ring.get o with frd := (t.ring.get o).frd } ∧
      (o ≠ q → t.ring.get o = s.ring.get o))

/-- R40: the block never writes `IMEM`: after any operation it holds what the producer's scheduled writes
have left, and the schedule has only moved on. R52: a producer's write sets its byte and no other; a read returns the
latest value the producer wrote to its address, now or among the batches that land before it, else the initial
content. The schedule of batches is how the model reads R52 (log entry 1), and the initial content is a free value
(log entry 2). -/
def Obligations.InputRingIsNeverWritten : Prop :=
  (∀ (i : Instr) (s t : State), exec i s = .next t → ∃ n, t.input = s.input.advance n) ∧
  (∀ (m : Memory Byte) (a b : Nat) (v : Byte),
    imemByte (Memory.write m a v) b = if b = a then v else imemByte m b) ∧
  (∀ a, imemByte [] a = Config.imemInitial a) ∧
  (∀ (a : Nat) (inp : InputRing), iread a inp = (inp.readAt 1 a, inp.advance 1)) ∧
  (∀ (inp : InputRing) (n a : Nat),
    inp.readAt n a =
      match ((inp.pending.take n).flatten.filter (fun c => c.1 = a)).getLast? with
      | some c => c.2
      | none => imemByte inp.mem a) ∧
  ∀ (inp : InputRing) (n : Nat), (inp.advance n).pending = inp.pending.drop n ∧
    ∀ a, imemByte (inp.advance n).mem a = inp.readAt n a

/-- R44, R110: an operation depends on no byte of `IMEM` outside the payload region and the three header
fields, whatever the producer does meanwhile: states that agree there go to states that differ in `IMEM`
alone, and still agree there. -/
def Obligations.ReadsStayInsideTheReadableBytes : Prop :=
  ∀ (i : Instr) (s t t2 : State) (m2 : Memory Byte), agreeWhereRead s.geom s.input.mem m2 →
    exec i s = .next t → exec i { s with input := { s.input with mem := m2 } } = .next t2 →
    t2 = { t with input := t2.input } ∧ t2.input.pending = t.input.pending ∧
    agreeWhereRead s.geom t.input.mem t2.input.mem

/-! ### Ports and registers (spec/10_state.md R25, R26; spec/60_exceptions.md R220) -/

/-- R220, R26: whatever the consumer does, all of port A's registers, the tables, the resync state and the
ring contents stay; of `EVENT` only `EV_ILLEGAL` may be added, of a ring only its read index may change. A
read changes nothing but the value returned, which is that of its own register, in the output-ring registers and the
descriptor windows what the master would read there, elsewhere zero. A write to anything but `CMDB` changes nothing.
The field that holds the value read is the model's choice (log entry 9). -/
def Obligations.ConsumerTouchesOnlyItsOwn : Prop :=
  ∀ (s t : State) (a : ConsumerAct), consumerAccess a s = .next t →
    t.ctrl = s.ctrl ∧ t.bufOffset = s.bufOffset ∧ t.bufSize = s.bufSize ∧ t.hdrSize = s.hdrSize ∧
    t.cmd = s.cmd ∧ t.status = s.status ∧ t.arg = s.arg ∧ t.res = s.res ∧
    (t.event = s.event ∨ t.event = s.event ||| 0x800) ∧ t.cur = s.cur ∧ t.curValid = s.curValid ∧
    t.resync = s.resync ∧ t.pat = s.pat ∧ t.lbuf = s.lbuf ∧ t.sig = s.sig ∧ t.spslut = s.spslut ∧
    t.input = s.input ∧ t.dataOutA = s.dataOutA ∧ t.rdataA = s.rdataA ∧
    (∀ o, t.ring.get o = { s.ring.get o with frd := (t.ring.get o).frd }) ∧
    (a = .read 0x2000 → t.rdataB = s.cmdb) ∧ (a = .read 0x2004 → t.rdataB = s.statusb) ∧
    (∀ (i : Nat) (w : Word), s.resb[i]? = some w → a = .read (0x2008 + 4 * i) → t.rdataB = w) ∧
    (∀ (off : Nat) (w : Word), a = .read off → off % 4 = 0 →
      (0xC0 ≤ off ∧ off ≤ 0xFC) ∨ (0x1000 ≤ off ∧ off ≤ 0x1BFC) →
      masterRead off s = .next { s with rdataA := w } → t.rdataB = w) ∧
    (∀ off, a = .read off → ¬(0x2000 ≤ off ∧ off ≤ 0x2010) → ¬(0xC0 ≤ off ∧ off ≤ 0xFC) →
      ¬(0x1000 ≤ off ∧ off ≤ 0x1BFC) → t.rdataB = 0) ∧
    (∀ off, a = .read off → t = { s with rdataB := t.rdataB }) ∧
    ∀ off v, a = .write off v → off ≠ 0x2000 → t = s

/-- R14, R15, R22, R23, R25, R26: what a write of the master stores, for every offset of the map but `CMD`.
`CTRL` keeps bits 7:0, `EVENT` is write-one-to-clear, byte arrays are packed four bytes to a word, `SIG` keeps
its fields and `HDRW` its three; a write to a read-only register or a reserved offset changes nothing. That the
offsets the map does not list are reserved is inferred (log entry 11). -/
def Obligations.MasterRegisterWrites : Prop :=
  ∀ (s : State) (v : Word),
    let packed := fun (old new : List Byte) (k : Nat) =>
      ∀ n, new[n]? = if n / 4 = k then some (v.extractLsb' (8 * (n % 4)) 8) else old[n]?
    masterWrite 0x00 v s = .next { s with ctrl := v &&& 0xFF } ∧
    masterWrite 0x04 v s = .next { s with bufOffset := v } ∧
    masterWrite 0x08 v s = .next { s with bufSize := v } ∧
    masterWrite 0x0C v s = .next { s with hdrSize := v } ∧
    masterWrite 0x3C v s = .next { s with event := s.event &&& ~~~v } ∧
    (∀ i, i < 4 → masterWrite (0x18 + 4 * i) v s = .next { s with arg := s.arg.setIfInBounds i v }) ∧
    (∀ i, i < 8 → masterWrite (0x110 + 4 * i) v s =
      .next { s with sig := s.sig.setIfInBounds i (v &&& 0x0073FFFF) }) ∧
    (∀ k, k < 4 → ∃ x, packed s.pat.toList x.toList k ∧ masterWrite (0x100 + 4 * k) v s = .next { s with pat := x }) ∧
    (∀ k, k < 64 → ∃ x, packed s.lbuf.toList x.toList k ∧
      masterWrite (0x200 + 4 * k) v s = .next { s with lbuf := x }) ∧
    (∀ (i : Nat) (e : SpsEntry Config.params), s.spslut[i]? = some e →
      let entry := fun e' : SpsEntry Config.params => { s with spslut := s.spslut.setIfInBounds i e' }
      masterWrite (0x400 + 0x100 * i) v s =
        .next (entry { e with mlen := v.extractLsb' 0 8, rlen := v.extractLsb' 8 8, valid := v.getLsbD 31 }) ∧
      (∀ k, k < 16 → ∃ x, packed e.pattern.toList x.toList k ∧
        masterWrite (0x440 + 0x100 * i + 4 * k) v s = .next (entry { e with pattern := x })) ∧
      ∀ k, k < 16 → ∃ x, packed e.repl.toList x.toList k ∧
        masterWrite (0x480 + 0x100 * i + 4 * k) v s = .next (entry { e with repl := x })) ∧
    (∀ off, off % 4 = 0 → (off = 0x14 ∨ (0x28 ≤ off ∧ off < 0x3C) ∨ (0x40 ≤ off ∧ off < 0x100) ∨
      (0x130 ≤ off ∧ off < 0x200) ∨ (0x300 ≤ off ∧ off < 0x400) ∨
      (0x400 ≤ off ∧ off < 0x800 ∧ (4 ≤ off % 0x100 ∧ off % 0x100 < 0x40 ∨ 0xC0 ≤ off % 0x100)) ∨
      (0x800 ≤ off ∧ off < 0x2000)) →
      masterWrite off v s = .next s)

/-- R25, R26: what a register read of the master returns, for every offset of the map, and that an operand,
table or buffer word it has written is read back, with the unused bits of `SIG` and `HDRW` zero. A read changes
nothing but the value returned. The field that holds that value is the model's choice (log entry 9), and that
the offsets the map does not list read zero is inferred (log entry 11). -/
def Obligations.MasterRegisterReads : Prop :=
  ∀ s : State,
    let reads := fun (off : Nat) (w : Word) => masterRead off s = .next { s with rdataA := w }
    let packed := fun (bytes : List Byte) (off k : Nat) =>
      ∃ w, reads off w ∧ ∀ j, j < 4 → bytes[4 * k + j]? = some (w.extractLsb' (8 * j) 8)
    let number := fun st : StreamId => match st with | .low => 0 | .high => 1 | .aud => 2
    reads 0x00 s.ctrl ∧ reads 0x04 s.bufOffset ∧ reads 0x08 s.bufSize ∧ reads 0x0C s.hdrSize ∧
    reads 0x10 s.cmd ∧ reads 0x14 s.status ∧
    (∀ (i : Nat) (w : Word), s.arg[i]? = some w → reads (0x18 + 4 * i) w) ∧
    (∀ (i : Nat) (w : Word), s.res[i]? = some w → reads (0x28 + 4 * i) w) ∧
    reads 0x3C s.event ∧ reads 0x40 s.cur ∧ reads 0x44 (if s.curValid then 1 else 0) ∧
    (∀ st, let r := s.resync.get st
      let base := 0x80 + 0x10 * number st
      reads base (r.lastValid.setWidth 32 ||| if r.lvSet then 0x80000000 else 0) ∧ reads (base + 4) r.invRun ∧
      reads (base + 8) r.lost ∧ reads (base + 12) r.syncLost) ∧
    (∀ o, let r := s.ring.get o
      let base := 0xC0 + 0x10 * number o
      reads base r.cap ∧ reads (base + 4) r.owr ∧ reads (base + 8) r.fwr ∧ reads (base + 12) r.frd) ∧
    (∀ k, k < 4 → packed s.pat.toList (0x100 + 4 * k) k) ∧
    (∀ (i : Nat) (w : Word), s.sig[i]? = some w → reads (0x110 + 4 * i) w) ∧
    (∀ k, k < 64 → packed s.lbuf.toList (0x200 + 4 * k) k) ∧
    (∀ (i : Nat) (e : SpsEntry Config.params), s.spslut[i]? = some e →
      reads (0x400 + 0x100 * i)
        (e.mlen.setWidth 32 ||| e.rlen.setWidth 32 <<< 8 ||| if e.valid then 0x80000000 else 0) ∧
      (∀ k, k < 16 → packed e.pattern.toList (0x440 + 0x100 * i + 4 * k) k) ∧
      ∀ k, k < 16 → packed e.repl.toList (0x480 + 0x100 * i + 4 * k) k) ∧
    (∀ o j, j < 42 → let base := 0x1000 + 0x400 * number o + 0x10 * j
      (∀ d, Memory.read (s.ring.get o).desc j = some d →
        reads base d.off ∧ reads (base + 4) d.seq ∧ reads (base + 8) d.size) ∧ reads (base + 12) 0) ∧
    (∀ off, off % 4 = 0 → ((0x48 ≤ off ∧ off < 0x80) ∨ (0xB0 ≤ off ∧ off < 0xC0) ∨ (0xF0 ≤ off ∧ off < 0x100) ∨
      (0x130 ≤ off ∧ off < 0x200) ∨ (0x300 ≤ off ∧ off < 0x400) ∨
      (0x400 ≤ off ∧ off < 0x800 ∧ (4 ≤ off % 0x100 ∧ off % 0x100 < 0x40 ∨ 0xC0 ≤ off % 0x100)) ∨
      (0x800 ≤ off ∧ off < 0x1000) ∨ (0x1000 ≤ off ∧ off < 0x1C00 ∧ 0x2A0 ≤ off % 0x400) ∨
      (0x1C00 ≤ off ∧ off < 0x2000)) → reads off 0) ∧
    (∀ off, off % 4 = 0 → off < 0x2000 → ∃ w, reads off w) ∧
    ∀ (t : State) (off : Nat) (v : Word), off % 4 = 0 → masterWrite off v t = .next s →
      ((0x18 ≤ off ∧ off < 0x28) ∨ (0x100 ≤ off ∧ off < 0x110) ∨ (0x200 ≤ off ∧ off < 0x300) ∨
        (0x400 ≤ off ∧ off < 0x800 ∧ 0x40 ≤ off % 0x100 ∧ off % 0x100 < 0xC0) → reads off v) ∧
      (0x110 ≤ off ∧ off < 0x130 → reads off (v &&& 0x0073FFFF)) ∧
      (0x400 ≤ off ∧ off < 0x800 ∧ off % 0x100 = 0 → reads off (v &&& 0x8000FFFF))

/-! ### Reset and the invariant (spec/10_state.md R27, spec/70_reset_and_hazards.md R240) -/

/-- R27, the values the spec gives: every register and table 0, every queue empty. -/
def Obligations.ResetValues : Prop :=
  let s := State.reset
  s.ctrl = 0 ∧ s.bufOffset = 0 ∧ s.bufSize = 0 ∧ s.hdrSize = 0 ∧ s.cmd = 0 ∧ s.status = 0 ∧
  s.arg = #v[0, 0, 0, 0] ∧ s.res = #v[0, 0, 0, 0, 0] ∧ s.cmdb = 0 ∧ s.statusb = 0 ∧ s.resb = #v[0, 0, 0] ∧
  s.event = 0 ∧ s.cur = 0 ∧ s.curValid = false ∧
  (∀ st, s.resync.get st = { lastValid := 0, lvSet := false, invRun := 0, lost := 0, syncLost := 0 }) ∧
  (∀ o, (s.ring.get o).owr = 0 ∧ (s.ring.get o).fwr = 0 ∧ (s.ring.get o).frd = 0) ∧
  (∀ b ∈ s.pat.toList, b = 0) ∧ (∀ b ∈ s.lbuf.toList, b = 0) ∧ (∀ e ∈ s.sig.toList, e = 0) ∧
  (∀ e ∈ s.spslut.toList, e.valid = false ∧ e.mlen = 0 ∧ e.rlen = 0 ∧
    (∀ b ∈ e.pattern.toList, b = 0) ∧ ∀ b ∈ e.repl.toList, b = 0) ∧
  s.geomOk = false

/-- R240: asserting the reset input puts the registers and tables into their reset values from any state
and leaves `IMEM` alone. That what the environment does next is kept, and the two parts of the model's own
state that are set, are the model's choice (log entries 3, 8, 9, 16). -/
def Obligations.ResetInputFromAnyState : Prop :=
  ∀ (s : State) (rest : List HostAct), s.inbox = .resetInput :: rest →
    step s = .next
      { State.reset with
        ring :=
          { low := { State.reset.ring.low with cap := s.ring.low.cap }
            high := { State.reset.ring.high with cap := s.ring.high.cap }
            aud := { State.reset.ring.aud with cap := s.ring.aud.cap } }
        input := s.input
        consumer := s.consumer
        inbox := rest
        resetCount := s.resetCount + 1 }

/-- The invariant holds right after reset. -/
def Obligations.ResetMeetsTheInvariant : Prop :=
  State.reset.Inv

/-- Every step from any state that meets the invariant leads to a state that meets it: reserved bits read
zero, status registers hold codes of R83, memories are canonical, ring indices are in range, every
descriptor lies inside its ring and has all its bytes written, every unread slot has been written
(spec/10_state.md R13 to R15, R20, R22; spec/45_output_ring.md R186). -/
def Obligations.EveryStepKeepsTheInvariant : Prop :=
  ∀ s t : State, s.Inv → step s = .next t → t.Inv

/-- No step of a run stops if every access of the master has a register (spec/60_exceptions.md R210). That
other accesses fault is the model's choice (log entry 10). -/
def Obligations.MappedAccessesNeverStop : Prop :=
  ∀ s : State, s.Safe → ∃ t, step s = .next t ∧ t.Safe

/-- R186: in a state that meets the invariant a successful POP on either port returns only what PUSHes wrote:
its descriptor is listed, and so is every byte of the data. -/
def Obligations.PopReadsOnlyWrittenStorage : Prop :=
  ∀ (s u : State) (p : Port) (o : StreamId), s.Inv → (s.ring.get o).frd ≠ (s.ring.get o).fwr →
    exec (.pop p o) s = .next u →
    let data := match p with | .a => u.dataOutA | .b => u.dataOutB
    let results := match p with | .a => [u.res[0], u.res[1], u.res[2]] | .b => u.resb.toList
    ∃ d, Memory.read (s.ring.get o).desc (s.ring.get o).frd.toNat = some d ∧
      results = [d.size, d.seq, d.off] ∧ data.length = d.size.toNat ∧
      ∀ k, ∀ h : k < data.length,
        Memory.read (s.ring.get o).omem ((d.off.toNat + k) % (s.ring.get o).cap.toNat) = some data[k]
end

