-- ==== Sys2Proof/Machine/Model.lean ====
section
/-! DEFINITION. The model with the configuration record as its argument (spec/00_scope.md R3, spec/10_state.md R28). The host's interface fixes the types of `exec`, `step` and `State.reset`: they are this model at `Config.params`. -/

namespace Sys2Proof.Machine

/-- What each operation does on a machine with parameters `P`. -/
def execAt {P : Params} (i : Instr) (s : Parametric.State P) : Host.Outcome (Parametric.State P) Fault Refusal :=
  match i with
  | .move => execMove s
  | .find => execFind s
  | .cmp => execCmp s
  | .copy => execCopy s
  | .hdec => execHdec s
  | .route => execRoute s
  | .seqw st => execSeqw st s
  | .seql st => execSeql st s
  | .polls => execPolls s
  | .pollc => execPollc s
  | .emit st => execEmit st s
  | .push o => execPush o s
  | .pop p o => execPop p o s
  | .srst => execSrst s

/-- One step of the machine with parameters `P`. -/
def stepAt (P : Params) (s : Parametric.State P) : Host.Outcome (Parametric.State P) Fault Refusal := stepWith execAt s

/-- The machine with parameters `P`; `Sys2Proof.core` is the one of `Config.params`. -/
def machineAt (P : Params) : Host.Core :=
  { State := Parametric.State P, Fault := Fault, Refusal := Refusal, step := stepAt P, reset := Parametric.State.reset P }

end Sys2Proof.Machine
end

