-- ==== Sys2Proof/Laws/Config.lean ====
section
/-! SUPPORT. The values of the compile-time parameters (spec/00_scope.md R3), the two that fix a type, and that the host's machine is the model at these values. -/

namespace Sys2Proof

theorem Config.addrW_word : (Word : Type) = BitVec Config.params.addrW := rfl

theorem Config.nStream_streams : ∃ l : List StreamId, l.length = Config.params.nStream ∧ l.Nodup ∧ ∀ s, s ∈ l :=
  ⟨[.low, .high, .aud], rfl, by decide, by intro s; cases s <;> decide⟩

theorem Config.params_fits : Config.params.fits = true := by decide

namespace Machine

theorem exec_eq_execAt (i : Instr) (s : State) : exec i s = execAt i s := by cases i <;> rfl

theorem step_eq_stepAt (s : State) : step s = stepAt Config.params s := by
  rw [step, stepAt, show (exec : Meaning Config.params) = execAt from funext fun i => funext (exec_eq_execAt i)]

/-- The host's machine is the model with the default parameters. -/
theorem core_eq_machineAt : core = machineAt Config.params := by
  rw [core, machineAt, show step = stepAt Config.params from funext step_eq_stepAt]; rfl

end Machine

@[simp] theorem Config.params_irhMin : Config.params.irhMin = 20 := rfl
@[simp] theorem Config.params_padHdrSize : Config.params.padHdrSize = 22 := rfl
@[simp] theorem Config.params_spsPrefix : Config.params.spsPrefix = 6 := rfl
@[simp] theorem Config.params_maxWalk : Config.params.maxWalk = 10 := rfl
@[simp] theorem Config.params_winLo : Config.params.winLo = 1 := rfl
@[simp] theorem Config.params_winHi : Config.params.winHi = 20 := rfl
@[simp] theorem Config.params_tol : Config.params.tol = 40 := rfl
@[simp] theorem Config.params_ctrMod : Config.params.ctrMod = 65536 := rfl
@[simp] theorem Config.params_descCap : Config.params.descCap = 42 := rfl
@[simp] theorem Config.params_patMax : Config.params.patMax = 16 := rfl
@[simp] theorem Config.params_lbufSize : Config.params.lbufSize = 256 := rfl
@[simp] theorem Config.params_nSig : Config.params.nSig = 8 := rfl
@[simp] theorem Config.params_nSps : Config.params.nSps = 4 := rfl
@[simp] theorem Config.params_spsMax : Config.params.spsMax = 64 := rfl

end Sys2Proof
end

