-- ==== Sys2Proof/Laws/Geometry.lean ====
section
/-! SUPPORT. Ring addresses: what `wrap`, `dist` and `move` stay inside (spec/41_ring_locator.md R100 to R104). -/

namespace Sys2Proof.Machine

theorem Geom.isRing_iff (g : Geom) (a : Nat) : g.isRing a = true ↔ g.off ≤ a ∧ a < g.size := by
  simp [Geom.isRing]

theorem Geom.ok_iff (g : Geom) :
    g.ok = true ↔ 20 ≤ g.off ∧ g.off < g.size ∧ g.size ≤ 2 ^ 31 ∧ 2 ≤ g.size - g.off := by
  exact decide_eq_true_iff

theorem Geom.wrap_isRing {g : Geom} {x : Nat} (h1 : g.off ≤ x) (h2 : x < g.size + g.span) :
    g.isRing (g.wrap x) = true := by
  rw [Geom.isRing_iff]
  simp only [Geom.wrap, Geom.span] at *
  split <;> omega

theorem Geom.dist_lt {g : Geom} {a b : Nat} (ha : g.isRing a = true) (hb : g.isRing b = true) :
    g.dist a b < g.span := by
  rw [Geom.isRing_iff] at *
  simp only [Geom.dist, Geom.span]
  split <;> omega

theorem Geom.move_isRing {g : Geom} {a : Nat} {d : Int} (ha : g.isRing a = true) (h1 : -(g.span : Int) < d)
    (h2 : d < g.span) : g.isRing (g.move a d) = true := by
  rw [Geom.isRing_iff] at *
  simp only [Geom.move, Geom.span] at *
  split
  · omega
  · split <;> omega

/-- A forward move is a wrapped sum. -/
theorem Geom.move_forward {g : Geom} {a d : Nat} (ha : g.isRing a = true) :
    g.move a d = g.wrap (a + d) := by
  rw [Geom.isRing_iff] at ha
  simp only [Geom.move, Geom.wrap, Geom.span]
  split <;> split <;> first | omega | (split <;> omega)

theorem Geom.move_spsPrefix {g : Geom} {a : Nat} (ha : g.isRing a = true) :
    g.move a 6 = g.wrap (a + 6) := Geom.move_forward (d := 6) ha

theorem State.geomOk_iff (s : State) : s.geomOk = true ↔ 20 ≤ s.bufOffset.toNat ∧
    s.bufOffset.toNat < s.bufSize.toNat ∧ s.bufSize.toNat ≤ 2 ^ 31 ∧ 2 ≤ s.bufSize.toNat - s.bufOffset.toNat :=
  Geom.ok_iff _

theorem State.isRing_iff (s : State) (a : Nat) :
    s.geom.isRing a = true ↔ s.bufOffset.toNat ≤ a ∧ a < s.bufSize.toNat := Geom.isRing_iff _ _

theorem State.span_eq (s : State) : s.geom.span = s.bufSize.toNat - s.bufOffset.toNat := rfl

/-! ### Register fields (spec/00_scope.md R4) -/

theorem field_eq_extractLsb' (w : Word) (hi lo n : Nat) (hn : n = hi + 1 - lo) :
    field w hi lo = (w.extractLsb' lo n).toNat := by
  subst hn
  simp [field, BitVec.extractLsb'_toNat, Nat.shiftRight_eq_div_pow]

theorem bit_eq_getLsbD (w : Word) (i : Nat) : bit w i = w.getLsbD i := by
  rw [bit, field, ← BitVec.testBit_toNat, Nat.testBit_eq_decide_div_mod_eq]
  simp

end Sys2Proof.Machine
end

