-- ==== Sys2Proof/Laws/State.lean ====
section
/-! SUPPORT. One lemma per field per update of State, and the accessors of per-stream values. -/

namespace Sys2Proof.Machine

variable (s : State)

/-! ### `raise` -/

@[simp] theorem State.raise_ctrl (e : Event) : (s.raise e).ctrl = s.ctrl := rfl
@[simp] theorem State.raise_bufOffset (e : Event) : (s.raise e).bufOffset = s.bufOffset := rfl
@[simp] theorem State.raise_bufSize (e : Event) : (s.raise e).bufSize = s.bufSize := rfl
@[simp] theorem State.raise_hdrSize (e : Event) : (s.raise e).hdrSize = s.hdrSize := rfl
@[simp] theorem State.raise_cmd (e : Event) : (s.raise e).cmd = s.cmd := rfl
@[simp] theorem State.raise_status (e : Event) : (s.raise e).status = s.status := rfl
@[simp] theorem State.raise_arg (e : Event) : (s.raise e).arg = s.arg := rfl
@[simp] theorem State.raise_res (e : Event) : (s.raise e).res = s.res := rfl
@[simp] theorem State.raise_cmdb (e : Event) : (s.raise e).cmdb = s.cmdb := rfl
@[simp] theorem State.raise_statusb (e : Event) : (s.raise e).statusb = s.statusb := rfl
@[simp] theorem State.raise_resb (e : Event) : (s.raise e).resb = s.resb := rfl
@[simp] theorem State.raise_cur (e : Event) : (s.raise e).cur = s.cur := rfl
@[simp] theorem State.raise_curValid (e : Event) : (s.raise e).curValid = s.curValid := rfl
@[simp] theorem State.raise_resync (e : Event) : (s.raise e).resync = s.resync := rfl
@[simp] theorem State.raise_ring (e : Event) : (s.raise e).ring = s.ring := rfl
@[simp] theorem State.raise_pat (e : Event) : (s.raise e).pat = s.pat := rfl
@[simp] theorem State.raise_lbuf (e : Event) : (s.raise e).lbuf = s.lbuf := rfl
@[simp] theorem State.raise_sig (e : Event) : (s.raise e).sig = s.sig := rfl
@[simp] theorem State.raise_spslut (e : Event) : (s.raise e).spslut = s.spslut := rfl
@[simp] theorem State.raise_input (e : Event) : (s.raise e).input = s.input := rfl
@[simp] theorem State.raise_consumer (e : Event) : (s.raise e).consumer = s.consumer := rfl
@[simp] theorem State.raise_inbox (e : Event) : (s.raise e).inbox = s.inbox := rfl
@[simp] theorem State.raise_rdataA (e : Event) : (s.raise e).rdataA = s.rdataA := rfl
@[simp] theorem State.raise_rdataB (e : Event) : (s.raise e).rdataB = s.rdataB := rfl
@[simp] theorem State.raise_dataOutA (e : Event) : (s.raise e).dataOutA = s.dataOutA := rfl
@[simp] theorem State.raise_dataOutB (e : Event) : (s.raise e).dataOutB = s.dataOutB := rfl
@[simp] theorem State.raise_resetCount (e : Event) : (s.raise e).resetCount = s.resetCount := rfl
@[simp] theorem State.raise_geom (e : Event) : (s.raise e).geom = s.geom := rfl
@[simp] theorem State.raise_layout (e : Event) : (s.raise e).layout = s.layout := rfl

/-! ### `finish` -/

@[simp] theorem State.finish_ctrl (p : Port) (c : StatusCode) : (s.finish p c).ctrl = s.ctrl := by cases p <;> rfl
@[simp] theorem State.finish_bufOffset (p : Port) (c : StatusCode) : (s.finish p c).bufOffset = s.bufOffset := by cases p <;> rfl
@[simp] theorem State.finish_bufSize (p : Port) (c : StatusCode) : (s.finish p c).bufSize = s.bufSize := by cases p <;> rfl
@[simp] theorem State.finish_hdrSize (p : Port) (c : StatusCode) : (s.finish p c).hdrSize = s.hdrSize := by cases p <;> rfl
@[simp] theorem State.finish_cmd (p : Port) (c : StatusCode) : (s.finish p c).cmd = s.cmd := by cases p <;> rfl
@[simp] theorem State.finish_arg (p : Port) (c : StatusCode) : (s.finish p c).arg = s.arg := by cases p <;> rfl
@[simp] theorem State.finish_res (p : Port) (c : StatusCode) : (s.finish p c).res = s.res := by cases p <;> rfl
@[simp] theorem State.finish_cmdb (p : Port) (c : StatusCode) : (s.finish p c).cmdb = s.cmdb := by cases p <;> rfl
@[simp] theorem State.finish_resb (p : Port) (c : StatusCode) : (s.finish p c).resb = s.resb := by cases p <;> rfl
@[simp] theorem State.finish_event (p : Port) (c : StatusCode) : (s.finish p c).event = s.event := by cases p <;> rfl
@[simp] theorem State.finish_cur (p : Port) (c : StatusCode) : (s.finish p c).cur = s.cur := by cases p <;> rfl
@[simp] theorem State.finish_curValid (p : Port) (c : StatusCode) : (s.finish p c).curValid = s.curValid := by cases p <;> rfl
@[simp] theorem State.finish_resync (p : Port) (c : StatusCode) : (s.finish p c).resync = s.resync := by cases p <;> rfl
@[simp] theorem State.finish_ring (p : Port) (c : StatusCode) : (s.finish p c).ring = s.ring := by cases p <;> rfl
@[simp] theorem State.finish_pat (p : Port) (c : StatusCode) : (s.finish p c).pat = s.pat := by cases p <;> rfl
@[simp] theorem State.finish_lbuf (p : Port) (c : StatusCode) : (s.finish p c).lbuf = s.lbuf := by cases p <;> rfl
@[simp] theorem State.finish_sig (p : Port) (c : StatusCode) : (s.finish p c).sig = s.sig := by cases p <;> rfl
@[simp] theorem State.finish_spslut (p : Port) (c : StatusCode) : (s.finish p c).spslut = s.spslut := by cases p <;> rfl
@[simp] theorem State.finish_input (p : Port) (c : StatusCode) : (s.finish p c).input = s.input := by cases p <;> rfl
@[simp] theorem State.finish_consumer (p : Port) (c : StatusCode) : (s.finish p c).consumer = s.consumer := by cases p <;> rfl
@[simp] theorem State.finish_inbox (p : Port) (c : StatusCode) : (s.finish p c).inbox = s.inbox := by cases p <;> rfl
@[simp] theorem State.finish_rdataA (p : Port) (c : StatusCode) : (s.finish p c).rdataA = s.rdataA := by cases p <;> rfl
@[simp] theorem State.finish_rdataB (p : Port) (c : StatusCode) : (s.finish p c).rdataB = s.rdataB := by cases p <;> rfl
@[simp] theorem State.finish_dataOutA (p : Port) (c : StatusCode) : (s.finish p c).dataOutA = s.dataOutA := by cases p <;> rfl
@[simp] theorem State.finish_dataOutB (p : Port) (c : StatusCode) : (s.finish p c).dataOutB = s.dataOutB := by cases p <;> rfl
@[simp] theorem State.finish_resetCount (p : Port) (c : StatusCode) : (s.finish p c).resetCount = s.resetCount := by cases p <;> rfl
@[simp] theorem State.finish_geom (p : Port) (c : StatusCode) : (s.finish p c).geom = s.geom := by cases p <;> rfl
@[simp] theorem State.finish_layout (p : Port) (c : StatusCode) : (s.finish p c).layout = s.layout := by cases p <;> rfl

/-! ### `setRes` -/

@[simp] theorem State.setRes_ctrl (i : Fin 5) (v : Word) : (s.setRes i v).ctrl = s.ctrl := rfl
@[simp] theorem State.setRes_bufOffset (i : Fin 5) (v : Word) : (s.setRes i v).bufOffset = s.bufOffset := rfl
@[simp] theorem State.setRes_bufSize (i : Fin 5) (v : Word) : (s.setRes i v).bufSize = s.bufSize := rfl
@[simp] theorem State.setRes_hdrSize (i : Fin 5) (v : Word) : (s.setRes i v).hdrSize = s.hdrSize := rfl
@[simp] theorem State.setRes_cmd (i : Fin 5) (v : Word) : (s.setRes i v).cmd = s.cmd := rfl
@[simp] theorem State.setRes_status (i : Fin 5) (v : Word) : (s.setRes i v).status = s.status := rfl
@[simp] theorem State.setRes_arg (i : Fin 5) (v : Word) : (s.setRes i v).arg = s.arg := rfl
@[simp] theorem State.setRes_cmdb (i : Fin 5) (v : Word) : (s.setRes i v).cmdb = s.cmdb := rfl
@[simp] theorem State.setRes_statusb (i : Fin 5) (v : Word) : (s.setRes i v).statusb = s.statusb := rfl
@[simp] theorem State.setRes_resb (i : Fin 5) (v : Word) : (s.setRes i v).resb = s.resb := rfl
@[simp] theorem State.setRes_event (i : Fin 5) (v : Word) : (s.setRes i v).event = s.event := rfl
@[simp] theorem State.setRes_cur (i : Fin 5) (v : Word) : (s.setRes i v).cur = s.cur := rfl
@[simp] theorem State.setRes_curValid (i : Fin 5) (v : Word) : (s.setRes i v).curValid = s.curValid := rfl
@[simp] theorem State.setRes_resync (i : Fin 5) (v : Word) : (s.setRes i v).resync = s.resync := rfl
@[simp] theorem State.setRes_ring (i : Fin 5) (v : Word) : (s.setRes i v).ring = s.ring := rfl
@[simp] theorem State.setRes_pat (i : Fin 5) (v : Word) : (s.setRes i v).pat = s.pat := rfl
@[simp] theorem State.setRes_lbuf (i : Fin 5) (v : Word) : (s.setRes i v).lbuf = s.lbuf := rfl
@[simp] theorem State.setRes_sig (i : Fin 5) (v : Word) : (s.setRes i v).sig = s.sig := rfl
@[simp] theorem State.setRes_spslut (i : Fin 5) (v : Word) : (s.setRes i v).spslut = s.spslut := rfl
@[simp] theorem State.setRes_input (i : Fin 5) (v : Word) : (s.setRes i v).input = s.input := rfl
@[simp] theorem State.setRes_consumer (i : Fin 5) (v : Word) : (s.setRes i v).consumer = s.consumer := rfl
@[simp] theorem State.setRes_inbox (i : Fin 5) (v : Word) : (s.setRes i v).inbox = s.inbox := rfl
@[simp] theorem State.setRes_rdataA (i : Fin 5) (v : Word) : (s.setRes i v).rdataA = s.rdataA := rfl
@[simp] theorem State.setRes_rdataB (i : Fin 5) (v : Word) : (s.setRes i v).rdataB = s.rdataB := rfl
@[simp] theorem State.setRes_dataOutA (i : Fin 5) (v : Word) : (s.setRes i v).dataOutA = s.dataOutA := rfl
@[simp] theorem State.setRes_dataOutB (i : Fin 5) (v : Word) : (s.setRes i v).dataOutB = s.dataOutB := rfl
@[simp] theorem State.setRes_resetCount (i : Fin 5) (v : Word) : (s.setRes i v).resetCount = s.resetCount := rfl
@[simp] theorem State.setRes_geom (i : Fin 5) (v : Word) : (s.setRes i v).geom = s.geom := rfl
@[simp] theorem State.setRes_layout (i : Fin 5) (v : Word) : (s.setRes i v).layout = s.layout := rfl

/-! ### `setResults3` -/

@[simp] theorem State.setResults3_ctrl (p : Port) (v0 v1 v2 : Word) : (s.setResults3 p v0 v1 v2).ctrl = s.ctrl := by cases p <;> rfl
@[simp] theorem State.setResults3_bufOffset (p : Port) (v0 v1 v2 : Word) : (s.setResults3 p v0 v1 v2).bufOffset = s.bufOffset := by cases p <;> rfl
@[simp] theorem State.setResults3_bufSize (p : Port) (v0 v1 v2 : Word) : (s.setResults3 p v0 v1 v2).bufSize = s.bufSize := by cases p <;> rfl
@[simp] theorem State.setResults3_hdrSize (p : Port) (v0 v1 v2 : Word) : (s.setResults3 p v0 v1 v2).hdrSize = s.hdrSize := by cases p <;> rfl
@[simp] theorem State.setResults3_cmd (p : Port) (v0 v1 v2 : Word) : (s.setResults3 p v0 v1 v2).cmd = s.cmd := by cases p <;> rfl
@[simp] theorem State.setResults3_status (p : Port) (v0 v1 v2 : Word) : (s.setResults3 p v0 v1 v2).status = s.status := by cases p <;> rfl
@[simp] theorem State.setResults3_arg (p : Port) (v0 v1 v2 : Word) : (s.setResults3 p v0 v1 v2).arg = s.arg := by cases p <;> rfl
@[simp] theorem State.setResults3_cmdb (p : Port) (v0 v1 v2 : Word) : (s.setResults3 p v0 v1 v2).cmdb = s.cmdb := by cases p <;> rfl
@[simp] theorem State.setResults3_statusb (p : Port) (v0 v1 v2 : Word) : (s.setResults3 p v0 v1 v2).statusb = s.statusb := by cases p <;> rfl
@[simp] theorem State.setResults3_event (p : Port) (v0 v1 v2 : Word) : (s.setResults3 p v0 v1 v2).event = s.event := by cases p <;> rfl
@[simp] theorem State.setResults3_cur (p : Port) (v0 v1 v2 : Word) : (s.setResults3 p v0 v1 v2).cur = s.cur := by cases p <;> rfl
@[simp] theorem State.setResults3_curValid (p : Port) (v0 v1 v2 : Word) : (s.setResults3 p v0 v1 v2).curValid = s.curValid := by cases p <;> rfl
@[simp] theorem State.setResults3_resync (p : Port) (v0 v1 v2 : Word) : (s.setResults3 p v0 v1 v2).resync = s.resync := by cases p <;> rfl
@[simp] theorem State.setResults3_ring (p : Port) (v0 v1 v2 : Word) : (s.setResults3 p v0 v1 v2).ring = s.ring := by cases p <;> rfl
@[simp] theorem State.setResults3_pat (p : Port) (v0 v1 v2 : Word) : (s.setResults3 p v0 v1 v2).pat = s.pat := by cases p <;> rfl
@[simp] theorem State.setResults3_lbuf (p : Port) (v0 v1 v2 : Word) : (s.setResults3 p v0 v1 v2).lbuf = s.lbuf := by cases p <;> rfl
@[simp] theorem State.setResults3_sig (p : Port) (v0 v1 v2 : Word) : (s.setResults3 p v0 v1 v2).sig = s.sig := by cases p <;> rfl
@[simp] theorem State.setResults3_spslut (p : Port) (v0 v1 v2 : Word) : (s.setResults3 p v0 v1 v2).spslut = s.spslut := by cases p <;> rfl
@[simp] theorem State.setResults3_input (p : Port) (v0 v1 v2 : Word) : (s.setResults3 p v0 v1 v2).input = s.input := by cases p <;> rfl
@[simp] theorem State.setResults3_consumer (p : Port) (v0 v1 v2 : Word) : (s.setResults3 p v0 v1 v2).consumer = s.consumer := by cases p <;> rfl
@[simp] theorem State.setResults3_inbox (p : Port) (v0 v1 v2 : Word) : (s.setResults3 p v0 v1 v2).inbox = s.inbox := by cases p <;> rfl
@[simp] theorem State.setResults3_rdataA (p : Port) (v0 v1 v2 : Word) : (s.setResults3 p v0 v1 v2).rdataA = s.rdataA := by cases p <;> rfl
@[simp] theorem State.setResults3_rdataB (p : Port) (v0 v1 v2 : Word) : (s.setResults3 p v0 v1 v2).rdataB = s.rdataB := by cases p <;> rfl
@[simp] theorem State.setResults3_dataOutA (p : Port) (v0 v1 v2 : Word) : (s.setResults3 p v0 v1 v2).dataOutA = s.dataOutA := by cases p <;> rfl
@[simp] theorem State.setResults3_dataOutB (p : Port) (v0 v1 v2 : Word) : (s.setResults3 p v0 v1 v2).dataOutB = s.dataOutB := by cases p <;> rfl
@[simp] theorem State.setResults3_resetCount (p : Port) (v0 v1 v2 : Word) : (s.setResults3 p v0 v1 v2).resetCount = s.resetCount := by cases p <;> rfl
@[simp] theorem State.setResults3_geom (p : Port) (v0 v1 v2 : Word) : (s.setResults3 p v0 v1 v2).geom = s.geom := by cases p <;> rfl
@[simp] theorem State.setResults3_layout (p : Port) (v0 v1 v2 : Word) : (s.setResults3 p v0 v1 v2).layout = s.layout := by cases p <;> rfl

/-! ### `setDataOut` -/

@[simp] theorem State.setDataOut_ctrl (p : Port) (bs : List Byte) : (s.setDataOut p bs).ctrl = s.ctrl := by cases p <;> rfl
@[simp] theorem State.setDataOut_bufOffset (p : Port) (bs : List Byte) : (s.setDataOut p bs).bufOffset = s.bufOffset := by cases p <;> rfl
@[simp] theorem State.setDataOut_bufSize (p : Port) (bs : List Byte) : (s.setDataOut p bs).bufSize = s.bufSize := by cases p <;> rfl
@[simp] theorem State.setDataOut_hdrSize (p : Port) (bs : List Byte) : (s.setDataOut p bs).hdrSize = s.hdrSize := by cases p <;> rfl
@[simp] theorem State.setDataOut_cmd (p : Port) (bs : List Byte) : (s.setDataOut p bs).cmd = s.cmd := by cases p <;> rfl
@[simp] theorem State.setDataOut_status (p : Port) (bs : List Byte) : (s.setDataOut p bs).status = s.status := by cases p <;> rfl
@[simp] theorem State.setDataOut_arg (p : Port) (bs : List Byte) : (s.setDataOut p bs).arg = s.arg := by cases p <;> rfl
@[simp] theorem State.setDataOut_res (p : Port) (bs : List Byte) : (s.setDataOut p bs).res = s.res := by cases p <;> rfl
@[simp] theorem State.setDataOut_cmdb (p : Port) (bs : List Byte) : (s.setDataOut p bs).cmdb = s.cmdb := by cases p <;> rfl
@[simp] theorem State.setDataOut_statusb (p : Port) (bs : List Byte) : (s.setDataOut p bs).statusb = s.statusb := by cases p <;> rfl
@[simp] theorem State.setDataOut_resb (p : Port) (bs : List Byte) : (s.setDataOut p bs).resb = s.resb := by cases p <;> rfl
@[simp] theorem State.setDataOut_event (p : Port) (bs : List Byte) : (s.setDataOut p bs).event = s.event := by cases p <;> rfl
@[simp] theorem State.setDataOut_cur (p : Port) (bs : List Byte) : (s.setDataOut p bs).cur = s.cur := by cases p <;> rfl
@[simp] theorem State.setDataOut_curValid (p : Port) (bs : List Byte) : (s.setDataOut p bs).curValid = s.curValid := by cases p <;> rfl
@[simp] theorem State.setDataOut_resync (p : Port) (bs : List Byte) : (s.setDataOut p bs).resync = s.resync := by cases p <;> rfl
@[simp] theorem State.setDataOut_ring (p : Port) (bs : List Byte) : (s.setDataOut p bs).ring = s.ring := by cases p <;> rfl
@[simp] theorem State.setDataOut_pat (p : Port) (bs : List Byte) : (s.setDataOut p bs).pat = s.pat := by cases p <;> rfl
@[simp] theorem State.setDataOut_lbuf (p : Port) (bs : List Byte) : (s.setDataOut p bs).lbuf = s.lbuf := by cases p <;> rfl
@[simp] theorem State.setDataOut_sig (p : Port) (bs : List Byte) : (s.setDataOut p bs).sig = s.sig := by cases p <;> rfl
@[simp] theorem State.setDataOut_spslut (p : Port) (bs : List Byte) : (s.setDataOut p bs).spslut = s.spslut := by cases p <;> rfl
@[simp] theorem State.setDataOut_input (p : Port) (bs : List Byte) : (s.setDataOut p bs).input = s.input := by cases p <;> rfl
@[simp] theorem State.setDataOut_consumer (p : Port) (bs : List Byte) : (s.setDataOut p bs).consumer = s.consumer := by cases p <;> rfl
@[simp] theorem State.setDataOut_inbox (p : Port) (bs : List Byte) : (s.setDataOut p bs).inbox = s.inbox := by cases p <;> rfl
@[simp] theorem State.setDataOut_rdataA (p : Port) (bs : List Byte) : (s.setDataOut p bs).rdataA = s.rdataA := by cases p <;> rfl
@[simp] theorem State.setDataOut_rdataB (p : Port) (bs : List Byte) : (s.setDataOut p bs).rdataB = s.rdataB := by cases p <;> rfl
@[simp] theorem State.setDataOut_resetCount (p : Port) (bs : List Byte) : (s.setDataOut p bs).resetCount = s.resetCount := by cases p <;> rfl
@[simp] theorem State.setDataOut_geom (p : Port) (bs : List Byte) : (s.setDataOut p bs).geom = s.geom := by cases p <;> rfl
@[simp] theorem State.setDataOut_layout (p : Port) (bs : List Byte) : (s.setDataOut p bs).layout = s.layout := by cases p <;> rfl

/-! ### `setInput` -/

@[simp] theorem State.setInput_ctrl (inp : InputRing) : (s.setInput inp).ctrl = s.ctrl := rfl
@[simp] theorem State.setInput_bufOffset (inp : InputRing) : (s.setInput inp).bufOffset = s.bufOffset := rfl
@[simp] theorem State.setInput_bufSize (inp : InputRing) : (s.setInput inp).bufSize = s.bufSize := rfl
@[simp] theorem State.setInput_hdrSize (inp : InputRing) : (s.setInput inp).hdrSize = s.hdrSize := rfl
@[simp] theorem State.setInput_cmd (inp : InputRing) : (s.setInput inp).cmd = s.cmd := rfl
@[simp] theorem State.setInput_status (inp : InputRing) : (s.setInput inp).status = s.status := rfl
@[simp] theorem State.setInput_arg (inp : InputRing) : (s.setInput inp).arg = s.arg := rfl
@[simp] theorem State.setInput_res (inp : InputRing) : (s.setInput inp).res = s.res := rfl
@[simp] theorem State.setInput_cmdb (inp : InputRing) : (s.setInput inp).cmdb = s.cmdb := rfl
@[simp] theorem State.setInput_statusb (inp : InputRing) : (s.setInput inp).statusb = s.statusb := rfl
@[simp] theorem State.setInput_resb (inp : InputRing) : (s.setInput inp).resb = s.resb := rfl
@[simp] theorem State.setInput_event (inp : InputRing) : (s.setInput inp).event = s.event := rfl
@[simp] theorem State.setInput_cur (inp : InputRing) : (s.setInput inp).cur = s.cur := rfl
@[simp] theorem State.setInput_curValid (inp : InputRing) : (s.setInput inp).curValid = s.curValid := rfl
@[simp] theorem State.setInput_resync (inp : InputRing) : (s.setInput inp).resync = s.resync := rfl
@[simp] theorem State.setInput_ring (inp : InputRing) : (s.setInput inp).ring = s.ring := rfl
@[simp] theorem State.setInput_pat (inp : InputRing) : (s.setInput inp).pat = s.pat := rfl
@[simp] theorem State.setInput_lbuf (inp : InputRing) : (s.setInput inp).lbuf = s.lbuf := rfl
@[simp] theorem State.setInput_sig (inp : InputRing) : (s.setInput inp).sig = s.sig := rfl
@[simp] theorem State.setInput_spslut (inp : InputRing) : (s.setInput inp).spslut = s.spslut := rfl
@[simp] theorem State.setInput_consumer (inp : InputRing) : (s.setInput inp).consumer = s.consumer := rfl
@[simp] theorem State.setInput_inbox (inp : InputRing) : (s.setInput inp).inbox = s.inbox := rfl
@[simp] theorem State.setInput_rdataA (inp : InputRing) : (s.setInput inp).rdataA = s.rdataA := rfl
@[simp] theorem State.setInput_rdataB (inp : InputRing) : (s.setInput inp).rdataB = s.rdataB := rfl
@[simp] theorem State.setInput_dataOutA (inp : InputRing) : (s.setInput inp).dataOutA = s.dataOutA := rfl
@[simp] theorem State.setInput_dataOutB (inp : InputRing) : (s.setInput inp).dataOutB = s.dataOutB := rfl
@[simp] theorem State.setInput_resetCount (inp : InputRing) : (s.setInput inp).resetCount = s.resetCount := rfl
@[simp] theorem State.setInput_geom (inp : InputRing) : (s.setInput inp).geom = s.geom := rfl
@[simp] theorem State.setInput_layout (inp : InputRing) : (s.setInput inp).layout = s.layout := rfl

/-! ### `setCur` -/

@[simp] theorem State.setCur_ctrl (a : Nat) : (s.setCur a).ctrl = s.ctrl := rfl
@[simp] theorem State.setCur_bufOffset (a : Nat) : (s.setCur a).bufOffset = s.bufOffset := rfl
@[simp] theorem State.setCur_bufSize (a : Nat) : (s.setCur a).bufSize = s.bufSize := rfl
@[simp] theorem State.setCur_hdrSize (a : Nat) : (s.setCur a).hdrSize = s.hdrSize := rfl
@[simp] theorem State.setCur_cmd (a : Nat) : (s.setCur a).cmd = s.cmd := rfl
@[simp] theorem State.setCur_status (a : Nat) : (s.setCur a).status = s.status := rfl
@[simp] theorem State.setCur_arg (a : Nat) : (s.setCur a).arg = s.arg := rfl
@[simp] theorem State.setCur_res (a : Nat) : (s.setCur a).res = s.res := rfl
@[simp] theorem State.setCur_cmdb (a : Nat) : (s.setCur a).cmdb = s.cmdb := rfl
@[simp] theorem State.setCur_statusb (a : Nat) : (s.setCur a).statusb = s.statusb := rfl
@[simp] theorem State.setCur_resb (a : Nat) : (s.setCur a).resb = s.resb := rfl
@[simp] theorem State.setCur_event (a : Nat) : (s.setCur a).event = s.event := rfl
@[simp] theorem State.setCur_curValid (a : Nat) : (s.setCur a).curValid = s.curValid := rfl
@[simp] theorem State.setCur_resync (a : Nat) : (s.setCur a).resync = s.resync := rfl
@[simp] theorem State.setCur_ring (a : Nat) : (s.setCur a).ring = s.ring := rfl
@[simp] theorem State.setCur_pat (a : Nat) : (s.setCur a).pat = s.pat := rfl
@[simp] theorem State.setCur_lbuf (a : Nat) : (s.setCur a).lbuf = s.lbuf := rfl
@[simp] theorem State.setCur_sig (a : Nat) : (s.setCur a).sig = s.sig := rfl
@[simp] theorem State.setCur_spslut (a : Nat) : (s.setCur a).spslut = s.spslut := rfl
@[simp] theorem State.setCur_input (a : Nat) : (s.setCur a).input = s.input := rfl
@[simp] theorem State.setCur_consumer (a : Nat) : (s.setCur a).consumer = s.consumer := rfl
@[simp] theorem State.setCur_inbox (a : Nat) : (s.setCur a).inbox = s.inbox := rfl
@[simp] theorem State.setCur_rdataA (a : Nat) : (s.setCur a).rdataA = s.rdataA := rfl
@[simp] theorem State.setCur_rdataB (a : Nat) : (s.setCur a).rdataB = s.rdataB := rfl
@[simp] theorem State.setCur_dataOutA (a : Nat) : (s.setCur a).dataOutA = s.dataOutA := rfl
@[simp] theorem State.setCur_dataOutB (a : Nat) : (s.setCur a).dataOutB = s.dataOutB := rfl
@[simp] theorem State.setCur_resetCount (a : Nat) : (s.setCur a).resetCount = s.resetCount := rfl
@[simp] theorem State.setCur_geom (a : Nat) : (s.setCur a).geom = s.geom := rfl
@[simp] theorem State.setCur_layout (a : Nat) : (s.setCur a).layout = s.layout := rfl

/-! ### `initCur` -/

@[simp] theorem State.initCur_ctrl (a : Nat) : (s.initCur a).ctrl = s.ctrl := rfl
@[simp] theorem State.initCur_bufOffset (a : Nat) : (s.initCur a).bufOffset = s.bufOffset := rfl
@[simp] theorem State.initCur_bufSize (a : Nat) : (s.initCur a).bufSize = s.bufSize := rfl
@[simp] theorem State.initCur_hdrSize (a : Nat) : (s.initCur a).hdrSize = s.hdrSize := rfl
@[simp] theorem State.initCur_cmd (a : Nat) : (s.initCur a).cmd = s.cmd := rfl
@[simp] theorem State.initCur_status (a : Nat) : (s.initCur a).status = s.status := rfl
@[simp] theorem State.initCur_arg (a : Nat) : (s.initCur a).arg = s.arg := rfl
@[simp] theorem State.initCur_res (a : Nat) : (s.initCur a).res = s.res := rfl
@[simp] theorem State.initCur_cmdb (a : Nat) : (s.initCur a).cmdb = s.cmdb := rfl
@[simp] theorem State.initCur_statusb (a : Nat) : (s.initCur a).statusb = s.statusb := rfl
@[simp] theorem State.initCur_resb (a : Nat) : (s.initCur a).resb = s.resb := rfl
@[simp] theorem State.initCur_event (a : Nat) : (s.initCur a).event = s.event := rfl
@[simp] theorem State.initCur_resync (a : Nat) : (s.initCur a).resync = s.resync := rfl
@[simp] theorem State.initCur_ring (a : Nat) : (s.initCur a).ring = s.ring := rfl
@[simp] theorem State.initCur_pat (a : Nat) : (s.initCur a).pat = s.pat := rfl
@[simp] theorem State.initCur_lbuf (a : Nat) : (s.initCur a).lbuf = s.lbuf := rfl
@[simp] theorem State.initCur_sig (a : Nat) : (s.initCur a).sig = s.sig := rfl
@[simp] theorem State.initCur_spslut (a : Nat) : (s.initCur a).spslut = s.spslut := rfl
@[simp] theorem State.initCur_input (a : Nat) : (s.initCur a).input = s.input := rfl
@[simp] theorem State.initCur_consumer (a : Nat) : (s.initCur a).consumer = s.consumer := rfl
@[simp] theorem State.initCur_inbox (a : Nat) : (s.initCur a).inbox = s.inbox := rfl
@[simp] theorem State.initCur_rdataA (a : Nat) : (s.initCur a).rdataA = s.rdataA := rfl
@[simp] theorem State.initCur_rdataB (a : Nat) : (s.initCur a).rdataB = s.rdataB := rfl
@[simp] theorem State.initCur_dataOutA (a : Nat) : (s.initCur a).dataOutA = s.dataOutA := rfl
@[simp] theorem State.initCur_dataOutB (a : Nat) : (s.initCur a).dataOutB = s.dataOutB := rfl
@[simp] theorem State.initCur_resetCount (a : Nat) : (s.initCur a).resetCount = s.resetCount := rfl
@[simp] theorem State.initCur_geom (a : Nat) : (s.initCur a).geom = s.geom := rfl
@[simp] theorem State.initCur_layout (a : Nat) : (s.initCur a).layout = s.layout := rfl

/-! ### `setResults5` -/

@[simp] theorem State.setResults5_ctrl (v0 v1 v2 v3 v4 : Word) : (s.setResults5 v0 v1 v2 v3 v4).ctrl = s.ctrl := rfl
@[simp] theorem State.setResults5_bufOffset (v0 v1 v2 v3 v4 : Word) : (s.setResults5 v0 v1 v2 v3 v4).bufOffset = s.bufOffset := rfl
@[simp] theorem State.setResults5_bufSize (v0 v1 v2 v3 v4 : Word) : (s.setResults5 v0 v1 v2 v3 v4).bufSize = s.bufSize := rfl
@[simp] theorem State.setResults5_hdrSize (v0 v1 v2 v3 v4 : Word) : (s.setResults5 v0 v1 v2 v3 v4).hdrSize = s.hdrSize := rfl
@[simp] theorem State.setResults5_cmd (v0 v1 v2 v3 v4 : Word) : (s.setResults5 v0 v1 v2 v3 v4).cmd = s.cmd := rfl
@[simp] theorem State.setResults5_status (v0 v1 v2 v3 v4 : Word) : (s.setResults5 v0 v1 v2 v3 v4).status = s.status := rfl
@[simp] theorem State.setResults5_arg (v0 v1 v2 v3 v4 : Word) : (s.setResults5 v0 v1 v2 v3 v4).arg = s.arg := rfl
@[simp] theorem State.setResults5_cmdb (v0 v1 v2 v3 v4 : Word) : (s.setResults5 v0 v1 v2 v3 v4).cmdb = s.cmdb := rfl
@[simp] theorem State.setResults5_statusb (v0 v1 v2 v3 v4 : Word) : (s.setResults5 v0 v1 v2 v3 v4).statusb = s.statusb := rfl
@[simp] theorem State.setResults5_resb (v0 v1 v2 v3 v4 : Word) : (s.setResults5 v0 v1 v2 v3 v4).resb = s.resb := rfl
@[simp] theorem State.setResults5_event (v0 v1 v2 v3 v4 : Word) : (s.setResults5 v0 v1 v2 v3 v4).event = s.event := rfl
@[simp] theorem State.setResults5_cur (v0 v1 v2 v3 v4 : Word) : (s.setResults5 v0 v1 v2 v3 v4).cur = s.cur := rfl
@[simp] theorem State.setResults5_curValid (v0 v1 v2 v3 v4 : Word) : (s.setResults5 v0 v1 v2 v3 v4).curValid = s.curValid := rfl
@[simp] theorem State.setResults5_resync (v0 v1 v2 v3 v4 : Word) : (s.setResults5 v0 v1 v2 v3 v4).resync = s.resync := rfl
@[simp] theorem State.setResults5_ring (v0 v1 v2 v3 v4 : Word) : (s.setResults5 v0 v1 v2 v3 v4).ring = s.ring := rfl
@[simp] theorem State.setResults5_pat (v0 v1 v2 v3 v4 : Word) : (s.setResults5 v0 v1 v2 v3 v4).pat = s.pat := rfl
@[simp] theorem State.setResults5_lbuf (v0 v1 v2 v3 v4 : Word) : (s.setResults5 v0 v1 v2 v3 v4).lbuf = s.lbuf := rfl
@[simp] theorem State.setResults5_sig (v0 v1 v2 v3 v4 : Word) : (s.setResults5 v0 v1 v2 v3 v4).sig = s.sig := rfl
@[simp] theorem State.setResults5_spslut (v0 v1 v2 v3 v4 : Word) : (s.setResults5 v0 v1 v2 v3 v4).spslut = s.spslut := rfl
@[simp] theorem State.setResults5_input (v0 v1 v2 v3 v4 : Word) : (s.setResults5 v0 v1 v2 v3 v4).input = s.input := rfl
@[simp] theorem State.setResults5_consumer (v0 v1 v2 v3 v4 : Word) : (s.setResults5 v0 v1 v2 v3 v4).consumer = s.consumer := rfl
@[simp] theorem State.setResults5_inbox (v0 v1 v2 v3 v4 : Word) : (s.setResults5 v0 v1 v2 v3 v4).inbox = s.inbox := rfl
@[simp] theorem State.setResults5_rdataA (v0 v1 v2 v3 v4 : Word) : (s.setResults5 v0 v1 v2 v3 v4).rdataA = s.rdataA := rfl
@[simp] theorem State.setResults5_rdataB (v0 v1 v2 v3 v4 : Word) : (s.setResults5 v0 v1 v2 v3 v4).rdataB = s.rdataB := rfl
@[simp] theorem State.setResults5_dataOutA (v0 v1 v2 v3 v4 : Word) : (s.setResults5 v0 v1 v2 v3 v4).dataOutA = s.dataOutA := rfl
@[simp] theorem State.setResults5_dataOutB (v0 v1 v2 v3 v4 : Word) : (s.setResults5 v0 v1 v2 v3 v4).dataOutB = s.dataOutB := rfl
@[simp] theorem State.setResults5_resetCount (v0 v1 v2 v3 v4 : Word) : (s.setResults5 v0 v1 v2 v3 v4).resetCount = s.resetCount := rfl
@[simp] theorem State.setResults5_geom (v0 v1 v2 v3 v4 : Word) : (s.setResults5 v0 v1 v2 v3 v4).geom = s.geom := rfl
@[simp] theorem State.setResults5_layout (v0 v1 v2 v3 v4 : Word) : (s.setResults5 v0 v1 v2 v3 v4).layout = s.layout := rfl

/-! ### `setResync` -/

@[simp] theorem State.setResync_ctrl (st : StreamId) (r : Resync) : (s.setResync st r).ctrl = s.ctrl := rfl
@[simp] theorem State.setResync_bufOffset (st : StreamId) (r : Resync) : (s.setResync st r).bufOffset = s.bufOffset := rfl
@[simp] theorem State.setResync_bufSize (st : StreamId) (r : Resync) : (s.setResync st r).bufSize = s.bufSize := rfl
@[simp] theorem State.setResync_hdrSize (st : StreamId) (r : Resync) : (s.setResync st r).hdrSize = s.hdrSize := rfl
@[simp] theorem State.setResync_cmd (st : StreamId) (r : Resync) : (s.setResync st r).cmd = s.cmd := rfl
@[simp] theorem State.setResync_status (st : StreamId) (r : Resync) : (s.setResync st r).status = s.status := rfl
@[simp] theorem State.setResync_arg (st : StreamId) (r : Resync) : (s.setResync st r).arg = s.arg := rfl
@[simp] theorem State.setResync_res (st : StreamId) (r : Resync) : (s.setResync st r).res = s.res := rfl
@[simp] theorem State.setResync_cmdb (st : StreamId) (r : Resync) : (s.setResync st r).cmdb = s.cmdb := rfl
@[simp] theorem State.setResync_statusb (st : StreamId) (r : Resync) : (s.setResync st r).statusb = s.statusb := rfl
@[simp] theorem State.setResync_resb (st : StreamId) (r : Resync) : (s.setResync st r).resb = s.resb := rfl
@[simp] theorem State.setResync_event (st : StreamId) (r : Resync) : (s.setResync st r).event = s.event := rfl
@[simp] theorem State.setResync_cur (st : StreamId) (r : Resync) : (s.setResync st r).cur = s.cur := rfl
@[simp] theorem State.setResync_curValid (st : StreamId) (r : Resync) : (s.setResync st r).curValid = s.curValid := rfl
@[simp] theorem State.setResync_ring (st : StreamId) (r : Resync) : (s.setResync st r).ring = s.ring := rfl
@[simp] theorem State.setResync_pat (st : StreamId) (r : Resync) : (s.setResync st r).pat = s.pat := rfl
@[simp] theorem State.setResync_lbuf (st : StreamId) (r : Resync) : (s.setResync st r).lbuf = s.lbuf := rfl
@[simp] theorem State.setResync_sig (st : StreamId) (r : Resync) : (s.setResync st r).sig = s.sig := rfl
@[simp] theorem State.setResync_spslut (st : StreamId) (r : Resync) : (s.setResync st r).spslut = s.spslut := rfl
@[simp] theorem State.setResync_input (st : StreamId) (r : Resync) : (s.setResync st r).input = s.input := rfl
@[simp] theorem State.setResync_consumer (st : StreamId) (r : Resync) : (s.setResync st r).consumer = s.consumer := rfl
@[simp] theorem State.setResync_inbox (st : StreamId) (r : Resync) : (s.setResync st r).inbox = s.inbox := rfl
@[simp] theorem State.setResync_rdataA (st : StreamId) (r : Resync) : (s.setResync st r).rdataA = s.rdataA := rfl
@[simp] theorem State.setResync_rdataB (st : StreamId) (r : Resync) : (s.setResync st r).rdataB = s.rdataB := rfl
@[simp] theorem State.setResync_dataOutA (st : StreamId) (r : Resync) : (s.setResync st r).dataOutA = s.dataOutA := rfl
@[simp] theorem State.setResync_dataOutB (st : StreamId) (r : Resync) : (s.setResync st r).dataOutB = s.dataOutB := rfl
@[simp] theorem State.setResync_resetCount (st : StreamId) (r : Resync) : (s.setResync st r).resetCount = s.resetCount := rfl
@[simp] theorem State.setResync_geom (st : StreamId) (r : Resync) : (s.setResync st r).geom = s.geom := rfl
@[simp] theorem State.setResync_layout (st : StreamId) (r : Resync) : (s.setResync st r).layout = s.layout := rfl

/-! ### `setRing` -/

@[simp] theorem State.setRing_ctrl (o : StreamId) (r : OutRing) : (s.setRing o r).ctrl = s.ctrl := rfl
@[simp] theorem State.setRing_bufOffset (o : StreamId) (r : OutRing) : (s.setRing o r).bufOffset = s.bufOffset := rfl
@[simp] theorem State.setRing_bufSize (o : StreamId) (r : OutRing) : (s.setRing o r).bufSize = s.bufSize := rfl
@[simp] theorem State.setRing_hdrSize (o : StreamId) (r : OutRing) : (s.setRing o r).hdrSize = s.hdrSize := rfl
@[simp] theorem State.setRing_cmd (o : StreamId) (r : OutRing) : (s.setRing o r).cmd = s.cmd := rfl
@[simp] theorem State.setRing_status (o : StreamId) (r : OutRing) : (s.setRing o r).status = s.status := rfl
@[simp] theorem State.setRing_arg (o : StreamId) (r : OutRing) : (s.setRing o r).arg = s.arg := rfl
@[simp] theorem State.setRing_res (o : StreamId) (r : OutRing) : (s.setRing o r).res = s.res := rfl
@[simp] theorem State.setRing_cmdb (o : StreamId) (r : OutRing) : (s.setRing o r).cmdb = s.cmdb := rfl
@[simp] theorem State.setRing_statusb (o : StreamId) (r : OutRing) : (s.setRing o r).statusb = s.statusb := rfl
@[simp] theorem State.setRing_resb (o : StreamId) (r : OutRing) : (s.setRing o r).resb = s.resb := rfl
@[simp] theorem State.setRing_event (o : StreamId) (r : OutRing) : (s.setRing o r).event = s.event := rfl
@[simp] theorem State.setRing_cur (o : StreamId) (r : OutRing) : (s.setRing o r).cur = s.cur := rfl
@[simp] theorem State.setRing_curValid (o : StreamId) (r : OutRing) : (s.setRing o r).curValid = s.curValid := rfl
@[simp] theorem State.setRing_resync (o : StreamId) (r : OutRing) : (s.setRing o r).resync = s.resync := rfl
@[simp] theorem State.setRing_pat (o : StreamId) (r : OutRing) : (s.setRing o r).pat = s.pat := rfl
@[simp] theorem State.setRing_lbuf (o : StreamId) (r : OutRing) : (s.setRing o r).lbuf = s.lbuf := rfl
@[simp] theorem State.setRing_sig (o : StreamId) (r : OutRing) : (s.setRing o r).sig = s.sig := rfl
@[simp] theorem State.setRing_spslut (o : StreamId) (r : OutRing) : (s.setRing o r).spslut = s.spslut := rfl
@[simp] theorem State.setRing_input (o : StreamId) (r : OutRing) : (s.setRing o r).input = s.input := rfl
@[simp] theorem State.setRing_consumer (o : StreamId) (r : OutRing) : (s.setRing o r).consumer = s.consumer := rfl
@[simp] theorem State.setRing_inbox (o : StreamId) (r : OutRing) : (s.setRing o r).inbox = s.inbox := rfl
@[simp] theorem State.setRing_rdataA (o : StreamId) (r : OutRing) : (s.setRing o r).rdataA = s.rdataA := rfl
@[simp] theorem State.setRing_rdataB (o : StreamId) (r : OutRing) : (s.setRing o r).rdataB = s.rdataB := rfl
@[simp] theorem State.setRing_dataOutA (o : StreamId) (r : OutRing) : (s.setRing o r).dataOutA = s.dataOutA := rfl
@[simp] theorem State.setRing_dataOutB (o : StreamId) (r : OutRing) : (s.setRing o r).dataOutB = s.dataOutB := rfl
@[simp] theorem State.setRing_resetCount (o : StreamId) (r : OutRing) : (s.setRing o r).resetCount = s.resetCount := rfl
@[simp] theorem State.setRing_geom (o : StreamId) (r : OutRing) : (s.setRing o r).geom = s.geom := rfl
@[simp] theorem State.setRing_layout (o : StreamId) (r : OutRing) : (s.setRing o r).layout = s.layout := rfl

/-! ### The fields an update changes -/

@[simp] theorem State.raise_event (e : Event) : (s.raise e).event = s.event ||| e.mask := rfl
@[simp] theorem State.finish_a_status (c : StatusCode) : (s.finish .a c).status = c.word := rfl
@[simp] theorem State.finish_a_statusb (c : StatusCode) : (s.finish .a c).statusb = s.statusb := rfl
@[simp] theorem State.finish_b_statusb (c : StatusCode) : (s.finish .b c).statusb = c.word := rfl
@[simp] theorem State.finish_b_status (c : StatusCode) : (s.finish .b c).status = s.status := rfl
@[simp] theorem State.setRes_res (i : Fin 5) (v : Word) : (s.setRes i v).res = s.res.set i v := rfl
@[simp] theorem State.setResults3_a_res (v0 v1 v2 : Word) :
    (s.setResults3 .a v0 v1 v2).res = ((s.res.set 0 v0).set 1 v1).set 2 v2 := rfl
@[simp] theorem State.setResults3_a_resb (v0 v1 v2 : Word) : (s.setResults3 .a v0 v1 v2).resb = s.resb := rfl
@[simp] theorem State.setResults3_b_resb (v0 v1 v2 : Word) :
    (s.setResults3 .b v0 v1 v2).resb = ((s.resb.set 0 v0).set 1 v1).set 2 v2 := rfl
@[simp] theorem State.setResults3_b_res (v0 v1 v2 : Word) : (s.setResults3 .b v0 v1 v2).res = s.res := rfl
@[simp] theorem State.setDataOut_a_dataOutA (bs : List Byte) : (s.setDataOut .a bs).dataOutA = bs := rfl
@[simp] theorem State.setDataOut_a_dataOutB (bs : List Byte) : (s.setDataOut .a bs).dataOutB = s.dataOutB := rfl
@[simp] theorem State.setDataOut_b_dataOutB (bs : List Byte) : (s.setDataOut .b bs).dataOutB = bs := rfl
@[simp] theorem State.setDataOut_b_dataOutA (bs : List Byte) : (s.setDataOut .b bs).dataOutA = s.dataOutA := rfl
@[simp] theorem State.setInput_input (inp : InputRing) : (s.setInput inp).input = inp := rfl
@[simp] theorem State.setCur_cur (a : Nat) : (s.setCur a).cur = toWord a := rfl
@[simp] theorem State.initCur_cur (a : Nat) : (s.initCur a).cur = toWord a := rfl
@[simp] theorem State.initCur_curValid (a : Nat) : (s.initCur a).curValid = true := rfl
@[simp] theorem State.setResults5_res (v0 v1 v2 v3 v4 : Word) :
    (s.setResults5 v0 v1 v2 v3 v4).res = #v[v0, v1, v2, v3, v4] := rfl
@[simp] theorem State.setResync_resync (st : StreamId) (r : Resync) :
    (s.setResync st r).resync = s.resync.set st r := rfl
@[simp] theorem State.setRing_ring (o : StreamId) (r : OutRing) :
    (s.setRing o r).ring = s.ring.set o r := rfl

/-! ### Event bits and status words (spec/10_state.md R14, spec/30_encoding.md R83) -/

@[simp] theorem Event.mask_transient : Event.transient.mask = 0x001 := rfl
@[simp] theorem Event.mask_dropLen : Event.dropLen.mask = 0x002 := rfl
@[simp] theorem Event.mask_seqAnom : Event.seqAnom.mask = 0x004 := rfl
@[simp] theorem Event.mask_syncLost : Event.syncLost.mask = 0x008 := rfl
@[simp] theorem Event.mask_walkSync : Event.walkSync.mask = 0x010 := rfl
@[simp] theorem Event.mask_misclass : Event.misclass.mask = 0x020 := rfl
@[simp] theorem Event.mask_spsUnknown : Event.spsUnknown.mask = 0x040 := rfl
@[simp] theorem Event.mask_tooBig : Event.tooBig.mask = 0x080 := rfl
@[simp] theorem Event.mask_loss : Event.loss.mask = 0x100 := rfl
@[simp] theorem Event.mask_errRange : Event.errRange.mask = 0x200 := rfl
@[simp] theorem Event.mask_errCfg : Event.errCfg.mask = 0x400 := rfl
@[simp] theorem Event.mask_illegal : Event.illegal.mask = 0x800 := rfl
@[simp] theorem StatusCode.word_ok : StatusCode.ok.word = 0x00 := rfl
@[simp] theorem StatusCode.word_notFound : StatusCode.notFound.word = 0x01 := rfl
@[simp] theorem StatusCode.word_empty : StatusCode.empty.word = 0x02 := rfl
@[simp] theorem StatusCode.word_transient : StatusCode.transient.word = 0x03 := rfl
@[simp] theorem StatusCode.word_noData : StatusCode.noData.word = 0x04 := rfl
@[simp] theorem StatusCode.word_init : StatusCode.init.word = 0x05 := rfl
@[simp] theorem StatusCode.word_suppressed : StatusCode.suppressed.word = 0x06 := rfl
@[simp] theorem StatusCode.word_resync : StatusCode.resync.word = 0x07 := rfl
@[simp] theorem StatusCode.word_dropLen : StatusCode.dropLen.word = 0x08 := rfl
@[simp] theorem StatusCode.word_misclass : StatusCode.misclass.word = 0x09 := rfl
@[simp] theorem StatusCode.word_spsUnknown : StatusCode.spsUnknown.word = 0x0A := rfl
@[simp] theorem StatusCode.word_walkSync : StatusCode.walkSync.word = 0x0B := rfl
@[simp] theorem StatusCode.word_skipped : StatusCode.skipped.word = 0x0C := rfl
@[simp] theorem StatusCode.word_tooBig : StatusCode.tooBig.word = 0x0D := rfl
@[simp] theorem StatusCode.word_errRange : StatusCode.errRange.word = 0x10 := rfl
@[simp] theorem StatusCode.word_errCfg : StatusCode.errCfg.word = 0x11 := rfl
@[simp] theorem StatusCode.word_illegal : StatusCode.illegal.word = 0x12 := rfl

/-! ### Per-stream values -/

@[simp] theorem PerStream.get_set_same {α : Type} (v : PerStream α) (s : StreamId) (x : α) :
    (v.set s x).get s = x := by cases s <;> rfl

theorem PerStream.get_set_ne {α : Type} (v : PerStream α) {s t : StreamId} (x : α) (h : t ≠ s) :
    (v.set s x).get t = v.get t := by cases s <;> cases t <;> first | rfl | exact absurd rfl h

@[simp] theorem PerStream.set_get_self {α : Type} (v : PerStream α) (s : StreamId) :
    v.set s (v.get s) = v := by cases s <;> rfl

@[simp] theorem PerStream.get_map {α β : Type} (f : α → β) (v : PerStream α) (s : StreamId) :
    (v.map f).get s = f (v.get s) := by cases s <;> rfl

/-! ### Geometry and mode fields read from unchanged registers -/

@[simp] theorem State.setInput_self : s.setInput s.input = s := rfl

@[simp] theorem State.setInput_setInput (i j : InputRing) : (s.setInput i).setInput j = s.setInput j := rfl

theorem State.geom_congr {s t : State} (h1 : t.bufOffset = s.bufOffset) (h2 : t.bufSize = s.bufSize) :
    t.geom = s.geom := by simp [Parametric.State.geom, h1, h2]

end Sys2Proof.Machine
end

