-- ==== Sys2Proof/Laws/Memory.lean ====
section
/-! SUPPORT. The basic laws of sparse memories: read after write, every other place alone, the canonical form kept. -/

namespace Sys2Proof.Machine

variable {β : Type}

@[simp] theorem Memory.read_nil (a : Nat) : Memory.read ([] : Memory β) a = none := rfl

theorem Memory.read_write_same (m : Memory β) (a : Nat) (v : β) :
    Memory.read (Memory.write m a v) a = some v := by
  induction m with
  | nil => simp [Memory.write, Memory.read]
  | cons c m ih =>
    obtain ⟨b, w⟩ := c
    simp only [Memory.write]
    split
    · simp [Memory.read]
    · split
      · simp [Memory.read]
      · rename_i h
        simp [Memory.read, h, ih]

theorem Memory.read_write_ne (m : Memory β) {a b : Nat} (v : β) (h : b ≠ a) :
    Memory.read (Memory.write m a v) b = Memory.read m b := by
  induction m with
  | nil => simp [Memory.write, Memory.read, h]
  | cons c m ih =>
    obtain ⟨d, w⟩ := c
    simp only [Memory.write]
    split
    · simp [Memory.read, h]
    · split
      · rename_i h2
        subst h2
        simp [Memory.read, h]
      · simp [Memory.read, ih]

theorem Memory.read_write (m : Memory β) (a b : Nat) (v : β) :
    Memory.read (Memory.write m a v) b = if b = a then some v else Memory.read m b := by
  split
  · rename_i h
    subst h
    exact Memory.read_write_same m b v
  · rename_i h
    exact Memory.read_write_ne m v h

/-- An entry of a written memory is the written one or was there before. -/
theorem Memory.mem_write {m : Memory β} {a : Nat} {v : β} {c : Nat × β}
    (h : c ∈ Memory.write m a v) : c = (a, v) ∨ c ∈ m := by
  induction m with
  | nil => simpa [Memory.write] using h
  | cons d m ih =>
    obtain ⟨b, w⟩ := d
    simp only [Memory.write] at h
    split at h
    · simpa using h
    · split at h
      · rcases List.mem_cons.1 h with h | h
        · exact .inl h
        · exact .inr (List.mem_cons_of_mem _ h)
      · rcases List.mem_cons.1 h with h | h
        · exact .inr (h ▸ List.mem_cons_self)
        · rcases ih h with h | h
          · exact .inl h
          · exact .inr (List.mem_cons_of_mem _ h)

theorem Memory.write_wf {m : Memory β} (a : Nat) (v : β) (h : Memory.wf m) :
    Memory.wf (Memory.write m a v) := by
  induction m with
  | nil => simp [Memory.write, Memory.wf]
  | cons d m ih =>
    obtain ⟨b, w⟩ := d
    obtain ⟨h1, h2⟩ := List.pairwise_cons.1 h
    simp only [Memory.write]
    split
    · rename_i hab
      refine List.pairwise_cons.2 ⟨?_, h⟩
      intro c hc
      rcases List.mem_cons.1 hc with rfl | hc
      · exact hab
      · exact lt_trans hab (h1 c hc)
    · split
      · rename_i _ hab
        subst hab
        exact List.pairwise_cons.2 ⟨h1, h2⟩
      · rename_i hn hne
        refine List.pairwise_cons.2 ⟨?_, ih h2⟩
        intro c hc
        rcases Memory.mem_write hc with rfl | hc
        · simp only; omega
        · exact h1 c hc

theorem Memory.isSome_write (m : Memory β) (a b : Nat) (v : β) :
    (Memory.read m b).isSome = true → (Memory.read (Memory.write m a v) b).isSome = true := by
  intro h
  rw [Memory.read_write]
  split <;> simp_all

theorem Memory.mem_of_read {m : Memory β} {a : Nat} {v : β} (h : Memory.read m a = some v) :
    (a, v) ∈ m := by
  induction m with
  | nil => simp [Memory.read] at h
  | cons d m ih =>
    obtain ⟨b, w⟩ := d
    simp only [Memory.read] at h
    split at h
    · rename_i hab
      subst hab
      simp_all
    · exact List.mem_cons_of_mem _ (ih h)

@[simp] theorem produce_nil (m : Memory Byte) : produce [] m = m := rfl

theorem produce_append (xs ys : List Host.Cell) (m : Memory Byte) :
    produce (xs ++ ys) m = produce ys (produce xs m) := by
  simp [produce, List.foldl_append]

theorem produce_wf (cells : List Host.Cell) {m : Memory Byte} (h : Memory.wf m) :
    Memory.wf (produce cells m) := by
  induction cells generalizing m with
  | nil => exact h
  | cons c cs ih => exact ih (Memory.write_wf c.1 c.2 h)

/-! ### The copy of a push into an output ring (spec/45_output_ring.md R180) -/

theorem ringWrite_wf (cap off : Nat) (bs : List Byte) (k : Nat) {m : Memory Byte} (h : Memory.wf m) :
    Memory.wf (ringWrite cap off bs k m) := by
  induction bs generalizing k m with
  | nil => exact h
  | cons b bs ih => exact ih (k + 1) (Memory.write_wf _ b h)

theorem ringWrite_mem_lt {cap off : Nat} (hc : 0 < cap) (bs : List Byte) (k : Nat) {m : Memory Byte}
    (h : ∀ c ∈ m, c.1 < cap) : ∀ c ∈ ringWrite cap off bs k m, c.1 < cap := by
  induction bs generalizing k m with
  | nil => exact h
  | cons b bs ih =>
    refine ih (k + 1) ?_
    intro c hcm
    rcases Memory.mem_write hcm with rfl | hcm
    · exact Nat.mod_lt _ hc
    · exact h c hcm

theorem ringWrite_isSome (cap off : Nat) (bs : List Byte) (k : Nat) (m : Memory Byte) (a : Nat)
    (h : (Memory.read m a).isSome = true) : (Memory.read (ringWrite cap off bs k m) a).isSome = true := by
  induction bs generalizing k m with
  | nil => exact h
  | cons b bs ih => exact ih (k + 1) _ (Memory.isSome_write m _ a b h)

/-- Outside the indices written, the copy changes nothing. -/
theorem ringWrite_read_other (cap off : Nat) (bs : List Byte) (k : Nat) (m : Memory Byte) (a : Nat)
    (h : ∀ j, j < bs.length → a ≠ (off + (k + j)) % cap) :
    Memory.read (ringWrite cap off bs k m) a = Memory.read m a := by
  induction bs generalizing k m with
  | nil => rfl
  | cons b bs ih =>
    have h0 : a ≠ (off + k) % cap := by simpa using h 0 (by simp)
    rw [ringWrite, ih (k + 1), Memory.read_write_ne _ _ h0]
    intro j hj
    have := h (j + 1) (by simpa using hj)
    rwa [show k + 1 + j = k + (j + 1) by omega]

/-- A frame shorter than the ring: byte `k` is at index `(off + k) mod cap`. -/
theorem ringWrite_read (cap off : Nat) (bs : List Byte) (k : Nat) (m : Memory Byte) (j : Nat)
    (hj : j < bs.length) (hl : bs.length ≤ cap) :
    Memory.read (ringWrite cap off bs k m) ((off + (k + j)) % cap) = some bs[j] := by
  induction bs generalizing k m j with
  | nil => simp at hj
  | cons b bs ih =>
    have hlen : bs.length + 1 ≤ cap := by simpa using hl
    cases j with
    | zero =>
      rw [ringWrite, ringWrite_read_other, Nat.add_zero, Memory.read_write_same]
      · rfl
      · intro i hi heq
        have h1 : (off + (k + 1 + i)) % cap = (off + k + (1 + i)) % cap := by congr 1; omega
        rw [h1, Nat.add_zero] at heq
        have h2 := (Nat.ModEq.add_left_cancel' (off + k) (show off + k + 0 ≡ off + k + (1 + i) [MOD cap] from heq))
        have h3 : 1 + i < cap := by omega
        have h4 : 0 % cap = (1 + i) % cap := h2
        rw [Nat.zero_mod, Nat.mod_eq_of_lt h3] at h4
        omega
    | succ j =>
      have h1 : k + (j + 1) = k + 1 + j := by omega
      rw [ringWrite, h1]
      exact ih (k + 1) _ j (by simpa using hj) (by omega)

end Sys2Proof.Machine
end

