-- ==== Sys2Proof/Laws/Reads.lean ====
section
/-! SUPPORT. What the reading operations can do, said once for each: how many single-byte reads, which values, and that the producer's schedule is all that moves (spec/20_memory.md R48, R51, R52). -/

namespace Sys2Proof.Machine

/-! ### The schedule -/

@[simp] theorem InputRing.advance_zero (inp : InputRing) : inp.advance 0 = inp := by
  simp [InputRing.advance]

theorem InputRing.advance_add (inp : InputRing) (m n : Nat) :
    (inp.advance m).advance n = inp.advance (m + n) := by
  simp only [InputRing.advance, List.drop_drop, ← produce_append, ← List.flatten_append, InputRing.mk.injEq,
    and_true]
  rw [← List.take_add]

theorem InputRing.readAt_advance (inp : InputRing) (m n a : Nat) :
    (inp.advance m).readAt n a = inp.readAt (m + n) a := by
  simp [InputRing.readAt, InputRing.advance_add]

theorem InputRing.advance_quiet {inp : InputRing} (h : inp.pending = []) (n : Nat) : inp.advance n = inp := by
  obtain ⟨m, p⟩ := inp
  subst h
  simp [InputRing.advance]

theorem InputRing.readAt_quiet {inp : InputRing} (h : inp.pending = []) (n a : Nat) :
    inp.readAt n a = imemByte inp.mem a := by
  rw [InputRing.readAt, InputRing.advance_quiet h]

theorem InputRing.advance_wf {inp : InputRing} (h : Memory.wf inp.mem) (n : Nat) :
    Memory.wf (inp.advance n).mem := produce_wf _ h

/-! ### Single reads and sequences -/

theorem iread_spec (a : Nat) (inp : InputRing) : iread a inp = (inp.readAt 1 a, inp.advance 1) := by
  obtain ⟨m, p⟩ := inp
  cases p <;> simp [iread, InputRing.readAt, InputRing.advance]

theorem rb_spec (g : Geom) (a k : Nat) (inp : InputRing) :
    rb g a k inp = (inp.readAt 1 (g.wrap (a + k)), inp.advance 1) := iread_spec _ _

theorem readSeq_spec (addr : Nat → Nat) (n k : Nat) (inp : InputRing) :
    readSeq addr n k inp =
      ((List.range n).map (fun j => inp.readAt (j + 1) (addr (k + j))), inp.advance n) := by
  induction n generalizing k inp with
  | zero => simp [readSeq]
  | succ n ih =>
    simp only [readSeq, iread_spec, ih, InputRing.advance_add, InputRing.readAt_advance, List.range_succ_eq_map,
      List.map_cons, List.map_map, Nat.add_zero, Nat.zero_add]
    refine Prod.ext ?_ ?_
    · simp only [List.cons.injEq, true_and]
      apply List.map_congr_left
      intro j _
      simp only [Function.comp, Nat.succ_eq_add_one]
      congr 1
      · omega
      · congr 1; omega
    · simp only; congr 1; omega

theorem memRead_spec (a n : Nat) (inp : InputRing) :
    memRead a n inp =
      (leBytes ((List.range n).map (fun j => inp.readAt (j + 1) (a + j))), inp.advance n) := by
  simp [memRead, readSeq_spec]

theorem copyBytes_spec (g : Geom) (a n : Nat) (inp : InputRing) :
    copyBytes g a n inp =
      ((List.range n).map (fun j => inp.readAt (j + 1) (g.wrap (a + j))), inp.advance n) := by
  simp [copyBytes, readSeq_spec]

theorem headerField_spec (g : Geom) (h o n : Nat) (inp : InputRing) :
    headerField g h o n inp =
      (leBytes ((List.range n).map (fun j => inp.readAt (j + 1) (g.wrap (h + (o + j))))), inp.advance n) := by
  simp [headerField, readSeq_spec]

/-- `decode_hdr` makes 16 reads, and these are its fields (spec/42_header_codec.md R122). -/
theorem decodeHdr_spec (g : Geom) (l : Layout) (h : Nat) (inp : InputRing) :
    decodeHdr g l h inp =
      (let f := fun (at_ o n : Nat) =>
        leBytes ((List.range n).map (fun j => inp.readAt (at_ + (j + 1)) (g.wrap (h + (o + j)))))
       { length := BitVec.ofNat 32 (f 0 0 4)
         sequenceCounter := BitVec.ofNat 32 (f 4 4 4)
         captureTime := BitVec.ofNat 32 (f 8 l.timeOff 4)
         streamType := BitVec.ofNat 16 (f 12 l.typeOff 2)
         streamCounter := BitVec.ofNat 16 (f 14 l.counterOff 2) }, inp.advance 16) := by
  simp only [decodeHdr, headerField_spec, InputRing.advance_add, InputRing.readAt_advance, Nat.zero_add,
    Nat.reduceAdd]

/-! ### Search and compare -/

/-- A comparison with a pattern reads at most its length; when it reports a match every byte was read as
the pattern's. -/
theorem matchAt_spec (g : Geom) (src : Nat) (pat : List Byte) (k : Nat) (inp : InputRing) :
    ∃ n, n ≤ pat.length ∧ (matchAt g src pat k inp).2 = inp.advance n ∧
      ((matchAt g src pat k inp).1 = true →
        ∀ j, ∀ h : j < pat.length, inp.readAt (j + 1) (g.wrap (src + (k + j))) = pat[j]) := by
  induction pat generalizing k inp with
  | nil => exact ⟨0, by simp, by simp [matchAt], by simp⟩
  | cons p ps ih =>
    simp only [matchAt, rb_spec]
    split
    · rename_i hb
      obtain ⟨n, hn, h2, h3⟩ := ih (k + 1) (inp.advance 1)
      refine ⟨1 + n, by simp; omega, by rw [h2, InputRing.advance_add], ?_⟩
      intro ht j hj
      cases j with
      | zero => simpa using hb
      | succ j =>
        have hj' : j < ps.length := by simpa using hj
        have := h3 ht j hj'
        rw [InputRing.readAt_advance, show k + 1 + j = k + (j + 1) by omega,
          show 1 + (j + 1) = j + 1 + 1 by omega] at this
        simpa using this
    · exact ⟨1, by simp, rfl, by simp⟩

/-- The search loop: it reads some bytes, and a reported address is a position whose bytes were all read
as the pattern's. -/
theorem findFrom_spec (g : Geom) (src : Nat) (pat : List Byte) (n k : Nat) (inp : InputRing) :
    ∃ r, r ≤ n * pat.length ∧ (findFrom g src pat n k inp).2 = inp.advance r ∧
      ∀ a, (findFrom g src pat n k inp).1 = some a →
        ∃ i q, k ≤ i ∧ i < k + n ∧ a = g.wrap (src + i) ∧
          ∀ j, ∀ h : j < pat.length, inp.readAt (q + (j + 1)) (g.wrap (src + (i + j))) = pat[j] := by
  induction n generalizing k inp with
  | zero => exact ⟨0, by simp, by simp [findFrom], by simp [findFrom]⟩
  | succ n ih =>
    obtain ⟨r1, hr1, h2, h3⟩ := matchAt_spec g src pat k inp
    simp only [findFrom]
    split
    · rename_i hit
      refine ⟨r1, by rw [Nat.succ_mul]; omega, h2, ?_⟩
      intro a ha
      refine ⟨k, 0, le_refl _, by omega, by simpa using ha.symm, ?_⟩
      intro j hj
      simpa using h3 hit j hj
    · obtain ⟨r2, hr2, h4, h5⟩ := ih (k + 1) (inp.advance r1)
      refine ⟨r1 + r2, by rw [Nat.succ_mul]; omega, by rw [h2, h4, InputRing.advance_add], ?_⟩
      intro a ha
      rw [h2] at ha
      obtain ⟨i, q, h6, h7, h8, h9⟩ := h5 a ha
      refine ⟨i, r1 + q, by omega, by omega, h8, ?_⟩
      intro j hj
      have := h9 j hj
      rwa [InputRing.readAt_advance, ← Nat.add_assoc] at this

/-- `find_win` under any producer (spec/41_ring_locator.md R105). -/
theorem findWin_spec (g : Geom) (src len : Nat) (pat : List Byte) (inp : InputRing) :
    ∃ r, (findWin g src len pat inp).2 = inp.advance r ∧
      ∀ a, (findWin g src len pat inp).1 = some a →
        ∃ i q, i + pat.length ≤ len ∧ a = g.wrap (src + i) ∧
          ∀ j, ∀ h : j < pat.length, inp.readAt (q + (j + 1)) (g.wrap (src + (i + j))) = pat[j] := by
  simp only [findWin]
  split
  · exact ⟨0, by simp, by simp⟩
  · obtain ⟨r, -, h1, h2⟩ := findFrom_spec g src pat (len - pat.length + 1) 0 inp
    refine ⟨r, h1, ?_⟩
    intro a ha
    obtain ⟨i, q, -, h3, h4, h5⟩ := h2 a ha
    exact ⟨i, q, by omega, h4, h5⟩

/-- `cmp_bytes` under any producer: the first position whose byte differed decides (R107). -/
theorem cmpBytes_spec (g : Geom) (a : Nat) (loc : List Byte) (k : Nat) (inp : InputRing) :
    ((∀ j, ∀ h : j < loc.length, inp.readAt (j + 1) (g.wrap (a + (k + j))) = loc[j]) ∧
      cmpBytes g a loc k inp = (.eq, inp.advance loc.length)) ∨
    ∃ i, ∃ h : i < loc.length,
      (∀ j, ∀ h : j < i, inp.readAt (j + 1) (g.wrap (a + (k + j))) = loc[j]) ∧
      inp.readAt (i + 1) (g.wrap (a + (k + i))) ≠ loc[i] ∧
      cmpBytes g a loc k inp =
        (if loc[i].toNat < (inp.readAt (i + 1) (g.wrap (a + (k + i)))).toNat then .lt else .gt,
          inp.advance (i + 1)) := by
  induction loc generalizing k inp with
  | nil => exact .inl ⟨by simp, by simp [cmpBytes]⟩
  | cons l ls ih =>
    simp only [cmpBytes, rb_spec]
    by_cases hlt : l.toNat < (inp.readAt 1 (g.wrap (a + k))).toNat
    · refine .inr ⟨0, by simp, by simp, ?_, ?_⟩
      · intro h; simp at h; simp [h] at hlt
      · simp [hlt]
    · by_cases hgt : (inp.readAt 1 (g.wrap (a + k))).toNat < l.toNat
      · refine .inr ⟨0, by simp, by simp, ?_, ?_⟩
        · intro h; simp at h; simp [h] at hgt
        · simp [hlt, hgt]
      · have heq : inp.readAt 1 (g.wrap (a + k)) = l := BitVec.eq_of_toNat_eq (by omega)
        rw [if_neg hlt, if_neg hgt]
        rcases ih (k + 1) (inp.advance 1) with ⟨h1, h2⟩ | ⟨i, hi, h1, h2, h3⟩
        · left
          refine ⟨?_, by rw [h2, InputRing.advance_add, List.length_cons, Nat.add_comm]⟩
          intro j hj
          cases j with
          | zero => simpa using heq
          | succ j =>
            have := h1 j (by simpa using hj)
            rw [InputRing.readAt_advance, show k + 1 + j = k + (j + 1) by omega, Nat.add_comm 1] at this
            simpa using this
        · right
          refine ⟨i + 1, by simpa using hi, ?_, ?_, ?_⟩
          · intro j hj
            cases j with
            | zero => simpa using heq
            | succ j =>
              have := h1 j (by omega)
              rw [InputRing.readAt_advance, show k + 1 + j = k + (j + 1) by omega, Nat.add_comm 1] at this
              simpa using this
          · rw [InputRing.readAt_advance, show k + 1 + i = k + (i + 1) by omega, Nat.add_comm 1] at h2
            simpa using h2
          · rw [h3, InputRing.readAt_advance, InputRing.advance_add, show k + 1 + i = k + (i + 1) by omega,
              Nat.add_comm 1]
            simp

/-- A comparison with a pattern, read by read: either every byte read was the pattern's, or the last one was the
first that was not. -/
theorem matchAt_trace (g : Geom) (src : Nat) (pat : List Byte) (k : Nat) (inp : InputRing) :
    (matchAt g src pat k inp = (true, inp.advance pat.length) ∧
      ∀ j, j < pat.length → pat[j]? = some (inp.readAt (j + 1) (g.wrap (src + (k + j))))) ∨
    ∃ j, j < pat.length ∧
      (∀ i, i < j → pat[i]? = some (inp.readAt (i + 1) (g.wrap (src + (k + i))))) ∧
      pat[j]? ≠ some (inp.readAt (j + 1) (g.wrap (src + (k + j)))) ∧
      matchAt g src pat k inp = (false, inp.advance (j + 1)) := by
  have shift : ∀ i, k + 1 + i = k + (i + 1) := by omega
  induction pat generalizing k inp with
  | nil => left; simp [matchAt]
  | cons p ps ih =>
    simp only [matchAt, rb_spec]
    by_cases hb : inp.readAt 1 (g.wrap (src + k)) = p
    · simp only [hb, if_true]
      have step : ∀ i, ps[i]? = some ((inp.advance 1).readAt (i + 1) (g.wrap (src + (k + 1 + i)))) ↔
          (p :: ps)[i + 1]? = some (inp.readAt (i + 1 + 1) (g.wrap (src + (k + (i + 1))))) := by
        intro i
        rw [InputRing.readAt_advance, shift, Nat.add_comm 1 (i + 1)]; simp
      have first : (p :: ps)[0]? = some (inp.readAt (0 + 1) (g.wrap (src + (k + 0)))) := by simpa using hb.symm
      have upto : ∀ n, (∀ i, i < n → ps[i]? = some ((inp.advance 1).readAt (i + 1) (g.wrap (src + (k + 1 + i))))) →
          ∀ i, i < n + 1 → (p :: ps)[i]? = some (inp.readAt (i + 1) (g.wrap (src + (k + i)))) := by
        intro n h i hi
        cases i with
        | zero => exact first
        | succ i => exact (step i).1 (h i (by omega))
      rcases ih (k + 1) (inp.advance 1) (by omega) with ⟨h1, h2⟩ | ⟨j, h1, h2, h3, h4⟩
      · exact .inl ⟨by rw [h1, InputRing.advance_add, Nat.add_comm 1]; rfl, upto _ h2⟩
      · exact .inr ⟨j + 1, by simpa using h1, upto _ h2, fun h => h3 ((step j).2 h),
          by rw [h4, InputRing.advance_add, Nat.add_comm 1]⟩
    · right
      simp only [hb, if_false]
      exact ⟨0, by simp, by simp, by simpa using fun h => hb h.symm, by simp⟩

/-- The search loop, position by position: `start i` reads precede position `k + i`. -/
theorem findFrom_trace (g : Geom) (src : Nat) (pat : List Byte) (n k : Nat) (inp : InputRing) :
    ∃ start : Nat → Nat, start 0 = 0 ∧
      let equal := fun i j => pat[j]? = some (inp.readAt (start i + (j + 1)) (g.wrap (src + (k + i + j))))
      let misses := fun i => ∃ j, j < pat.length ∧ start (i + 1) = start i + (j + 1) ∧
        (∀ l, l < j → equal i l) ∧ ¬ equal i j
      ((∀ i, i < n → misses i) ∧ findFrom g src pat n k inp = (none, inp.advance (start n))) ∨
      ∃ i, i < n ∧ (∀ l, l < i → misses l) ∧ (∀ j, j < pat.length → equal i j) ∧
        findFrom g src pat n k inp = (some (g.wrap (src + (k + i))), inp.advance (start i + pat.length)) := by
  induction n generalizing k inp with
  | zero => exact ⟨fun _ => 0, rfl, .inl ⟨fun i h => absurd h (by omega), by simp [findFrom]⟩⟩
  | succ n ih =>
    rcases matchAt_trace g src pat k inp with ⟨h1, h2⟩ | ⟨j, h1, h2, h3, h4⟩
    · refine ⟨fun _ => 0, rfl, .inr ⟨0, by omega, fun l h => absurd h (by omega), ?_, ?_⟩⟩
      · simpa using h2
      · simp [findFrom, h1]
    · obtain ⟨start, hs, hcase⟩ := ih (k + 1) (inp.advance (j + 1))
      refine ⟨fun i => match i with | 0 => 0 | i + 1 => j + 1 + start i, rfl, ?_⟩
      have hrd : ∀ q a, (inp.advance (j + 1)).readAt q a = inp.readAt (j + 1 + q) a := fun q a => InputRing.readAt_advance ..
      have hk : ∀ i l, k + 1 + i + l = k + (i + 1) + l := by omega
      have hadd : ∀ i l, j + 1 + (start i + (l + 1)) = j + 1 + start i + (l + 1) := by omega
      simp only [hrd, hk, hadd, InputRing.advance_add] at hcase
      have miss0 : ∃ j', j' < pat.length ∧ j + 1 + start 0 = 0 + (j' + 1) ∧
          (∀ l, l < j' → pat[l]? = some (inp.readAt (0 + (l + 1)) (g.wrap (src + (k + 0 + l))))) ∧
          ¬ pat[j']? = some (inp.readAt (0 + (j' + 1)) (g.wrap (src + (k + 0 + j')))) :=
        ⟨j, h1, by omega, by simpa using h2, by simpa using h3⟩
      rcases hcase with ⟨m1, m2⟩ | ⟨i, m1, m2, m3, m4⟩
      · refine .inl ⟨fun i hi => ?_, ?_⟩
        · cases i with
          | zero => exact miss0
          | succ i =>
            obtain ⟨j', a, b, c, d⟩ := m1 i (by omega)
            exact ⟨j', a, by simp only; omega, c, d⟩
        · simp only [findFrom, h4]; exact m2
      · refine .inr ⟨i + 1, by omega, fun l hl => ?_, m3, ?_⟩
        · cases l with
          | zero => exact miss0
          | succ l =>
            obtain ⟨j', a, b, c, d⟩ := m2 l (by omega)
            exact ⟨j', a, by simp only; omega, c, d⟩
        · simp only [findFrom, h4, Bool.false_eq_true, if_false, m4]
          rw [show k + 1 + i = k + (i + 1) by omega, ← Nat.add_assoc (j + 1)]

/-- The rewriter's table lookup makes `n` reads if some usable entry has the frame's length, else none, and
picks the first such entry whose bytes are the bytes read (spec/44_sps_emit.md R172). -/
theorem spsMatch_eq (g : Geom) (a n : Nat) (es : List (SpsEntry Config.params)) (inp : InputRing) :
    spsMatch g a n es inp =
      if es.any (fun e => e.fitsLength n) then
        (es.find? (fun e => e.fitsLength n &&
          decide (e.patternBytes = (List.range n).map (fun k => inp.readAt (k + 1) (g.wrap (a + k))))),
          inp.advance n)
      else (none, inp) := by
  simp only [spsMatch, copyBytes_spec]

/-- The lookup's frame: it reads at most `n` bytes (spec/70_reset_and_hazards.md R260), and an entry it picks is
one of the table's, usable and of the frame's length. -/
theorem spsMatch_spec (g : Geom) (a n : Nat) (es : List (SpsEntry Config.params)) (inp : InputRing) :
    ∃ r, r ≤ n ∧ (spsMatch g a n es inp).2 = inp.advance r ∧
      ∀ e, (spsMatch g a n es inp).1 = some e → e ∈ es ∧ e.usable = true ∧ e.mlen.toNat = n := by
  rw [spsMatch_eq]
  split
  · refine ⟨n, le_rfl, rfl, fun e he => ⟨List.mem_of_find?_eq_some he, ?_⟩⟩
    have := List.find?_some he
    simp only [SpsEntry.fitsLength, Bool.and_eq_true, decide_eq_true_eq] at this
    exact this.1
  · exact ⟨0, Nat.zero_le n, by simp, by simp⟩

/-- The length test of the lookup is `ofLength` (spec/10_state.md R23). -/
theorem SpsEntry.fitsLength_iff (e : SpsEntry Config.params) (n : Nat) : e.fitsLength n = true ↔ e.ofLength n := by
  simp only [SpsEntry.fitsLength, SpsEntry.usable, SpsEntry.ofLength, Bool.and_eq_true, decide_eq_true_eq]
  tauto

/-- The rewriter's lookup in the terms of the claims (R172): the first usable entry that is the frame, or none. -/
theorem State.spsMatch_first (s : State) (a n : Nat) :
    (∀ e, s.firstSps (s.bytesRead a n) e →
      spsMatch s.geom a n s.spslut.toList s.input = (some e, s.input.advance n)) ∧
    ((∀ e, ¬ s.firstSps (s.bytesRead a n) e) →
      spsMatch s.geom a n s.spslut.toList s.input = (none, s.input.advance (s.spsReads n))) := by
  have hlen : (s.bytesRead a n).length = n := by simp [Parametric.State.bytesRead]
  have hp : ∀ e : SpsEntry Config.params, (e.fitsLength n && decide (e.patternBytes = s.bytesRead a n)) = true ↔
      (e.ofLength n ∧ e.pattern.toList.take n = s.bytesRead a n) := by
    intro e
    rw [Bool.and_eq_true, decide_eq_true_eq, SpsEntry.fitsLength_iff, and_congr_right_iff]
    rintro ⟨-, -, -, h⟩
    rw [SpsEntry.patternBytes, h]
  have hany : s.spslut.toList.any (fun e => e.fitsLength n) = true ↔ ∃ e ∈ s.spslut.toList, e.ofLength n := by
    simp only [List.any_eq_true, SpsEntry.fitsLength_iff]
  rw [spsMatch_eq]
  simp only [Parametric.State.firstSps, hlen]
  refine ⟨?_, fun hnone => ?_⟩
  · rintro e ⟨before, after, heq, hb, he⟩
    rw [if_pos (hany.2 ⟨e, by simp [heq], he.1⟩)]
    congr 1
    rw [List.find?_eq_some_iff_append]
    exact ⟨(hp e).2 he, before, after, heq, fun b h => by
      rw [Bool.not_eq_true', Bool.eq_false_iff]; exact mt (hp b).1 (hb b h)⟩
  · have hfind : s.spslut.toList.find? (fun e => e.fitsLength n && decide (e.patternBytes = s.bytesRead a n)) = none := by
      by_contra hc
      obtain ⟨e, he⟩ := Option.ne_none_iff_exists'.1 hc
      obtain ⟨h, before, after, heq, hb⟩ := List.find?_eq_some_iff_append.1 he
      exact hnone e ⟨before, after, heq, fun b hm hf => by
        have := hb b hm
        rw [Bool.not_eq_true', Bool.eq_false_iff] at this
        exact this ((hp b).2 hf), (hp e).1 h⟩
    simp only [Parametric.State.spsReads]
    split <;> rename_i h
    · rw [if_pos (hany.1 h)]; exact congrArg (·, _) hfind
    · rw [if_neg (mt hany.2 h)]; simp

/-- `sample_chain` makes 12 reads: offset, length, echo (spec/43_demux.md R145). -/
theorem sampleChain_spec (g : Geom) (inp : InputRing) :
    (sampleChain g inp).2 = inp.advance 12 ∧
      ∀ a, (sampleChain g inp).1 = some a → g.off ≤ a ∧ a < g.off + g.span := by
  simp only [sampleChain, memRead_spec, InputRing.advance_add, Nat.reduceAdd, true_and]
  intro a ha
  split at ha
  · simp at ha
  · rename_i h
    simp only [Option.some.injEq] at ha
    omega

/-- `sample_scan` makes 4 reads (R146). -/
theorem sampleScan_spec (g : Geom) (inp : InputRing) :
    (sampleScan g inp).2 = inp.advance 4 ∧
      ∀ a, (sampleScan g inp).1 = some a → g.off ≤ a ∧ a < g.off + g.span := by
  simp only [sampleScan, memRead_spec, true_and]
  intro a ha
  split at ha
  · simp at ha
  · simp only [Option.some.injEq] at ha
    omega

/-- The walk reads the input ring and nothing else (R160). -/
theorem walk_spec (g : Geom) (l : Layout) (hs stop left p : Nat) (tab : List (Nat × Hdr)) (inp : InputRing) :
    ∃ r, (walk g l hs stop left p tab inp).2 = inp.advance r := by
  induction left generalizing p tab inp with
  | zero =>
    simp only [walk]
    split <;> exact ⟨0, by simp⟩
  | succ left ih =>
    simp only [walk, decodeHdr_spec]
    split
    · exact ⟨0, by simp⟩
    · split
      · exact ⟨16, rfl⟩
      · obtain ⟨r, hr⟩ := ih _ _ (inp.advance 16)
        exact ⟨16 + r, by rw [hr, InputRing.advance_add]⟩

end Sys2Proof.Machine
end

