-- ==== Sys2Proof/Laws/Ops.lean ====
section
/-! SUPPORT. What each shared operation can do, said once: results and everything it leaves alone. -/

namespace Sys2Proof.Machine

/-! ### Events and outcome codes -/

theorem Event.mask_lt (e : Event) : e.mask.toNat < 4096 := by cases e <;> decide

theorem Event.or_lt {v w : Word} (hv : v.toNat < 4096) (hw : w.toNat < 4096) : (v ||| w).toNat < 4096 := by
  rw [BitVec.toNat_or]
  exact Nat.or_lt_two_pow (n := 12) hv hw

/-! ### Sequence tracking (spec/43_demux.md R134, R137, R140) -/

/-- The distance is the counters' difference modulo `CTR_MOD`, and below it (R134). -/
theorem counterDistance_spec (c last : Half) (P : Params) (h : 0 < P.ctrMod) :
    (counterDistance c last P : Int) = ((c.toNat : Int) - last.toNat) % P.ctrMod ∧
      counterDistance c last P < P.ctrMod := by
  have h1 := Int.emod_nonneg ((c.toNat : Int) - last.toNat) (b := P.ctrMod) (by omega)
  have h2 := Int.emod_lt_of_pos ((c.toNat : Int) - last.toNat) (b := P.ctrMod) (by omega)
  simp only [counterDistance]
  omega

/-- The loss is the distance less one (R137). -/
theorem lostFrames_eq (c last : Half) (P : Params) (h : 0 < P.ctrMod) :
    lostFrames c last P = counterDistance c last P - 1 := by
  rw [(counterDistance_spec c last P h).1, lostFrames, Int.add_sub_assoc, Int.add_emod_left]

/-- With the default modulus the distance is the difference of the 16-bit counters. -/
theorem counterDistance_eq_sub (c last : Half) : counterDistance c last = (c - last).toNat := by
  have h := (counterDistance_spec c last Config.params (by decide)).1
  have h1 := c.isLt
  have h2 := last.isLt
  rw [show (Config.params.ctrMod : Int) = 65536 from rfl] at h
  rw [BitVec.toNat_sub]
  omega

/-- The four things `seq_window` can do (R134). -/
theorem seqWindow_cases (st : StreamId) (c : Half) (s : State) :
    let r := s.resync.get st
    let d := counterDistance c r.lastValid
    (r.lvSet = false ∧ seqWindow st c s =
      (.ok, 0, s.setResync st { r with lastValid := c, lvSet := true, invRun := 0 })) ∨
    (r.lvSet = true ∧ inWindow d = true ∧ seqWindow st c s =
      (.ok, d, s.setResync st { r with lastValid := c, invRun := 0 })) ∨
    (r.lvSet = true ∧ inWindow d = false ∧ 40 < (r.invRun + 1).toNat ∧ seqWindow st c s =
      (.resync, d, ((s.raise .seqAnom).setResync st
        { r with lastValid := c, invRun := 0, syncLost := r.syncLost + 1 }).raise .syncLost)) ∨
    (r.lvSet = true ∧ inWindow d = false ∧ (r.invRun + 1).toNat ≤ 40 ∧ seqWindow st c s =
      (.suppressed, d, (s.raise .seqAnom).setResync st { r with invRun := r.invRun + 1 })) := by
  simp only [seqWindow]
  by_cases h1 : (s.resync.get st).lvSet = false
  · left; simp [h1]
  · right
    have h1' : (s.resync.get st).lvSet = true := by simpa using h1
    by_cases h2 : inWindow (counterDistance c (s.resync.get st).lastValid) = true
    · left; simp [h1', h2]
    · right
      have h2' : inWindow (counterDistance c (s.resync.get st).lastValid) = false := by simpa using h2
      by_cases h3 : 40 < ((s.resync.get st).invRun + 1).toNat
      · left
        refine ⟨h1', h2', h3, ?_⟩
        simp only [h1', h2', Config.params, h3, if_true]
        simp
      · right
        refine ⟨h1', h2', by omega, ?_⟩
        simp only [h1', h2', Config.params, h3, if_false]
        simp

/-- What a sequence check leaves alone: it writes the stream's resync state and raises at most some of
`EV_SEQ_ANOM`, `EV_SYNC_LOST`, `EV_LOSS` (R140). -/
theorem seqCheck_frame (v : Variant) (st : StreamId) (c : Half) (s : State) :
    ∃ r ev, (seqCheck v st c s).2 = { s with resync := s.resync.set st r, event := s.event ||| ev } ∧
      ev.toNat < 4096 := by
  have hz : ∀ r : Resync, s.setResync st r =
      { s with resync := s.resync.set st r, event := s.event ||| 0#32 } := fun r => by simp [Parametric.State.setResync]
  simp only [seqCheck]
  split
  · rcases seqWindow_cases st c s with ⟨-, h⟩ | ⟨-, -, h⟩ | ⟨-, -, -, h⟩ | ⟨-, -, -, h⟩ <;> rw [h]
    · exact ⟨_, 0#32, hz _, by decide⟩
    · exact ⟨_, 0#32, hz _, by decide⟩
    · exact ⟨_, Event.seqAnom.mask ||| Event.syncLost.mask, by rw [← BitVec.or_assoc]; rfl, by decide⟩
    · exact ⟨_, Event.seqAnom.mask, rfl, by decide⟩
  · simp only [seqLoss]
    split
    · exact ⟨_, 0#32, hz _, by decide⟩
    · split
      · exact ⟨_, Event.loss.mask, rfl, by decide⟩
      · exact ⟨_, 0#32, hz _, by decide⟩

/-! ### Output rings (spec/45_output_ring.md R180, R184) -/

/-- The three things `push` can do (R180). -/
theorem push_cases (o : StreamId) (bytes : List Byte) (sq : Word) (s : State) :
    let r := s.ring.get o
    (bytes.length = 0 ∧ push o bytes sq s = (.error .dropLen, s.raise .dropLen)) ∨
    (0 < bytes.length ∧ r.cap.toNat ≤ bytes.length ∧
      push o bytes sq s = (.error .tooBig, s.raise .tooBig)) ∨
    (0 < bytes.length ∧ bytes.length < r.cap.toNat ∧
      push o bytes sq s = (.ok { size := toWord bytes.length, off := r.owr, slot := r.fwr },
        s.setRing o (r.store bytes sq))) := by
  simp only [push]
  by_cases h1 : bytes.length = 0
  · left; simp [h1]
  · right
    have h1' : 0 < bytes.length := by omega
    by_cases h2 : (s.ring.get o).cap.toNat ≤ bytes.length
    · left; simp [h1, h2, h1']
    · right; simp [h1, h2, h1']; omega

/-- The two things POP can do (R184, R185). -/
theorem popCommand_cases (p : Port) (o : StreamId) (s : State) :
    let r := s.ring.get o
    (r.frd = r.fwr ∧ popCommand p o s = s.finish p .empty) ∨
    (r.frd ≠ r.fwr ∧ popCommand p o s =
      ((((s.setRing o { r with frd := toWord ((r.frd.toNat + 1) % 42) }).setResults3 p
        (s.descAt o r.frd.toNat).size (s.descAt o r.frd.toNat).seq (s.descAt o r.frd.toNat).off).setDataOut p
        (s.descBytes o (s.descAt o r.frd.toNat))).finish p .ok)) := by
  simp only [popCommand]
  by_cases h : (s.ring.get o).frd = (s.ring.get o).fwr
  · left; simp [h]
  · right; simp [h]

/-! ### Emission and delivery (spec/44_sps_emit.md R171, spec/43_demux.md R142) -/

/-- What `emit` can do (R171): it reads the input ring, and either refuses with one event or stores one
frame in ring `st`. -/
theorem emit_cases (st : StreamId) (a n : Nat) (sq : Word) (isSps : Bool) (s : State) :
    ∃ k, (∃ c e, emit st a n sq isSps s = (.error c, Parametric.State.raise { s with input := s.input.advance k } e) ∧
        ((c = .dropLen ∧ e = .dropLen) ∨ (c = .spsUnknown ∧ e = .spsUnknown) ∨ (c = .tooBig ∧ e = .tooBig))) ∨
      ∃ bytes : List Byte, 0 < bytes.length ∧ bytes.length < (s.ring.get st).cap.toNat ∧
        emit st a n sq isSps s =
          (.ok { size := toWord bytes.length, off := (s.ring.get st).owr, slot := (s.ring.get st).fwr },
            Parametric.State.setRing { s with input := s.input.advance k } st ((s.ring.get st).store bytes sq)) := by
  simp only [emit]
  split
  · exact ⟨0, .inl ⟨.dropLen, .dropLen, by simp, by simp⟩⟩
  · split
    · obtain ⟨k, -, hk, -⟩ := spsMatch_spec s.geom a n s.spslut.toList s.input
      rcases hm : spsMatch s.geom a n s.spslut.toList s.input with ⟨e, inp⟩
      rw [hm] at hk
      simp only at hk
      subst hk
      cases e with
      | none => exact ⟨k, .inl ⟨_, _, rfl, by simp⟩⟩
      | some e =>
        rcases push_cases st e.replBytes sq { s with input := s.input.advance k } with
          ⟨-, h⟩ | ⟨-, -, h⟩ | ⟨h1, h2, h⟩
        · exact ⟨k, .inl ⟨_, _, h, by simp⟩⟩
        · exact ⟨k, .inl ⟨_, _, h, by simp⟩⟩
        · exact ⟨k, .inr ⟨_, h1, h2, h⟩⟩
    · simp only [copyBytes_spec]
      rcases push_cases st ((List.range n).map (fun j => s.input.readAt (j + 1) (s.geom.wrap (a + j)))) sq
          { s with input := s.input.advance n } with ⟨-, h⟩ | ⟨-, -, h⟩ | ⟨h1, h2, h⟩
      · exact ⟨n, .inl ⟨_, _, h, by simp⟩⟩
      · exact ⟨n, .inl ⟨_, _, h, by simp⟩⟩
      · exact ⟨n, .inr ⟨_, h1, h2, h⟩⟩

/-- A ring is as before, or has had one frame stored in it. -/
def OutRing.pushed (r r' : OutRing) : Prop :=
  r' = r ∨ ∃ (bytes : List Byte) (sq : Word), 0 < bytes.length ∧ bytes.length < r.cap.toNat ∧ r' = r.store bytes sq

/-- What `emit` pushes (R171): the bytes read, or with the rewriter on the replacement of the first entry that is
the frame; without one it reports an unknown SPS. -/
theorem emit_pushes (st : StreamId) (a n : Nat) (sq : Word) (isSps : Bool) (s : State) (h : 0 < n) :
    (¬(isSps = true ∧ s.spsRw = true) →
      emit st a n sq isSps s = push st (s.bytesRead a n) sq (s.setInput (s.input.advance n))) ∧
    (isSps = true → s.spsRw = true →
      (∀ e, s.firstSps (s.bytesRead a n) e →
        emit st a n sq isSps s = push st e.replBytes sq (s.setInput (s.input.advance n))) ∧
      ((∀ e, ¬ s.firstSps (s.bytesRead a n) e) →
        emit st a n sq isSps s =
          (.error .spsUnknown, (s.setInput (s.input.advance (s.spsReads n))).raise .spsUnknown))) := by
  have hn : n ≠ 0 := by omega
  refine ⟨fun h1 => ?_, fun h1 h2 => ⟨fun e he => ?_, fun he => ?_⟩⟩
  · rw [emit, if_neg hn, if_neg h1, copyBytes_spec]; rfl
  · rw [emit, if_neg hn, if_pos ⟨h1, h2⟩, (s.spsMatch_first a n).1 e he]
  · rw [emit, if_neg hn, if_pos ⟨h1, h2⟩, (s.spsMatch_first a n).2 he]

/-- What `emit` leaves alone. -/
theorem emit_frame (st : StreamId) (a n : Nat) (sq : Word) (isSps : Bool) (s : State) :
    ∃ k ev r, (emit st a n sq isSps s).2 =
        { s with input := s.input.advance k, event := s.event ||| ev, ring := s.ring.set st r } ∧
      ev.toNat < 4096 ∧ (s.ring.get st).pushed r := by
  obtain ⟨k, ⟨c, e, h, -⟩ | ⟨bytes, h1, h2, h⟩⟩ := emit_cases st a n sq isSps s
  · refine ⟨k, e.mask, s.ring.get st, ?_, e.mask_lt, .inl rfl⟩
    rw [h, PerStream.set_get_self]; rfl
  · refine ⟨k, 0, (s.ring.get st).store bytes sq, ?_, by decide, .inr ⟨bytes, sq, h1, h2, rfl⟩⟩
    rw [h]
    simp [Parametric.State.setRing]

/-- What `deliver` leaves alone (R142): it reads the input ring, and writes resync state, events and
output rings only. -/
theorem deliver_frame (v : Variant) (h : Hdr) (pay : Nat) (isSps : Bool) (s : State) :
    ∃ k rs ev rg, (deliver v h pay isSps s).2 =
        { s with input := s.input.advance k, resync := rs, event := s.event ||| ev, ring := rg } ∧
      ev.toNat < 4096 ∧ ∀ o, (s.ring.get o).pushed (rg.get o) := by
  have hrefl : ∀ o, (s.ring.get o).pushed (s.ring.get o) := fun _ => .inl rfl
  simp only [deliver]
  split
  · exact ⟨0, s.resync, Event.misclass.mask, s.ring, by simp [Parametric.State.raise], by decide, hrefl⟩
  · rename_i st _
    split
    · exact ⟨0, s.resync, 0, s.ring, by simp, by decide, hrefl⟩
    · obtain ⟨r, ev, hs, hev⟩ := seqCheck_frame v st h.streamCounter s
      rcases hc : seqCheck v st h.streamCounter s with ⟨code, s1⟩
      rw [hc] at hs
      simp only at hs
      have hstop : ∃ k rs ev rg, s1 =
          { s with input := s.input.advance k, resync := rs, event := s.event ||| ev, ring := rg } ∧
          ev.toNat < 4096 ∧ ∀ o, (s.ring.get o).pushed (rg.get o) :=
        ⟨0, s.resync.set st r, ev, s.ring, by rw [hs]; simp, hev, hrefl⟩
      split
      · rename_i heq
        simp only [Prod.mk.injEq] at heq
        obtain ⟨-, rfl⟩ := heq
        have hemit : ∀ a n f, ∃ k rs ev rg, (emit st a n h.sequenceCounter f s1).2 =
            { s with input := s.input.advance k, resync := rs, event := s.event ||| ev, ring := rg } ∧
            ev.toNat < 4096 ∧ ∀ o, (s.ring.get o).pushed (rg.get o) := by
          intro a n f
          obtain ⟨k, ev2, r2, he, hev2, hp⟩ := emit_frame st a n h.sequenceCounter f s1
          refine ⟨k, s.resync.set st r, ev ||| ev2, s.ring.set st r2, ?_, Event.or_lt hev hev2, ?_⟩
          · rw [he, hs]
            simp [BitVec.or_assoc]
          · intro o
            by_cases ho : o = st
            · subst ho
              rw [PerStream.get_set_same]
              simpa [hs] using hp
            · rw [PerStream.get_set_ne _ _ ho]
              exact .inl rfl
        simp only [deliverPayload]
        split
        · split
          · refine ⟨0, s.resync.set st r, ev ||| Event.dropLen.mask, s.ring, ?_, Event.or_lt hev (by decide), hrefl⟩
            rw [hs]
            simp [Parametric.State.raise, BitVec.or_assoc]
          · exact hemit _ _ _
        · exact hemit _ _ _
      · rename_i heq
        simp only [Prod.mk.injEq] at heq
        obtain ⟨-, rfl⟩ := heq
        exact hstop

/-! ### Port B (spec/60_exceptions.md R220) -/

/-- A ring is as before, or has had descriptors popped from it. -/
def OutRing.popped (r r' : OutRing) : Prop := r' = { r with frd := r'.frd }

/-- What POP on port B leaves alone, with its outcome. -/
theorem popB_frame (o : StreamId) (s : State) :
    ∃ c rb db fr, popCommand .b o s =
        { s with statusb := StatusCode.word c, resb := rb, dataOutB := db,
                 ring := s.ring.set o { s.ring.get o with frd := fr } } ∧
      (c = .ok ∨ c = .empty) ∧
      (fr = (s.ring.get o).frd ∨ ((s.ring.get o).frd ≠ (s.ring.get o).fwr ∧
        fr = toWord (((s.ring.get o).frd.toNat + 1) % 42))) := by
  rcases popCommand_cases .b o s with ⟨h1, h⟩ | ⟨h1, h⟩
  · refine ⟨.empty, s.resb, s.dataOutB, (s.ring.get o).frd, ?_, .inr rfl, .inl rfl⟩
    rw [h]
    have : ({ s.ring.get o with frd := (s.ring.get o).frd } : OutRing) = s.ring.get o := rfl
    rw [this, PerStream.set_get_self]
    rfl
  · exact ⟨.ok, _, _, _, by rw [h]; rfl, .inl rfl, .inr ⟨h1, rfl⟩⟩

end Sys2Proof.Machine
end

