-- ==== Sys2Proof/Laws/PerInstr.lean ====
section
/-! SUPPORT. Statements about every operation as syntax, one lemma per constructor. -/

namespace Sys2Proof.Laws

/-- The bits 31:10 of every command word are zero and its `STRM` is never the reserved 3 (spec/30_encoding.md
R78, R82). -/
def ReservedZero.Statement (i : Instr) : Prop :=
  zeroField (encode i) = 0 ∧ streamField (encode i) ≠ 3 ∧ opcodeField (encode i) = opcodeOf i

theorem ReservedZero.move : ReservedZero.Statement .move := by unfold ReservedZero.Statement; decide
theorem ReservedZero.find : ReservedZero.Statement .find := by unfold ReservedZero.Statement; decide
theorem ReservedZero.cmp : ReservedZero.Statement .cmp := by unfold ReservedZero.Statement; decide
theorem ReservedZero.copy : ReservedZero.Statement .copy := by unfold ReservedZero.Statement; decide
theorem ReservedZero.hdec : ReservedZero.Statement .hdec := by unfold ReservedZero.Statement; decide
theorem ReservedZero.route : ReservedZero.Statement .route := by unfold ReservedZero.Statement; decide
theorem ReservedZero.seqw (s : StreamId) : ReservedZero.Statement (.seqw s) := by
  unfold ReservedZero.Statement; cases s <;> decide
theorem ReservedZero.seql (s : StreamId) : ReservedZero.Statement (.seql s) := by
  unfold ReservedZero.Statement; cases s <;> decide
theorem ReservedZero.polls : ReservedZero.Statement .polls := by unfold ReservedZero.Statement; decide
theorem ReservedZero.pollc : ReservedZero.Statement .pollc := by unfold ReservedZero.Statement; decide
theorem ReservedZero.emit (s : StreamId) : ReservedZero.Statement (.emit s) := by
  unfold ReservedZero.Statement; cases s <;> decide
theorem ReservedZero.push (s : StreamId) : ReservedZero.Statement (.push s) := by
  unfold ReservedZero.Statement; cases s <;> decide
theorem ReservedZero.pop (p : Port) (s : StreamId) : ReservedZero.Statement (.pop p s) := by
  unfold ReservedZero.Statement; cases p <;> cases s <;> decide
theorem ReservedZero.srst : ReservedZero.Statement .srst := by unfold ReservedZero.Statement; decide

end Sys2Proof.Laws
end

