-- ==== Sys2Proof/Laws/Rings.lean ====
section
/-! SUPPORT. Output rings: storing a frame is what `OutRing.StoredFrame` says, and the ring operations keep `OutRing.Inv` (spec/45_output_ring.md R180, R184, R186). -/

namespace Sys2Proof.Machine

theorem toWord_toNat {n : Nat} (h : n < 2 ^ 32) : (toWord n).toNat = n := by
  rw [toWord, BitVec.toNat_ofNat, Nat.mod_eq_of_lt h]

/-- The critical section of `push` (R180), field by field. -/
theorem OutRing.store_storedFrame (r : OutRing) (bytes : List Byte) (sq : Word)
    (h : bytes.length < r.cap.toNat) : r.StoredFrame bytes sq (r.store bytes sq) where
  cap := rfl
  owr := rfl
  fwr := rfl
  frd := rfl
  slot := Memory.read_write_same _ _ _
  otherSlots := fun _ hj => Memory.read_write_ne _ _ hj
  stored := fun k hk => by simpa [OutRing.store] using ringWrite_read r.cap.toNat r.owr.toNat bytes 0 r.omem k hk (by omega)
  otherBytes := fun a ha => ringWrite_read_other _ _ _ _ _ _ (fun j hj => by simpa using ha j hj)

theorem slot_next_toNat (w : Word) : (toWord ((w.toNat + 1) % Config.params.descCap)).toNat = (w.toNat + 1) % 42 :=
  toWord_toNat (lt_trans (Nat.mod_lt _ (by decide)) (by decide))

/-- A frame that fits keeps the ring's invariant. -/
theorem OutRing.Inv.store {r : OutRing} (hr : r.Inv) (bytes : List Byte) (sq : Word)
    (h0 : 0 < bytes.length) (h1 : bytes.length < r.cap.toNat) : (r.store bytes sq).Inv := by
  have hcap := r.cap.isLt
  have hsize : (toWord bytes.length).toNat = bytes.length := toWord_toNat (by omega)
  have hfwr : (r.store bytes sq).fwr.toNat = (r.fwr.toNat + 1) % 42 := slot_next_toNat r.fwr
  have hf := hr.fwrLt
  have hd := hr.frdLt
  refine ⟨hr.capPos, ?_, ?_, hd, ?_, ?_, ?_, ?_, ?_, ?_, ?_⟩
  · have : (r.store bytes sq).owr.toNat = (r.owr.toNat + bytes.length) % r.cap.toNat :=
      toWord_toNat (lt_trans (Nat.mod_lt _ hr.capPos) hcap)
    rw [this]
    exact Nat.mod_lt _ hr.capPos
  · rw [hfwr]; exact Nat.mod_lt _ (by decide)
  · exact ringWrite_wf _ _ _ _ hr.omemWf
  · exact ringWrite_mem_lt hr.capPos _ _ hr.omemIn
  · exact Memory.write_wf _ _ hr.descWf
  · intro e he
    rcases Memory.mem_write he with rfl | he
    · exact hf
    · exact hr.descIn e he
  · intro e he
    rcases Memory.mem_write he with rfl | he
    · exact ⟨hr.owrLt, by rw [hsize]; exact h0, by rw [hsize]; exact h1⟩
    · exact hr.descBounds e he
  · intro e he k hk
    rcases Memory.mem_write he with rfl | he
    · rw [hsize] at hk
      have := ringWrite_read r.cap.toNat r.owr.toNat bytes 0 r.omem k hk (by omega)
      simp only [Nat.zero_add] at this
      simp only [OutRing.store]
      rw [this]; rfl
    · exact ringWrite_isSome _ _ _ _ _ _ (hr.descWritten e he k hk)
  · intro k hk
    rw [hfwr] at hk
    simp only [OutRing.store] at hk ⊢
    rw [Memory.read_write]
    split
    · rfl
    · rename_i hne
      refine hr.unreadListed k ?_
      by_cases hw : (r.fwr.toNat + 1) % 42 = r.frd.toNat
      · omega
      · by_cases hk2 : k < (r.fwr.toNat + 42 - r.frd.toNat) % 42
        · exact hk2
        · exfalso; apply hne; omega

/-- Taking the oldest unread descriptor keeps the ring's invariant. -/
theorem OutRing.Inv.pop {r : OutRing} (hr : r.Inv) (h : r.frd ≠ r.fwr) :
    ({ r with frd := toWord ((r.frd.toNat + 1) % 42) } : OutRing).Inv := by
  have hd := hr.frdLt
  have hf := hr.fwrLt
  have hne : r.frd.toNat ≠ r.fwr.toNat := fun h2 => h (BitVec.eq_of_toNat_eq h2)
  have hfrd : (toWord ((r.frd.toNat + 1) % 42)).toNat = (r.frd.toNat + 1) % 42 := slot_next_toNat r.frd
  refine ⟨hr.capPos, hr.owrLt, hr.fwrLt, ?_, hr.omemWf, hr.omemIn, hr.descWf, hr.descIn, hr.descBounds,
    hr.descWritten, ?_⟩
  · simp only [hfrd]; exact Nat.mod_lt _ (by decide)
  · intro k hk
    simp only [hfrd] at hk ⊢
    have := hr.unreadListed (k + 1) (by omega)
    rwa [show ((r.frd.toNat + 1) % 42 + k) % 42 = (r.frd.toNat + (k + 1)) % 42 by omega]

/-- Emptying the queue keeps the ring's invariant (spec/46_control.md R200). -/
theorem OutRing.Inv.clear {r : OutRing} (hr : r.Inv) :
    ({ r with owr := 0, fwr := 0, frd := 0 } : OutRing).Inv :=
  ⟨hr.capPos, hr.capPos, (by decide : (0 : Nat) < 42), (by decide : (0 : Nat) < 42), hr.omemWf, hr.omemIn,
    hr.descWf, hr.descIn, hr.descBounds, hr.descWritten, fun _ hk => absurd hk (by simp)⟩

/-- A ring after the hardware reset. -/
theorem OutRing.Inv.fresh {cap : Word} (h : 0 < cap.toNat) : (OutRing.fresh cap).Inv :=
  ⟨h, h, (by decide : (0 : Nat) < 42), (by decide : (0 : Nat) < 42), List.Pairwise.nil, fun _ h => absurd h (by simp [OutRing.fresh]),
    List.Pairwise.nil, fun _ h => absurd h (by simp [OutRing.fresh]), fun _ h => absurd h (by simp [OutRing.fresh]),
    fun _ h => absurd h (by simp [OutRing.fresh]), fun _ hk => absurd hk (by simp [OutRing.fresh])⟩

theorem OutRing.Inv.pushed {r r' : OutRing} (hr : r.Inv) (h : r.pushed r') : r'.Inv := by
  rcases h with rfl | ⟨bytes, sq, h0, h1, rfl⟩
  · exact hr
  · exact hr.store bytes sq h0 h1

end Sys2Proof.Machine
end

