-- ==== Sys2Proof/Laws/Ports.lean ====
section
/-! SUPPORT. What the consumer can do on port B, and what a delivery loop leaves alone (spec/60_exceptions.md R220; spec/43_demux.md R160). -/

namespace Sys2Proof.Machine

/-! ### Command words on port B (spec/30_encoding.md R82) -/

theorem decode_b {w : Word} {i : Instr} (h : decode .b w = .ok i) : ∃ o, i = .pop .b o := by
  simp only [decode] at h
  split at h
  · cases h
  · split at h
    · cases h
    · rename_i h2
      have hop : opcodeField w = 0x21 := by simpa using h2
      simp only [decodeOpcode, hop, streamOp] at h
      split at h
      · rename_i o _
        exact ⟨o, by simpa using h.symm⟩
      · cases h

/-! ### The consumer's frame -/

/-- State `t` is state `s` after consumer accesses: port B's own registers, the data-out channel and the
schedule; `EV_ILLEGAL` at most; read indices of the rings. -/
structure ConsumerFrame (s t : State) : Prop where
  eq : ∃ ev : Word, (ev = 0 ∨ ev = 0x800) ∧
    t = { s with cmdb := t.cmdb, statusb := t.statusb, resb := t.resb, event := s.event ||| ev,
                 rdataB := t.rdataB, dataOutB := t.dataOutB, ring := t.ring, consumer := t.consumer }
  ring : ∀ o, (s.ring.get o).popped (t.ring.get o)
  inv : ∀ o, (s.ring.get o).Inv → (t.ring.get o).Inv
  statusb : t.statusb = s.statusb ∨ ∃ c : StatusCode, t.statusb = c.word

theorem OutRing.popped_refl (r : OutRing) : r.popped r := rfl

theorem OutRing.popped_trans {a b c : OutRing} (h1 : a.popped b) (h2 : b.popped c) : a.popped c := by
  unfold OutRing.popped at *
  rw [h1] at h2
  exact h2

theorem ConsumerFrame.refl (s : State) : ConsumerFrame s s :=
  ⟨⟨0, .inl rfl, by simp⟩, fun _ => rfl, fun _ h => h, .inl rfl⟩

theorem ConsumerFrame.trans {a b c : State} (h1 : ConsumerFrame a b) (h2 : ConsumerFrame b c) :
    ConsumerFrame a c := by
  obtain ⟨⟨e1, he1, q1⟩, r1, i1, s1⟩ := h1
  obtain ⟨⟨e2, he2, q2⟩, r2, i2, s2⟩ := h2
  refine ⟨⟨e1 ||| e2, ?_, ?_⟩, fun o => OutRing.popped_trans (r1 o) (r2 o), fun o h => i2 o (i1 o h), ?_⟩
  · rcases he1 with rfl | rfl <;> rcases he2 with rfl | rfl <;> simp
  · rw [q1] at q2
    rw [q2]
    simp [BitVec.or_assoc]
  · rcases s2 with h | h
    · rw [h]; exact s1
    · exact .inr h

theorem ConsumerFrame.illegal (s : State) (w : Word) : ConsumerFrame s (Parametric.State.illegal { s with cmdb := w } .b) :=
  ⟨⟨0x800, .inr rfl, rfl⟩, fun _ => rfl, fun _ h => h, .inr ⟨_, rfl⟩⟩

theorem ConsumerFrame.pop (s : State) (w : Word) (o : StreamId) :
    ConsumerFrame s (popCommand .b o { s with cmdb := w }) := by
  obtain ⟨c, rb, db, fr, h, -, hf⟩ := popB_frame o { s with cmdb := w }
  rw [h]
  refine ⟨⟨0, .inl rfl, by simp⟩, ?_, ?_, .inr ⟨c, rfl⟩⟩
  · intro o'
    by_cases ho : o' = o
    · subst ho; simp [OutRing.popped]
    · simp [PerStream.get_set_ne _ _ ho, OutRing.popped]
  · intro o' hi
    by_cases ho : o' = o
    · subst ho
      simp only [PerStream.get_set_same]
      rcases hf with rfl | ⟨hne, rfl⟩
      · exact hi
      · exact hi.pop hne
    · simpa [PerStream.get_set_ne _ _ ho] using hi

/-- A write of `CMDB` (R18, R82). -/
theorem portBCommand_cases (w : Word) (s : State) :
    (∃ o, decode .b w = .ok (.pop .b o) ∧ portBCommand w s = popCommand .b o { s with cmdb := w }) ∨
    (∃ e, decode .b w = .error e ∧ portBCommand w s = Parametric.State.illegal { s with cmdb := w } .b) := by
  rcases hd : decode .b w with e | i
  · exact .inr ⟨e, rfl, by simp [portBCommand, hd]⟩
  · obtain ⟨o, rfl⟩ := decode_b hd
    exact .inl ⟨o, rfl, by simp [portBCommand, hd]⟩

theorem serveConsumer_frame (a : ConsumerAct) (s : State) : ConsumerFrame s (serveConsumer a s) := by
  cases a with
  | read off => exact ⟨⟨0, .inl rfl, by simp [serveConsumer]⟩, fun _ => rfl, fun _ h => h, .inl rfl⟩
  | write off v =>
    simp only [serveConsumer]
    split
    · rcases portBCommand_cases v s with ⟨o, -, h⟩ | ⟨e, -, h⟩ <;> rw [h]
      · exact .pop s v o
      · exact .illegal s v
    · exact .refl s

theorem serveAll_frame (acts : List ConsumerAct) (s : State) : ConsumerFrame s (serveAll acts s) := by
  induction acts generalizing s with
  | nil => exact .refl s
  | cons a acts ih => exact (serveConsumer_frame a s).trans (ih (serveConsumer a s))

/-- What a gap can do: the consumer's accesses, on its own registers and the read indices. -/
theorem consumerGap_frame (s : State) : ConsumerFrame s (consumerGap s) := by
  simp only [consumerGap]
  split
  · exact .refl s
  · rename_i rest _
    refine ConsumerFrame.trans ?_ (serveAll_frame _ _)
    exact ⟨⟨0, .inl rfl, by simp⟩, fun _ => rfl, fun _ h => h, .inl rfl⟩

theorem consumerGap_nil {s : State} (h : s.consumer = []) : consumerGap s = s := by
  simp [consumerGap, h]

/-- A consumer access as a step of its own is the same access (R220). -/
theorem consumerAccess_eq (a : ConsumerAct) (s : State) : consumerAccess a s = .next (serveConsumer a s) := by
  cases a with
  | read off => rfl
  | write off v =>
    simp only [consumerAccess, consumerAccessWith, serveConsumer, runCommandWith]
    split
    · rcases portBCommand_cases v s with ⟨o, hd, h⟩ | ⟨e, hd, h⟩ <;> rw [h, hd]
      rfl
    · rfl

/-! ### The delivery loop -/

/-- State `t` is state `s` after deliveries and consumer accesses. -/
structure BatchFrame (s t : State) : Prop where
  eq : ∃ k ev, ev.toNat < 4096 ∧
    t = { s with cmdb := t.cmdb, statusb := t.statusb, resb := t.resb, event := s.event ||| ev,
                 rdataB := t.rdataB, dataOutB := t.dataOutB, ring := t.ring, consumer := t.consumer,
                 resync := t.resync, input := s.input.advance k }
  cap : ∀ o, (t.ring.get o).cap = (s.ring.get o).cap
  inv : ∀ o, (s.ring.get o).Inv → (t.ring.get o).Inv
  statusb : t.statusb = s.statusb ∨ ∃ c : StatusCode, t.statusb = c.word
  quiet : s.consumer = [] → t.consumer = [] ∧ t.cmdb = s.cmdb ∧ t.statusb = s.statusb ∧ t.resb = s.resb ∧
    t.rdataB = s.rdataB ∧ t.dataOutB = s.dataOutB ∧ ∀ o, (t.ring.get o).frd = (s.ring.get o).frd

theorem BatchFrame.refl (s : State) : BatchFrame s s :=
  ⟨⟨0, 0, by decide, by simp⟩, fun _ => rfl, fun _ h => h, .inl rfl, fun h => ⟨h, rfl, rfl, rfl, rfl, rfl, fun _ => rfl⟩⟩

theorem BatchFrame.trans {a b c : State} (h1 : BatchFrame a b) (h2 : BatchFrame b c) : BatchFrame a c := by
  obtain ⟨⟨k1, e1, he1, q1⟩, c1, i1, s1, n1⟩ := h1
  obtain ⟨⟨k2, e2, he2, q2⟩, c2, i2, s2, n2⟩ := h2
  refine ⟨⟨k1 + k2, e1 ||| e2, Event.or_lt he1 he2, ?_⟩, fun o => (c2 o).trans (c1 o), fun o h => i2 o (i1 o h), ?_, ?_⟩
  · rw [q1] at q2
    rw [q2]
    simp [BitVec.or_assoc, InputRing.advance_add]
  · rcases s2 with h | h
    · rw [h]; exact s1
    · exact .inr h
  · intro h
    obtain ⟨h1, h2, h3, h4, h5, h6, h7⟩ := n1 h
    obtain ⟨g1, g2, g3, g4, g5, g6, g7⟩ := n2 h1
    exact ⟨g1, g2.trans h2, g3.trans h3, g4.trans h4, g5.trans h5, g6.trans h6, fun o => (g7 o).trans (h7 o)⟩

theorem OutRing.pushed_cap {r r' : OutRing} (h : r.pushed r') : r'.cap = r.cap := by
  rcases h with rfl | ⟨_, _, _, _, rfl⟩ <;> rfl

theorem OutRing.pushed_frd {r r' : OutRing} (h : r.pushed r') : r'.frd = r.frd := by
  rcases h with rfl | ⟨_, _, _, _, rfl⟩ <;> rfl

theorem BatchFrame.deliver (v : Variant) (h : Hdr) (pay : Nat) (isSps : Bool) (s : State) :
    BatchFrame s (deliver v h pay isSps s).2 := by
  obtain ⟨k, rs, ev, rg, he, hev, hp⟩ := deliver_frame v h pay isSps s
  rw [he]
  exact ⟨⟨k, ev, hev, rfl⟩, fun o => OutRing.pushed_cap (hp o), fun o h => h.pushed (hp o), .inl rfl,
    fun h => ⟨h, rfl, rfl, rfl, rfl, rfl, fun o => OutRing.pushed_frd (hp o)⟩⟩

theorem BatchFrame.gap (s : State) : BatchFrame s (consumerGap s) := by
  obtain ⟨⟨ev, hev, q⟩, r, i, sb⟩ := consumerGap_frame s
  refine ⟨⟨0, ev, by rcases hev with rfl | rfl <;> decide, ?_⟩, fun o => ?_, i, sb, ?_⟩
  · rw [q]; simp
  · rw [r o]
  · intro h
    rw [consumerGap_nil h]
    exact ⟨h, rfl, rfl, rfl, rfl, rfl, fun _ => rfl⟩

theorem deliverBatch_frame (tab : List (Nat × Hdr)) (s : State) : BatchFrame s (deliverBatch tab s).2 := by
  induction tab generalizing s with
  | nil => exact .refl s
  | cons f fs ih =>
    cases fs with
    | nil => exact .refl s
    | cons f2 fs =>
      obtain ⟨h, hd⟩ := f
      simp only [deliverBatch]
      exact ((BatchFrame.deliver _ _ _ _ s).trans (.gap _)).trans (ih _)

end Sys2Proof.Machine
end

