-- ==== Sys2Proof/Laws/Polls.lean ====
section
/-! SUPPORT. The stages of POLLS and POLLC, one equation for each exit of a stage (spec/43_demux.md R150, R160). Cite these instead of unfolding: a stage unfolded inside another repeats the whole state. -/

namespace Sys2Proof.Machine

/-! ### POLLS -/

theorem execPolls_errCfg {s : State} (h : s.hdrOk = false) : execPolls s = .next s.errCfg := by
  rw [execPolls, if_pos h]

theorem execPolls_stale {s : State} (h : s.hdrOk = true) (h2 : s.staleCursor = true) :
    execPolls s = .next (s.finish .a .errCfg) := by
  rw [execPolls, if_neg (by simp [h]), if_pos h2]

theorem execPolls_transient {s : State} {inp : InputRing} (h : s.hdrOk = true) (h2 : s.staleCursor = false)
    (h3 : sampleScan s.geom s.input = (none, inp)) :
    execPolls s = .next (((s.setInput inp).raise .transient).finish .a .transient) := by
  rw [execPolls, if_neg (by simp [h]), if_neg (by simp [h2]), h3]

theorem execPolls_sampled {s : State} {wr : Nat} {inp : InputRing} (h : s.hdrOk = true) (h2 : s.staleCursor = false)
    (h3 : sampleScan s.geom s.input = (some wr, inp)) :
    execPolls s = .next (pollsSampled wr (s.setInput inp)) := by
  rw [execPolls, if_neg (by simp [h]), if_neg (by simp [h2]), h3]

theorem pollsSampled_init {s : State} (wr : Nat) (h : s.curValid = false) :
    pollsSampled wr s = (s.initCur wr).finish .a .init := by
  rw [pollsSampled]
  exact if_pos h

theorem pollsSampled_noFirst {s : State} {wr : Nat} {inp : InputRing} (h : s.curValid = true)
    (hf : findWin s.geom s.cur.toNat (s.geom.dist s.cur.toNat wr) Config.params.startCode s.input = (none, inp)) :
    pollsSampled wr s = (s.setInput inp).finish .a .noData := by
  simp only [pollsSampled, hf, if_neg (show ¬ s.curValid = false by simp [h])]

theorem pollsSampled_first {s : State} {wr i1 : Nat} {inp : InputRing} (h : s.curValid = true)
    (hf : findWin s.geom s.cur.toNat (s.geom.dist s.cur.toNat wr) Config.params.startCode s.input = (some i1, inp)) :
    pollsSampled wr s = pollsSecond i1 wr (s.setInput inp) := by
  simp only [pollsSampled, hf, if_neg (show ¬ s.curValid = false by simp [h])]

/-- The state of POLLS once the first start code is known: `CUR` and `RES[0]`. -/
def pollsAt (i1 : Nat) (s : State) : State := (s.setCur i1).setRes 0 (toWord i1)

theorem pollsSecond_noSecond {s : State} {i1 wr : Nat} {inp : InputRing}
    (hf : findWin s.geom (s.geom.move i1 4) (s.geom.dist (s.geom.move i1 4) wr) Config.params.startCode s.input =
      (none, inp)) :
    pollsSecond i1 wr s = ((pollsAt i1 s).setInput inp).finish .a .noData := by
  simp only [pollsSecond, pollsAt, State.setRes_input, State.setCur_input, hf]

/-- The state of POLLS once the second start code is known and the two signature bytes are read. -/
def pollsBoth (i1 i2 : Nat) (inp : InputRing) (s : State) : State :=
  ((pollsAt i1 s).setRes 1 (toWord i2)).setInput (inp.advance 2)

theorem pollsSecond_second {s : State} {i1 i2 wr : Nat} {inp : InputRing}
    (hf : findWin s.geom (s.geom.move i1 4) (s.geom.dist (s.geom.move i1 4) wr) Config.params.startCode s.input =
      (some i2, inp)) :
    pollsSecond i1 wr s =
      match sigLookup (inp.readAt 1 (s.geom.wrap (i1 + 4))) (inp.readAt 2 (s.geom.wrap (i1 + 5))) s.sig.toList with
      | none => (((pollsBoth i1 i2 inp s).raise .misclass).setCur i2).finish .a .misclass
      | some k => pollsFrame i1 i2 k (pollsBoth i1 i2 inp s) := by
  simp only [pollsSecond, pollsAt, pollsBoth, State.setRes_input, State.setCur_input, hf, rb_spec, State.setInput_input,
    InputRing.advance_add, InputRing.readAt_advance, Nat.reduceAdd]
  rfl

/-- The state of POLLS once the header is decoded. -/
def pollsHeader (hd : Hdr) (inp : InputRing) (s : State) : State :=
  (((s.setInput inp).setRes 2 hd.length).setRes 3 (hd.streamType.setWidth 32)).setRes 4
    (hd.streamCounter.setWidth 32)

theorem pollsFrame_drop {s : State} {i1 i2 : Nat} {k : NalKind} {hd : Hdr} {inp : InputRing}
    (h : decodeHdr s.geom s.layout (s.geom.move i1 (-(headerBack s.hdrSize.toNat k : Int))) s.input = (hd, inp))
    (hl : s.geom.dist i1 i2 ≤ hd.length.toNat) :
    pollsFrame i1 i2 k s = (((pollsHeader hd inp s).raise .dropLen).setCur i2).finish .a .dropLen := by
  simp only [pollsFrame, h]
  exact if_pos (not_lt.2 hl)

theorem pollsFrame_deliver {s s2 : State} {i1 i2 : Nat} {k : NalKind} {hd : Hdr} {inp : InputRing} {v : StatusCode}
    (h : decodeHdr s.geom s.layout (s.geom.move i1 (-(headerBack s.hdrSize.toNat k : Int))) s.input = (hd, inp))
    (hl : hd.length.toNat < s.geom.dist i1 i2)
    (hd2 : deliver .scan hd (s.geom.move (s.geom.move i1 (-(headerBack s.hdrSize.toNat k : Int))) s.hdrSize.toNat)
      (decide (k = .sps)) (pollsHeader hd inp s) = (v, s2)) :
    pollsFrame i1 i2 k s = (s2.setCur i2).finish .a v := by
  rw [pollsHeader] at hd2
  simp only [pollsFrame, h, if_neg (not_not.2 hl), hd2]

/-! ### POLLC -/

theorem execPollc_errCfg {s : State} (h : s.hdrOk = false) : execPollc s = .next s.errCfg := by
  rw [execPollc, if_pos h]

theorem execPollc_stale {s : State} (h : s.hdrOk = true) (h2 : s.staleCursor = true) :
    execPollc s = .next (s.finish .a .errCfg) := by
  rw [execPollc, if_neg (by simp [h]), if_pos h2]

theorem execPollc_transient {s : State} {inp : InputRing} (h : s.hdrOk = true) (h2 : s.staleCursor = false)
    (h3 : sampleChain s.geom s.input = (none, inp)) :
    execPollc s = .next (((s.setInput inp).raise .transient).finish .a .transient) := by
  rw [execPollc, if_neg (by simp [h]), if_neg (by simp [h2]), h3]

theorem execPollc_sampled {s : State} {stop : Nat} {inp : InputRing} (h : s.hdrOk = true) (h2 : s.staleCursor = false)
    (h3 : sampleChain s.geom s.input = (some stop, inp)) :
    execPollc s = .next (pollcSampled stop (s.setInput inp)) := by
  rw [execPollc, if_neg (by simp [h]), if_neg (by simp [h2]), h3]

theorem pollcSampled_init {s : State} (stop : Nat) (h : s.curValid = false) :
    pollcSampled stop s = (s.initCur stop).finish .a .init := by
  rw [pollcSampled]
  exact if_pos h

theorem pollcSampled_empty {s : State} (h : s.curValid = true) :
    pollcSampled s.cur.toNat s = s.finish .a .empty := by
  rw [pollcSampled, if_neg (by simp [h]), if_pos rfl]

theorem pollcSampled_sync {s : State} {stop n : Nat} {inp : InputRing} (h : s.curValid = true)
    (h2 : stop ≠ s.cur.toNat)
    (h3 : walk s.geom s.layout s.hdrSize.toNat stop 10 s.cur.toNat [] s.input = (.sync n, inp)) :
    pollcSampled stop s = walkSync n stop (s.setInput inp) := by
  rw [pollcSampled, if_neg (by simp [h]), if_neg h2, show Config.params.maxWalk = 10 from rfl, h3]

theorem pollcSampled_done {s : State} {stop : Nat} {tab : List (Nat × Hdr)} {inp : InputRing} (h : s.curValid = true)
    (h2 : stop ≠ s.cur.toNat)
    (h3 : walk s.geom s.layout s.hdrSize.toNat stop 10 s.cur.toNat [] s.input = (.done tab, inp)) :
    pollcSampled stop s = pollcDone tab (s.setInput inp) := by
  rw [pollcSampled, if_neg (by simp [h]), if_neg h2, show Config.params.maxWalk = 10 from rfl, h3]

theorem pollcDone_eq {s s1 : State} {tab : List (Nat × Hdr)} {out : List StatusCode}
    (h : deliverBatch tab s = (out, s1)) :
    pollcDone tab s =
      ((s1.setCur ((tab.getLast?.map Prod.fst).getD s.cur.toNat)).setResults5 (toWord tab.length)
        (toWord (out.count .ok)) (toWord ((tab.getLast?.map Prod.fst).getD s.cur.toNat)) (packLow out)
        (packHigh out)).finish .a .ok := by
  rw [pollcDone, h]

end Sys2Proof.Machine
end

