-- ==== Sys2Proof/Laws/Quiet.lean ====
section
/-! SUPPORT. The reading operations over a ring nobody writes meanwhile: what they return is what `IMEM` holds now. -/

namespace Sys2Proof.Machine

/-- A comparison with a pattern reports exactly whether the ring holds it. -/
theorem matchAt_quiet (s : State) (hq : s.quiet) (src : Nat) (pat : List Byte) (k : Nat) :
    (matchAt s.geom src pat k s.input).2 = s.input ∧
    ((matchAt s.geom src pat k s.input).1 = true ↔ s.holds (src + k) pat) := by
  induction pat generalizing k with
  | nil => simp [matchAt, Parametric.State.holds]
  | cons p ps ih =>
    simp only [matchAt, rb_spec, InputRing.advance_quiet hq, InputRing.readAt_quiet hq]
    obtain ⟨i1, i2⟩ := ih (k + 1)
    split
    · rename_i hb
      refine ⟨i1, i2.trans ?_⟩
      constructor
      · intro h j hj
        cases j with
        | zero => simpa [Parametric.State.ringByte] using hb
        | succ j => 
          have := h j (by simpa using hj)
          simp only [Parametric.State.ringByte] at this ⊢
          rw [show src + k + (j + 1) = src + (k + 1) + j by omega]
          simpa using this
      · intro h j hj
        have := h (j + 1) (by simpa using hj)
        simp only [Parametric.State.ringByte] at this ⊢
        rw [show src + k + (j + 1) = src + (k + 1) + j by omega] at this
        simpa using this
    · rename_i hb
      refine ⟨rfl, ?_⟩
      simp only [Bool.false_eq_true, false_iff]
      intro h
      have := h 0 (by simp); exact hb this

/-- The search loop finds the first place that holds the pattern. -/
theorem findFrom_quiet (s : State) (hq : s.quiet) (src : Nat) (pat : List Byte) (n k : Nat) :
    (findFrom s.geom src pat n k s.input).2 = s.input ∧
    (∀ i, k ≤ i → i < k + n → s.holds (src + i) pat → (∀ j, k ≤ j → j < i → ¬ s.holds (src + j) pat) →
      (findFrom s.geom src pat n k s.input).1 = some (s.geom.wrap (src + i))) ∧
    ((∀ i, k ≤ i → i < k + n → ¬ s.holds (src + i) pat) → (findFrom s.geom src pat n k s.input).1 = none) := by
  induction n generalizing k with
  | zero => exact ⟨rfl, fun i h1 h2 => absurd h2 (by omega), fun _ => rfl⟩
  | succ n ih =>
    obtain ⟨m1, m2⟩ := matchAt_quiet s hq src pat k
    obtain ⟨i1, i2, i3⟩ := ih (k + 1)
    rcases hm : matchAt s.geom src pat k s.input with ⟨b, inp⟩
    rw [hm] at m1 m2
    simp only at m1 m2
    subst m1
    simp only [findFrom, hm]
    cases b with
    | true =>
      refine ⟨rfl, ?_, ?_⟩
      · intro i h1 h2 h3 h4
        by_cases hik : i = k
        · subst hik; rfl
        · exact absurd (m2.1 rfl) (h4 k le_rfl (by omega))
      · intro h; exact absurd (m2.1 rfl) (h k le_rfl (by omega))
    | false =>
      refine ⟨i1, ?_, ?_⟩
      · intro i h1 h2 h3 h4
        by_cases hik : i = k
        · subst hik; exact absurd (m2.2 h3) (by simp)
        · exact i2 i (by omega) (by omega) h3 (fun j a b => h4 j (by omega) b)
      · intro h; exact i3 (fun i a b => h i (by omega) (by omega))

/-- `find_win` returns the first match (spec/41_ring_locator.md R105). -/
theorem findWin_first (s : State) (hq : s.quiet) (src len : Nat) (pat : List Byte) (k : Nat)
    (h : s.firstMatch src len pat k) : findWin s.geom src len pat s.input = (some (s.geom.wrap (src + k)), s.input) := by
  obtain ⟨h1, h2, h3⟩ := h
  have := findFrom_quiet s hq src pat (len - pat.length + 1) 0
  unfold findWin
  rw [if_neg (by omega)]
  exact Prod.ext (this.2.1 k (by omega) (by omega) h2 (fun j _ a => h3 j a)) this.1

/-- `find_win` returns none without a match (R105). -/
theorem findWin_noMatch (s : State) (hq : s.quiet) (src len : Nat) (pat : List Byte)
    (h : s.noMatch src len pat) : findWin s.geom src len pat s.input = (none, s.input) := by
  have := findFrom_quiet s hq src pat (len - pat.length + 1) 0
  unfold findWin
  by_cases hl : len < pat.length
  · rw [if_pos hl]
  rw [if_neg hl]
  exact Prod.ext (this.2.2 (fun i _ a => h i (by omega))) this.1

/-- `sample_scan` of a consistent sample (spec/43_demux.md R146). -/
theorem sampleScan_quiet (s : State) (hq : s.quiet) (h : s.irhNow 16 < s.geom.span) :
    sampleScan s.geom s.input = (some (s.geom.off + s.irhNow 16), s.input) := by
  simp only [sampleScan, memRead_spec, InputRing.readAt_quiet hq, InputRing.advance_quiet hq]
  have : leBytes ((List.range 4).map (fun j => imemByte s.input.mem (Config.params.irhCommitOff + j))) = s.irhNow 16 := rfl
  rw [this, if_neg (by omega)]

/-- `sample_chain` of a consistent sample (R145). -/
theorem sampleChain_quiet (s : State) (hq : s.quiet) (h : s.irhNow 16 < s.geom.span)
    (h2 : s.irhNow 16 = s.irhNow 12) :
    sampleChain s.geom s.input = (some (s.geom.off + s.irhNow 16), s.input) := by
  simp only [sampleChain, memRead_spec, InputRing.readAt_quiet hq, InputRing.advance_quiet hq]
  have : leBytes ((List.range 4).map (fun j => imemByte s.input.mem (Config.params.irhCommitOff + j))) = s.irhNow 16 := rfl
  have e2 : leBytes ((List.range 4).map (fun j => imemByte s.input.mem (Config.params.irhEchoOff + j))) = s.irhNow 12 := rfl
  rw [this, e2, if_neg (by omega)]

/-- `decode_hdr` (spec/42_header_codec.md R122). -/
theorem decodeHdr_quiet (s : State) (hq : s.quiet) (h : Nat) :
    decodeHdr s.geom s.layout h s.input = (s.headerNow h, s.input) := by
  rw [decodeHdr_spec]
  simp only [InputRing.readAt_quiet hq, InputRing.advance_quiet hq]
  rfl

/-- The walk follows a chain of frames (spec/43_demux.md R160). -/
theorem walk_chain (s : State) (hq : s.quiet) (stop : Nat) (tab : List (Nat × Hdr)) (p q left : Nat)
    (acc : List (Nat × Hdr))
    (hc : s.chainNow stop p tab q) (hl : tab.length ≤ left) :
    walk s.geom s.layout s.hdrSize.toNat stop left p acc s.input =
      walk s.geom s.layout s.hdrSize.toNat stop (left - tab.length) q (acc ++ tab) s.input := by
  induction tab generalizing p left acc with
  | nil => 
    simp only [Parametric.State.chainNow] at hc
    subst hc; simp
  | cons e tab ih =>
    obtain ⟨h, hd⟩ := e
    obtain ⟨h1, h2, h3, h4, h5⟩ := hc
    obtain ⟨left, rfl⟩ : ∃ l, left = l + 1 := ⟨left - 1, by simp at hl; omega⟩
    simp only [walk, if_neg h1, decodeHdr_quiet s hq, ← h3, if_neg (not_lt.2 h4)]
    rw [ih _ left _ h5 (by simpa using hl)]
    simp [h2]

end Sys2Proof.Machine
end

