-- ==== Sys2Proof/Tests/Slice0.lean ====
section
/-! SUPPORT. Tests: ill-formed operations, command words written out from spec/30_encoding.md R78 and R80, single steps from spec/95_test_vectors.md, and a witness for the hypotheses of every statement. -/

namespace Sys2Proof.Tests

open Sys2Proof Sys2Proof.Machine

set_option Elab.async false

/-! ### WellFormed -/

theorem test_wellFormed_refuses_move_on_b : Instr.wellFormed .b .move = false := by decide
theorem test_wellFormed_refuses_srst_on_b : Instr.wellFormed .b .srst = false := by decide
theorem test_wellFormed_refuses_pop_b_on_a : Instr.wellFormed .a (.pop .b .low) = false := by decide
theorem test_wellFormed_accepts_pop_on_b : Instr.wellFormed .b (.pop .b .aud) = true := by decide

/-! ### Decoding: `OPC` in bits 7:0, `STRM` in bits 9:8 (R78, R80) -/

theorem test_decode_move : decode .a 0b00000000000000000000000000000001 = .ok .move := by decide
theorem test_decode_find : decode .a 0b00000000000000000000000000000010 = .ok .find := by decide
theorem test_decode_cmp : decode .a 0b00000000000000000000000000000011 = .ok .cmp := by decide
theorem test_decode_copy : decode .a 0b00000000000000000000000000000100 = .ok .copy := by decide
theorem test_decode_hdec : decode .a 0b00000000000000000000000000001000 = .ok .hdec := by decide
theorem test_decode_route : decode .a 0b00000000000000000000000000010000 = .ok .route := by decide
theorem test_decode_seqw : decode .a 0b00000000000000000000000100010001 = .ok (.seqw .high) := by decide
theorem test_decode_seql : decode .a 0b00000000000000000000001000010010 = .ok (.seql .aud) := by decide
theorem test_decode_polls : decode .a 0b00000000000000000000000000010011 = .ok .polls := by decide
theorem test_decode_pollc : decode .a 0b00000000000000000000000000010100 = .ok .pollc := by decide
theorem test_decode_emit : decode .a 0b00000000000000000000000100011000 = .ok (.emit .high) := by decide
theorem test_decode_push : decode .a 0b00000000000000000000001000100000 = .ok (.push .aud) := by decide
theorem test_decode_pop_a : decode .a 0b00000000000000000000000000100001 = .ok (.pop .a .low) := by decide
theorem test_decode_pop_b : decode .b 0b00000000000000000000000100100001 = .ok (.pop .b .high) := by decide
theorem test_decode_srst : decode .a 0b00000000000000000000000000111111 = .ok .srst := by decide

/-- The illegal words of spec/95_test_vectors.md 2.11 and 2.10 (f), one for each clause of R82. -/
theorem test_decode_illegal :
    decode .a 0x00000000 = .error .unknownOpcode ∧ decode .a 0x00000005 = .error .unknownOpcode ∧
    decode .a 0x00000101 = .error .streamUnused ∧ decode .a 0x00000311 = .error .streamReserved ∧
    decode .a 0x00000401 = .error .reservedBits ∧ decode .a 0x80000001 = .error .reservedBits ∧
    decode .a 0x00000040 = .error .unknownOpcode ∧ decode .b 0x00000013 = .error .portRights ∧
    decode .b 0x00000321 = .error .streamReserved ∧ decode .b 0x0000003F = .error .portRights := by decide

theorem test_decodeTableWord : decodeTableWord 32 0x14 = some .pollc ∧ decodeTableWord 32 0x221 = some (.pop .a .aud) ∧
    decodeTableWord 32 0x400 = none := by decide

/-! ### States -/

/-- Bytes listed from address `a` on. -/
def cells : Nat → List Byte → Memory Byte
  | _, [] => []
  | a, b :: bs => (a, b) :: cells (a + 1) bs

/-- The geometry G64 of spec/95_test_vectors.md, with these `IMEM` bytes and operands. -/
def g64 (mem : Memory Byte) (a0 a1 a2 a3 : Word) : State :=
  { State.reset with
    bufOffset := 32
    bufSize := 96
    hdrSize := 22
    arg := #v[a0, a1, a2, a3]
    input := { mem := mem, pending := [] } }

/-- One value of the next state. -/
def result {α : Type} (o : Host.Outcome State Fault Refusal) (f : State → α) : Option α :=
  match o with
  | .next t => some (f t)
  | .fault _ => none
  | .refused _ => none

theorem test_reset_memory_wf : Memory.wf State.reset.input.mem ∧ Memory.wf State.reset.ring.low.omem ∧
    Memory.wf State.reset.ring.low.desc := by decide

/-- The ring of 2.2: `00 00 00 01` at 94, 95, 32, 33, `FF` around it. -/
def scMem : Memory Byte :=
  cells 32 [0x00, 0x01, 0xFF, 0xFF, 0xFF, 0xFF, 0xFF, 0xFF, 0xFF, 0xFF] ++
  cells 90 [0xFF, 0xFF, 0xFF, 0xFF, 0x00, 0x00]

/-! ### Single operations (spec/95_test_vectors.md, sections 2.1 to 2.14) -/

theorem test_move_wraps : result (exec .move (g64 [] 90 10 0 0)) (fun t => (t.status, t.res[0])) = some (0, 36) := by
  decide +kernel
theorem test_move_refuses_span : result (exec .move (g64 [] 90 64 0 0)) (fun t => (t.status, t.event)) =
    some (0x10, 0x200) := by decide +kernel

theorem test_find_straddling : result (exec .find { g64 scMem 90 0xFFFFFFD0 4 0 with
      pat := #v[0, 0, 0, 1, 0, 0, 0, 0, 0, 0, 0, 0, 0, 0, 0, 0] }) (fun t => (t.status, t.res[0])) = some (0, 94) := by
  decide +kernel
theorem test_find_short_window : result (exec .find { g64 scMem 90 7 4 0 with
      pat := #v[0, 0, 0, 1, 0, 0, 0, 0, 0, 0, 0, 0, 0, 0, 0, 0] }) (fun t => (t.status, t.res[0])) = some (1, 0) := by
  decide +kernel

theorem test_cmp_greater_unsigned : result (exec .cmp { g64 scMem 94 0 4 0 with
      lbuf := storeBytes State.reset.lbuf 0 [0x00, 0x00, 0xFF, 0x00] }) (fun t => (t.status, t.res[0])) =
    some (0, 1) := by decide +kernel
theorem test_cmp_less : result (exec .cmp (g64 scMem 94 0 4 0)) (fun t => (t.status, t.res[0])) =
    some (0, 0xFFFFFFFF) := by decide +kernel

theorem test_copy_straddling : result (exec .copy (g64 scMem 93 0 6 0)) (fun t => (t.status, t.lbuf.toList.take 7)) =
    some (0, [0xFF, 0x00, 0x00, 0x00, 0x01, 0xFF, 0x00]) := by decide +kernel
theorem test_copy_refuses_end : result (exec .copy (g64 scMem 96 0 4 0)) (fun t => (t.status, t.event)) =
    some (0x10, 0x200) := by decide +kernel

/-- The straddling header of L1.3. -/
def hdrMem : Memory Byte :=
  cells 32 [0xA2, 0xA1, 0x00, 0x00, 0x00, 0x00, 0xB4, 0xB3, 0xB2, 0xB1, 0x01, 0x08, 0xFE, 0xFF, 0x00, 0x00] ++
  cells 90 [0x04, 0x03, 0x02, 0x01, 0xA4, 0xA3]

theorem test_hdec_padded_straddling : result (exec .hdec (g64 hdrMem 90 0 0 0)) (fun t => (t.status, t.res)) =
    some (0, #v[0x01020304, 0xA1A2A3A4, 0xB1B2B3B4, 0x00000801, 0x0000FFFE]) := by decide +kernel
theorem test_hdec_compact : result (exec .hdec { g64
      (cells 32 [0x77, 0x66, 0x55, 0x04, 0x01, 0x09, 0x00] ++ cells 87 [0x07, 0, 0, 0, 0x44, 0x33, 0x22, 0x11, 0x88])
      87 0 0 0 with hdrSize := 16 }) (fun t => (t.status, t.res)) =
    some (0, #v[7, 0x11223344, 0x55667788, 0x104, 9]) := by decide +kernel

theorem test_route_low_first : result (exec .route (g64 [] 0x0C01 0 0 0)) (fun t => (t.status, t.res[0], t.res[1])) =
    some (0, 0, 1) := by decide +kernel
theorem test_route_misclass : result (exec .route (g64 [] 0xF2FF 0 0 0)) (fun t => (t.status, t.event)) =
    some (9, 0x20) := by decide +kernel

/-- A baseline for stream HIGH. -/
def based (last : Half) (run a0 : Word) : State :=
  { g64 [] a0 0 0 0 with
    resync :=
      { low := Resync.zero
        high := { lastValid := last, lvSet := true, invRun := run, lost := 0, syncLost := 0 }
        aud := Resync.zero } }

theorem test_seqw_wraps : result (exec (.seqw .high) (based 65530 0 5)) (fun t => (t.status, t.res[0])) =
    some (0, 11) := by decide +kernel
theorem test_seqw_resyncs_at_41 : result (exec (.seqw .high) (based 121 40 142))
      (fun t => (t.status, t.event, t.resync.high)) =
    some (7, 0xC, { lastValid := 142, lvSet := true, invRun := 0, lost := 0, syncLost := 1 }) := by decide +kernel

/-- Another modulus than the default: the baseline may be above it (R134, R137). -/
theorem test_other_modulus : counterDistance 5 0x300 { ctrMod := 256 } = 5 ∧ lostFrames 5 0x300 { ctrMod := 256 } = 4 ∧
    counterDistance 0x300 5 { ctrMod := 256 } = 251 := by decide +kernel

theorem test_seql_counts_loss : result (exec (.seql .high) (based 101 0 104))
      (fun t => (t.status, t.event, t.res[0], t.resync.high.lost)) = some (0, 0x100, 2, 2) := by decide +kernel
theorem test_seql_repeat : result (exec (.seql .high) (based 104 0 104))
      (fun t => (t.status, t.event, t.res[0], t.resync.high.lost)) = some (0, 0, 0xFFFFFFFF, 0) := by decide +kernel

/-- The set-up of program P5 after step 2, its first frame's length field as given, `CUR` as given. -/
def p5 (len : Byte) (cur : Word) (commit : Byte) : State :=
  { State.reset with
    ctrl := 0x02
    bufOffset := 32
    bufSize := 288
    hdrSize := 16
    cur := cur
    curValid := true
    sig := #v[0x00210067, 0x00310068, 0x00128865, 0x00010041, 0, 0, 0, 0]
    input :=
      { mem :=
          cells 16 [commit, 0, 0, 0] ++
          cells 32 [0x20, 0x00, 0x00, 0x66, 0x33, 0x22, 0x11, 0x01, 0x08, 0x09, 0x00, 0x00, 0x00, 0x00, 0x01, 0x65,
            0x88, 0x84, 0x21, 0x3F] ++
          cells 232 [len, 0x00, 0x00, 0x00, 0x10, 0x20, 0x00, 0x00, 0x44, 0x33, 0x22, 0x11, 0x02, 0x08, 0x07, 0x00,
            0xA0, 0xA1, 0xA2, 0xA3, 0xA4, 0xA5, 0x00, 0x00, 0x00, 0x01, 0x67, 0x64, 0x2A, 0x06, 0x00, 0x00,
            0x00, 0x11, 0x20, 0x00, 0x00, 0x55, 0x33, 0x22, 0x11, 0x04, 0x08, 0x08, 0x00, 0x00, 0x00, 0x00,
            0x01, 0x68, 0xEE, 0x09, 0x00, 0x00, 0x00, 0x12]
        pending := [] } }

theorem test_polls_delivers_sps : result (exec .polls (p5 13 232 20))
      (fun t => (t.status, t.res, t.cur, t.ring.low.owr, t.resync.low.lastValid)) =
    some (0, #v[254, 277, 13, 0x802, 7], 277, 7, 7) := by decide +kernel
theorem test_polls_one_start_code : result (exec .polls (p5 13 43 20)) (fun t => (t.status, t.res[0], t.cur)) =
    some (4, 43, 43) := by decide +kernel

/-- `k` frames of 2.13 whose header fields are all zero but the length, 16-byte headers, from address 32. -/
def chainState (off echo : Byte) (mem : List Byte) : State :=
  { State.reset with
    ctrl := 0x0E
    bufOffset := 32
    bufSize := 544
    hdrSize := 22
    cur := 32
    curValid := true
    input := { mem := cells 12 [echo, 0, 0, 0, off, 0, 0, 0] ++ cells 32 mem, pending := [] } }

/-- Frame `i` of 2.13. -/
def frame213 (i : Byte) : List Byte :=
  [2, 0, 0, 0, i, 3, 0, 0, 0, 0, 0, 0, i, 0x10, 0, 0, 0x01, 0x08, 50 + i, 0, 0, 0, 0xB0 + i, 0xB0 + i]

theorem test_pollc_three_frames : result (exec .pollc (chainState 72 72 (frame213 0 ++ frame213 1 ++ frame213 2)))
      (fun t => (t.status, t.res, t.cur, t.ring.low.owr, t.resync.low.lastValid)) =
    some (0, #v[3, 2, 80, 0, 0], 80, 4, 51) := by decide +kernel
theorem test_pollc_short_commit : result (exec .pollc (chainState 10 10 (frame213 0)))
      (fun t => (t.status, t.res, t.cur, t.event)) = some (11, #v[0, 0, 42, 0, 0], 42, 0x10) := by decide +kernel

/-- 2.9: the 6-byte frame at 92 and one rewrite entry. -/
def emitState (n sps : Word) : State :=
  { g64 (cells 32 [0x67, 0xAA] ++ cells 92 [0x00, 0x00, 0x00, 0x01]) 92 n 100 sps with
    ctrl := 1
    spslut := State.reset.spslut.set 0
      { valid := true
        mlen := 6
        rlen := 8
        pattern := storeBytes SpsEntry.zero.pattern 0 [0, 0, 0, 1, 0x67, 0xAA]
        repl := storeBytes SpsEntry.zero.repl 0 [0, 0, 0, 1, 0x67, 0xAA, 0xBB, 0xCC] } }

theorem test_emit_rewrites : result (exec (.emit .high) (emitState 6 1))
      (fun t => (t.status, t.res[0], t.ring.high.omem)) =
    some (0, 8, cells 0 [0, 0, 0, 1, 0x67, 0xAA, 0xBB, 0xCC]) := by decide +kernel
theorem test_emit_unknown_sps : result (exec (.emit .high) (emitState 5 1)) (fun t => (t.status, t.event, t.ring.high)) =
    some (10, 0x40, State.reset.ring.high) := by decide +kernel

/-- 2.10 (a): `LBUF` = `AA BB CC`, `PUSH.AUD n, 7`. -/
def pushState (n : Word) : State :=
  { g64 [] 0 n 7 0 with lbuf := storeBytes State.reset.lbuf 0 [0xAA, 0xBB, 0xCC] }

theorem test_push_aud : result (exec (.push .aud) (pushState 3)) (fun t => (t.status, t.ring.aud.omem)) =
    some (0, cells 0 [0xAA, 0xBB, 0xCC]) := by decide +kernel
theorem test_push_aud_desc : result (exec (.push .aud) (pushState 3)) (fun t => (t.ring.aud.desc, t.ring.aud.fwr)) =
    some ([(0, { off := 0, seq := 7, size := 3 })], 1) := by decide +kernel
theorem test_push_empty : result (exec (.push .low) (pushState 0)) (fun t => (t.status, t.event)) = some (8, 2) := by
  decide +kernel

/-- The state after the PUSH of 2.10 (a). -/
def pushedState : State :=
  { pushState 3 with ring := State.reset.ring.set .aud (State.reset.ring.aud.store [0xAA, 0xBB, 0xCC] 7) }

theorem test_pop_b : result (exec (.pop .b .aud) pushedState) (fun t => (t.statusb, t.resb, t.dataOutB, t.ring.aud.frd)) =
    some (0, #v[3, 7, 0], [0xAA, 0xBB, 0xCC], 1) := by decide +kernel
theorem test_pop_empty : result (exec (.pop .a .aud) State.reset) (fun t => (t.status, t.ring.aud.frd)) =
    some (2, 0) := by decide +kernel

theorem test_srst_keeps_contents : result (exec .srst { pushedState with event := 0x10, cur := 80, curValid := true })
      (fun t => (t.event, t.cur, t.ring.aud.omem, t.ring.aud.fwr, t.arg[1])) =
    some (0, 0, cells 0 [0xAA, 0xBB, 0xCC], 0, 3) := by decide +kernel

/-- Port B between the ring updates of SRST (R200, R201): a POP written to `CMDB` pops, whatever is written to port
A's `CMD` offset does nothing. -/
theorem test_srst_gap_pops_through_cmdb :
    result (exec .srst { pushedState with consumer := [[.write 0x2000 0x221]] })
      (fun t => (t.cmdb, t.statusb, t.resb, t.dataOutB)) = some (0x221, 0, #v[3, 7, 0], [0xAA, 0xBB, 0xCC]) := by
  decide +kernel
theorem test_srst_gap_ignores_cmd_offset :
    result (exec .srst { pushedState with consumer := [[.write 0x10 0x221]] })
      (fun t => (t.cmd, t.cmdb, t.statusb, t.resb, t.dataOutB)) = some (0, 0, 0, #v[0, 0, 0], []) := by
  decide +kernel

/-- An illegal `CMDB` word between the deliveries of POLLC (R82, R202). -/
theorem test_pollc_gap_illegal_cmdb :
    result (exec .pollc { chainState 48 48 (frame213 0 ++ frame213 1) with consumer := [[.write 0x2000 0x13]] })
      (fun t => (t.status, t.statusb, t.event)) = some (0, 0x12, 0x800) := by decide +kernel

/-- The producer between the reads of COPY (spec/20_memory.md R52): the latest write before a read is what it
returns, a write after it is not seen. -/
theorem test_producer_writes_between_reads :
    result (exec .copy { g64 scMem 94 0 2 0 with
        input := { mem := scMem, pending := [[(94, 0xAA), (94, 0xBB)], [(94, 0x11), (95, 0xCC)], [(95, 0xDD)]] } })
      (fun t => (t.lbuf.toList.take 2, t.input.pending)) = some ([0xBB, 0xCC], [[(95, 0xDD)]]) := by decide +kernel
theorem test_step_produce :
    result (step { g64 [(40, 1)] 0 0 0 0 with inbox := [.produce (40, 7), .masterRead 0x18] })
      (fun t => (t.input.mem, t.inbox)) = some ([(40, 7)], [.masterRead 0x18]) := by decide +kernel

/-- A command word as the first access after reset: `0x00000010` is ROUTE, which classifies `ARG[0]` = 0. -/
theorem test_step_runs_fetch_word : result (step (State.reset.withFetchWord 32 0x10)) (fun t => (t.cmd, t.status, t.event)) =
    some (0x10, 9, 0x20) := by decide +kernel

/-! ### Witnesses: a state and operands that meet the hypotheses of each clause, at the bounds of its ranges -/

theorem noMatch_of {s : State} {src len : Nat} {pat : List Byte}
    (h : ∀ k, k < len + 1 - pat.length → ¬ s.holds (src + k) pat) : s.noMatch src len pat :=
  fun k hk => h k (by omega)

/-- `chainNow` as a computation. -/
def chainCheck (s : State) (stop : Nat) : Nat → List (Nat × Hdr) → Nat → Bool
  | p, [], q => decide (p = q)
  | p, (h, hd) :: rest, q =>
    decide (p ≠ stop ∧ h = p ∧ hd = s.headerNow p ∧ s.hdrSize.toNat + hd.length.toNat ≤ s.geom.dist p stop) &&
      chainCheck s stop (s.geom.move p (s.hdrSize.toNat + hd.length.toNat : Nat)) rest q

theorem chainNow_of_check {s : State} {stop : Nat} : ∀ {p : Nat} {tab : List (Nat × Hdr)} {q : Nat},
    chainCheck s stop p tab q = true → s.chainNow stop p tab q
  | _, [], _, h => by simpa [chainCheck, Parametric.State.chainNow] using h
  | _, (_, _) :: _, _, h => by
    rw [chainCheck, Bool.and_eq_true, decide_eq_true_eq] at h
    exact ⟨h.1.1, h.1.2.1, h.1.2.2.1, h.1.2.2.2, chainNow_of_check h.2⟩

theorem witness_DecodeAndEncodeAgree : decode .a 0x111 = .ok (.seqw .high) ∧
    Instr.wellFormed .a (.seqw .high) = true ∧ encode (.seqw .high) = 0x111 := by
  decide +kernel

theorem witness_IllegalWord : IllegalWord .a 0x400 ∧ IllegalWord .a 0x05 ∧ IllegalWord .a 0x101 ∧
    IllegalWord .a 0x311 ∧ IllegalWord .b 0x3F ∧ ¬ IllegalWord .a 0x3F ∧ ¬ IllegalWord .b 0x221 := by
  unfold IllegalWord; and_intros <;> decide

theorem witness_StepRuns : State.reset.inbox = [] ∧
    (∀ a : HostAct, { State.reset with inbox := [a, .resetInput] }.inbox = a :: [.resetInput]) ∧
    decode .a 0x14 = .ok .pollc ∧ decode .b 0x21 = .ok (.pop .b .low) :=
  ⟨rfl, fun _ => rfl, by decide +kernel, by decide +kernel⟩

/-- The geometry G64. -/
def geom64 : Geom := { off := 32, size := 96 }

theorem witness_WrapAndDistanceLaws : geom64.ok = true ∧
    (∀ x ∈ [32, 95, 96, 159], geom64.off ≤ x ∧ x < geom64.size + geom64.span) ∧
    ∀ a ∈ [32, 95], geom64.isRing a = true := by
  and_intros <;> decide +kernel

theorem witness_MoveLaws : geom64.ok = true ∧ (∀ a ∈ [32, 95], geom64.isRing a = true) ∧
    (∀ d ∈ ([-63, 0, 63] : List Int), -(geom64.span : Int) < d ∧ d < geom64.span) ∧
    (63 : Int) = 62 + 1 ∧ (-63 : Int) = -31 + -32 ∧ (0 : Int) = 63 + -63 := by
  and_intros <;> decide +kernel

/-- A word operand. -/
abbrev wd (n : Int) : Word := BitVec.ofInt 32 n

theorem witness_MoveResult : State.reset.geomOk = false ∧ (g64 [] 0 0 0 0).geomOk = true ∧
    (∀ a ∈ ([31, 96] : List Int), ¬((g64 [] 0 0 0 0).bufOffset.toNat ≤ (wd a).toNat ∧
      (wd a).toNat < (g64 [] 0 0 0 0).bufSize.toNat)) ∧
    (∀ d ∈ ([64, -64] : List Int), ¬(-((g64 [] 0 0 0 0).geom.span : Int) < (wd d).toInt ∧
      (wd d).toInt < (g64 [] 0 0 0 0).geom.span)) ∧
    (∀ a ∈ ([32, 95] : List Int), (g64 [] 0 0 0 0).bufOffset.toNat ≤ (wd a).toNat ∧
      (wd a).toNat < (g64 [] 0 0 0 0).bufSize.toNat) ∧
    ∀ d ∈ ([63, -63] : List Int), -((g64 [] 0 0 0 0).geom.span : Int) < (wd d).toInt ∧
      (wd d).toInt < (g64 [] 0 0 0 0).geom.span := by
  and_intros <;> decide

/-- The ring of 2.2 with every byte written. -/
def scRing : Memory Byte := cells 32 ([0x00, 0x01] ++ List.replicate 60 0xFF ++ [0x00, 0x00])

/-- FIND of the first `m` bytes of `00 00 00 01 FF …`. -/
def findState (src len m : Word) : State :=
  { g64 scRing src len m 0 with pat := storeBytes (Vector.replicate 16 0xFF) 0 [0, 0, 0, 1] }

theorem witness_Find_operands : (findState 90 16 4).quiet ∧ (findState 90 16 4).geomOk = true ∧
    (∀ a ∈ [32, 90, 95], (findState 90 16 4).geom.isRing a = true) ∧
    (∀ len ∈ ([63, 0, -63] : List Int), -((findState 90 16 4).geom.span : Int) < len ∧
      len < (findState 90 16 4).geom.span) ∧
    (∀ m ∈ ([1, 16] : List Int), 1 ≤ (wd m).toNat ∧ (wd m).toNat ≤ 16) ∧
    (16 : Int) = (if (0 : Int) ≤ -48 then (-48 : Int) else (64 : Int) + -48) := ⟨rfl, by decide +kernel⟩

theorem witness_Find_firstMatch :
    (findState 90 8 4).firstMatch 90 8 [0, 0, 0, 1] 4 ∧
    (findState 90 0xFFFFFFFF 16).firstMatch 90 63 ([0, 0, 0, 1] ++ List.replicate 12 0xFF) 4 ∧
    (findState 32 1 1).firstMatch 32 1 [0] 0 := by
  unfold Parametric.State.firstMatch Parametric.State.holds; decide +kernel

theorem witness_Find_noMatch : (findState 90 7 4).noMatch 90 7 [0, 0, 0, 1] ∧
    (findState 90 0 4).noMatch 90 0 [0, 0, 0, 1] ∧
    (findState 36 0xFFFFFFFA 4).noMatch 36 58 [0, 0, 0, 1] := by
  refine ⟨noMatch_of ?_, noMatch_of ?_, noMatch_of ?_⟩ <;> (unfold Parametric.State.holds; decide +kernel)

/-- CMP at address 94 against `00 00 l`, or of any length with `LBUF` all `FF` at 34. -/
def cmpState (l : Byte) (n : Word) : State :=
  { g64 scRing 94 0 n 0 with lbuf := storeBytes State.reset.lbuf 0 [0, 0, l, 1] }

theorem witness_Cmp : (cmpState 0 4).geomOk = true ∧ (cmpState 0 4).geom.isRing 94 = true ∧
    (∀ n ∈ ([0, 63] : List Int), (wd n).toNat ≤ 256 ∧ (wd n).toNat < (cmpState 0 4).geom.span) ∧
    { cmpState 0 256 with bufSize := 320 }.geom.span = 288 ∧
    (∀ j, j < 4 → (cmpState 0 4).lbuf[j]? =
      some ((cmpState 0 4).input.readAt (j + 1) ((cmpState 0 4).geom.wrap (94 + j)))) ∧
    (∀ j, j < 2 → (cmpState 9 4).lbuf[j]? =
      some ((cmpState 9 4).input.readAt (j + 1) ((cmpState 9 4).geom.wrap (94 + j)))) ∧
    ((cmpState 9 4).input.readAt 3 32).toNat < (9 : Byte).toNat ∧
    (cmpState 1 63).lbuf[4]? = some 0 ∧
    (0 : Byte).toNat < ((cmpState 1 63).input.readAt 5 34).toNat := by
  and_intros <;> decide +kernel

theorem witness_Copy : (g64 scRing 95 0 63 0).geomOk = true ∧ (g64 scRing 95 0 63 0).geom.isRing 95 = true ∧
    (63 : Word).toNat ≤ 256 ∧ (63 : Word).toNat < (g64 scRing 95 0 63 0).geom.span := by
  and_intros <;> decide +kernel

theorem witness_LayoutSelection : (0x20 : Word).extractLsb' 4 2 = 2 ∧ (0x10 : Word).extractLsb' 4 2 = 1 ∧
    (0x0F : Word).extractLsb' 4 2 = 0 ∧ (22 : Word) = 22 ∧ (21 : Word) ≠ 22 ∧
    { g64 [] 0 0 0 0 with hdrSize := 57 }.hdrOk = true ∧ { g64 [] 0 0 0 0 with hdrSize := 58 }.hdrOk = false ∧
    { g64 [] 0 0 0 0 with hdrSize := 16 }.hdrOk = true ∧ { g64 [] 0 0 0 0 with ctrl := 0x30 }.hdrOk = false := by
  and_intros <;> decide +kernel

theorem witness_Hdec : (g64 hdrMem 90 0 0 0).hdrOk = true ∧ (g64 hdrMem 90 0 0 0).layout = .padded ∧
    { g64 hdrMem 90 0 0 0 with hdrSize := 16 }.hdrOk = true ∧
    { g64 hdrMem 90 0 0 0 with hdrSize := 16 }.layout = .compact ∧
    ∀ a ∈ [32, 90, 95], (g64 hdrMem 90 0 0 0).geom.isRing a = true := by
  and_intros <;> decide +kernel

theorem witness_HeaderRoundTrip : (g64 hdrMem 90 0 0 0).quiet ∧ (g64 hdrMem 90 0 0 0).hdrOk = true ∧
    (g64 hdrMem 90 0 0 0).holds 90 (encodeHdr .padded
      ⟨0x01020304, 0xA1A2A3A4, 0xB1B2B3B4, 0x0801, 0xFFFE⟩ 22) := by
  refine ⟨rfl, by decide, ?_⟩
  unfold Parametric.State.holds
  decide +kernel

theorem witness_OperandOutsideDomain : (g64 [] 0 0 0 0).geomOk = true ∧ (g64 [] 0 0 0 0).hdrOk = true ∧
    (∀ a ∈ ([31, 96] : List Int), ¬((g64 [] 0 0 0 0).bufOffset.toNat ≤ (wd a).toNat ∧
      (wd a).toNat < (g64 [] 0 0 0 0).bufSize.toNat)) ∧
    (∀ m ∈ ([0, 17] : List Int), ¬(1 ≤ (wd m).toNat ∧ (wd m).toNat ≤ 16)) ∧
    256 < (257 : Word).toNat ∧ (g64 [] 0 0 0 0).bufSize.toNat - (g64 [] 0 0 0 0).bufOffset.toNat ≤ (64 : Word).toNat :=
  by decide

/-- Every operation answers a next state from reset. -/
theorem witness_exec_next : ∀ i : Instr, ∃ t, exec i State.reset = .next t := by
  intro i
  cases i <;> exact ⟨_, rfl⟩

theorem witness_BadConfiguration : State.reset.geomOk = false ∧ { g64 [] 0 0 0 0 with hdrSize := 15 }.hdrOk = false ∧
    { g64 [] 0 0 0 0 with bufSize := 33 }.geomOk = false ∧ { g64 [] 0 0 0 0 with bufOffset := 19 }.geomOk = false ∧
    ∃ t, exec (.pop .b .aud) State.reset = .next t := ⟨by decide, by decide, by decide, by decide, _, rfl⟩

theorem witness_Route : (0x0C01 : Word).getLsbD 11 = true ∧
    (∀ n ∈ [8, 10], (0x0500 : Word).getLsbD n = true) ∧ (0x0500 : Word).getLsbD 11 = false ∧
    (0x0100 : Word).getLsbD 8 = true ∧ (∀ n ∈ [10, 11], (0x0100 : Word).getLsbD n = false) ∧
    ∀ n ∈ [8, 10, 11], (0xF2FF : Word).getLsbD n = false := by
  and_intros <;> decide +kernel

theorem witness_Seqw : (State.reset.resync.get .low).lvSet = false ∧ ((based 121 0 0).resync.get .high).lvSet = true ∧
    (∀ c ∈ ([122, 141] : List Int), 1 ≤ ((wd c).setWidth 16 - 121 : Half).toNat ∧
      ((wd c).setWidth 16 - 121 : Half).toNat ≤ 20) ∧
    (∀ c ∈ ([121, 142] : List Int), ¬(1 ≤ ((wd c).setWidth 16 - 121 : Half).toNat ∧
      ((wd c).setWidth 16 - 121 : Half).toNat ≤ 20)) ∧
    (((based 121 39 0).resync.get .high).invRun + 1).toNat ≤ 40 ∧
    40 < (((based 121 40 0).resync.get .high).invRun + 1).toNat := by
  and_intros <;> decide +kernel

theorem witness_SyncLoss : ((based 121 0 0).resync.get .high).lvSet = true ∧
    ((based 121 0 0).resync.get .high).invRun = 0 ∧ (List.replicate 40 (121 : Word)).length = 40 ∧
    (∀ c ∈ List.replicate 40 (121 : Word), violates 121 c) ∧ violates 121 142 ∧
    ¬ violates ((seqwAll .high [500, 121] (based 121 0 0)).resync.get .high).lastValid 141 := by
  refine ⟨rfl, rfl, rfl, fun c hc => ?_, ?_, ?_⟩
  · rw [List.eq_of_mem_replicate hc]; unfold violates; decide
  · unfold violates; decide
  · unfold violates; decide +kernel

theorem witness_Seql : (State.reset.resync.get .low).lvSet = false ∧ ((based 121 0 0).resync.get .high).lvSet = true ∧
    (0 : Int) < (65536 + (123 : Int) - 121) % 65536 - 1 ∧ (65536 + (122 : Int) - 121) % 65536 - 1 ≤ 0 ∧
    (65536 + (121 : Int) - 121) % 65536 - 1 ≤ 0 := by
  and_intros <;> decide +kernel

/-- A state for `deliver` with this `CTRL`, a HIGH ring of `cap` bytes, and the ring bytes and table of 2.9. -/
def deliverState (ctrl cap : Word) : State :=
  { based 121 0 0 with
    ctrl := ctrl
    ring := State.reset.ring.set .high (OutRing.fresh cap)
    spslut := (emitState 6 1).spslut
    input := (emitState 6 1).input }

/-- No entry of the table is the frame. -/
theorem not_firstSps {s : State} {bytes : List Byte} (h : ∀ e ∈ s.spslut.toList,
    ¬(e.ofLength bytes.length ∧ e.pattern.toList.take bytes.length = bytes)) : ∀ e, ¬ s.firstSps bytes e :=
  fun e ⟨b, a, heq, _, hf⟩ => h e (by rw [heq]; simp) hf

/-- Route and enable: no route, and each stream disabled and enabled. -/
theorem witness_DeliveryOrder_route : (∀ n ∈ [8, 10, 11], (0x0001 : Half).getLsbD n = false) ∧
    (0x0C00 : Half).getLsbD 11 = true ∧ (0x0500 : Half).getLsbD 11 = false ∧ (0x0500 : Half).getLsbD 10 = true ∧
    (0x0100 : Half).getLsbD 10 = false ∧ (0x0100 : Half).getLsbD 8 = true ∧
    (∀ n ∈ [1, 2, 3], (deliverState 0x1 16).ctrl.getLsbD n = false) ∧
    (∀ n ∈ [1, 2, 3], (deliverState 0xE 16).ctrl.getLsbD n = true) := by
  and_intros <;> decide +kernel

/-- A HIGH frame past the sequence check with the rewriter off: an SPS of 5, 6 and 7 bytes, frames of 15 and 16
bytes for a ring of 16. -/
theorem witness_DeliveryOrder_plain :
    (seqCheck .scan .high 121 (deliverState 4 16)).1 = .suppressed ∧ (seqCheck .scan .high 122 (deliverState 4 16)).1 = .ok ∧
    (5 : Word).toNat < 6 ∧ (6 : Word).toNat - 6 = 0 ∧ 0 < (7 : Word).toNat - 6 ∧ (0 : Word).toNat = 0 ∧
    (deliverState 4 16).ctrl.getLsbD 0 = false ∧
    ((seqCheck .scan .high 122 (deliverState 4 16)).2.ring.get .high).cap.toNat ≤ (16 : Word).toNat ∧
    ((seqCheck .scan .high 122 (deliverState 4 16)).2.ring.get .high).cap.toNat ≤ (22 : Word).toNat - 6 ∧
    (15 : Word).toNat < ((seqCheck .scan .high 122 (deliverState 4 16)).2.ring.get .high).cap.toNat := by
  and_intros <;> decide +kernel

/-- The rewriter on: an SPS of 12 bytes with payload at 86 is the first entry's frame, one of 11 bytes no entry's;
the replacement of 8 bytes fits a ring of 9 bytes and not one of 8. -/
theorem witness_DeliveryOrder_rewriter :
    (seqCheck .scan .high 122 (deliverState 5 9)).1 = .ok ∧ (deliverState 5 9).ctrl.getLsbD 0 = true ∧
    (seqCheck .scan .high 122 (deliverState 5 9)).2.geom.move 86 6 = 92 ∧
    (seqCheck .scan .high 122 (deliverState 5 9)).2.firstSps
      ((seqCheck .scan .high 122 (deliverState 5 9)).2.bytesRead 92 ((12 : Word).toNat - 6)) (deliverState 5 9).spslut[0] ∧
    (∀ e, ¬ (seqCheck .scan .high 122 (deliverState 5 9)).2.firstSps
      ((seqCheck .scan .high 122 (deliverState 5 9)).2.bytesRead 92 ((11 : Word).toNat - 6)) e) ∧
    (deliverState 5 9).spslut[0].rlen.toNat < ((seqCheck .scan .high 122 (deliverState 5 9)).2.ring.get .high).cap.toNat ∧
    ((seqCheck .scan .high 122 (deliverState 5 8)).2.ring.get .high).cap.toNat ≤ (deliverState 5 8).spslut[0].rlen.toNat := by
  refine ⟨?_, ?_, ?_, ⟨[], (deliverState 5 9).spslut.toList.drop 1, ?_⟩, not_firstSps ?_, ?_, ?_⟩
  case refine_4 => exact ⟨by decide +kernel, by simp, by decide +kernel⟩
  all_goals decide +kernel

theorem witness_PolicySelection : (0xBF : Word).getLsbD 6 = false ∧ (0x40 : Word).getLsbD 6 = true ∧
    (0x7F : Word).getLsbD 7 = false ∧ (0x80 : Word).getLsbD 7 = true := by
  and_intros <;> decide +kernel

/-- `p5` with a span of 64 bytes. -/
def shortP5 (commit : Byte) (valid : Bool) : State :=
  { p5 13 95 commit with bufSize := 96, curValid := valid }

theorem witness_PollsSamples : (shortP5 64 true).hdrOk = true ∧ (shortP5 64 true).geom.isRing 95 = true ∧
    (shortP5 64 true).geom.span ≤ leBytes [(shortP5 64 true).input.readAt 1 16,
      (shortP5 64 true).input.readAt 2 17, (shortP5 64 true).input.readAt 3 18, (shortP5 64 true).input.readAt 4 19] ∧
    (shortP5 63 false).curValid = false ∧
    leBytes [(shortP5 63 false).input.readAt 1 16, (shortP5 63 false).input.readAt 2 17,
      (shortP5 63 false).input.readAt 3 18, (shortP5 63 false).input.readAt 4 19] < (shortP5 63 false).geom.span := by
  and_intros <;> decide +kernel

theorem witness_PollsWithoutTwo :
    ((p5 13 52 20).quiet ∧ (p5 13 52 20).hdrOk = true ∧ (p5 13 52 20).curValid = true ∧
      (p5 13 52 20).geom.isRing 52 = true ∧ (p5 13 52 20).irhNow 16 = 20 ∧
      (p5 13 52 20).noMatch 52 ((p5 13 52 20).geom.dist 52 52) [0, 0, 0, 1]) ∧
    (p5 13 44 20).noMatch 44 ((p5 13 44 20).geom.dist 44 52) [0, 0, 0, 1] ∧
    (p5 13 43 20).firstMatch 43 ((p5 13 43 20).geom.dist 43 52) [0, 0, 0, 1] 0 ∧
    (p5 13 43 20).noMatch ((p5 13 43 20).geom.move 43 4)
      ((p5 13 43 20).geom.dist ((p5 13 43 20).geom.move 43 4) 52) [0, 0, 0, 1] := by
  refine ⟨⟨rfl, by decide, by decide, by decide, by decide +kernel, noMatch_of ?_⟩, noMatch_of ?_, ?_, noMatch_of ?_⟩
  · unfold Parametric.State.holds; decide +kernel
  · unfold Parametric.State.holds; decide +kernel
  · unfold Parametric.State.firstMatch Parametric.State.holds; decide +kernel
  · unfold Parametric.State.holds; decide +kernel

/-- Two start codes at 254 and 277 of the ring of P5, committed up to 52. -/
def twoStartCodes (s : State) : Prop :=
  s.quiet ∧ s.hdrOk = true ∧ s.curValid = true ∧ s.cur.toNat = 232 ∧ s.geom.isRing 232 = true ∧ s.irhNow 16 = 20 ∧
  s.geom.dist 232 52 = 76 ∧ s.firstMatch 232 76 [0, 0, 0, 1] 22 ∧ s.geom.wrap (232 + 22) = 254 ∧
  s.geom.move 254 4 = 258 ∧ s.geom.dist 258 52 = 50 ∧ s.firstMatch 258 50 [0, 0, 0, 1] 19 ∧
  s.geom.wrap (258 + 19) = 277 ∧ s.geom.dist 254 277 = 23

/-- `p5` with no usable signature. -/
def p5NoSig : State := { p5 13 232 20 with sig := Vector.replicate _ 0 }

theorem witness_PollsHandlesOneFrame :
    (twoStartCodes p5NoSig ∧
      sigLookup (p5NoSig.ringByte 254 4) (p5NoSig.ringByte 254 5) p5NoSig.sig.toList = none) ∧
    (twoStartCodes (p5 23 232 20) ∧
      sigLookup ((p5 23 232 20).ringByte 254 4) ((p5 23 232 20).ringByte 254 5) (p5 23 232 20).sig.toList = some .sps ∧
      (p5 23 232 20).geom.move 254 (-22) = 232 ∧ 23 ≤ ((p5 23 232 20).headerNow 232).length.toNat) ∧
    twoStartCodes (p5 22 232 20) ∧
      sigLookup ((p5 22 232 20).ringByte 254 4) ((p5 22 232 20).ringByte 254 5) (p5 22 232 20).sig.toList = some .sps ∧
      (p5 22 232 20).geom.move 254 (-22) = 232 ∧ ((p5 22 232 20).headerNow 232).length.toNat < 23 := by
  unfold twoStartCodes Parametric.State.quiet Parametric.State.firstMatch Parametric.State.holds
  and_intros <;> first | rfl | decide +kernel

/-- A `SIG` entry matches the two bytes (R152). -/
abbrev sigHits (b0 b1 : Byte) (e : Word) : Prop := (e.extractLsb' 20 3).toNat ≤ 4 ∧
  ((e.extractLsb' 16 2 = 1 ∧ e.extractLsb' 0 8 = b0) ∨
    (e.extractLsb' 16 2 = 2 ∧ e.extractLsb' 0 8 = b0 ∧ e.extractLsb' 8 8 = b1))

/-- A table whose entry 7 alone matches 65 88: `LEN` 0 and 3, `KIND` 5, another `B1`, `B0` or `LEN` before it. -/
def sigState : State :=
  { State.reset with
    sig := #v[0x00008865, 0x00038865, 0x00518865, 0x00528865, 0x00728865, 0x00428965, 0x00418866, 0x00428865] }

theorem witness_SignatureLookup : sigState.sig[7]? = some (wd 0x00428865) ∧ sigHits 0x65 0x88 (wd 0x00428865) ∧
    (∀ j : Fin 7, ¬ sigHits 0x65 0x88 sigState.sig[j]) ∧ sigHits 0x67 0 (wd 0x00210067) ∧
    ∀ j : Fin 8, ¬ sigHits 0x67 0x88 sigState.sig[j] := by
  and_intros <;> decide +kernel

/-- The commit field and the echo field as the polls read them. -/
def commitOf (s : State) : Nat :=
  leBytes [s.input.readAt 1 16, s.input.readAt 2 17, s.input.readAt 3 18, s.input.readAt 4 19]
def echoOf (s : State) : Nat :=
  leBytes [s.input.readAt 9 12, s.input.readAt 10 13, s.input.readAt 11 14, s.input.readAt 12 15]

/-- `chainState` with a span of 64 bytes. -/
def shortChain (off : Byte) (valid : Bool) : State :=
  { chainState off off [] with bufSize := 96, curValid := valid }

theorem witness_PollcSamples : (chainState 8 9 []).hdrOk = true ∧
    commitOf (chainState 8 9 []) ≠ echoOf (chainState 8 9 []) ∧ (chainState 8 9 []).geom.isRing 32 = true ∧
    (shortChain 64 true).hdrOk = true ∧ (shortChain 64 true).geom.span ≤ commitOf (shortChain 64 true) ∧
    (shortChain 63 false).curValid = false ∧ commitOf (shortChain 63 false) = echoOf (shortChain 63 false) ∧
    commitOf (shortChain 63 false) < (shortChain 63 false).geom.span ∧
    (shortChain 0 true).cur.toNat = (shortChain 0 true).bufOffset.toNat + commitOf (shortChain 0 true) ∧
    commitOf (shortChain 0 true) = echoOf (shortChain 0 true) := by
  and_intros <;> decide +kernel

/-- A chain of 16-byte compact headers of empty frames, `n` of them committed. -/
def emptyFrames (n : Nat) : State :=
  { chainState (BitVec.ofNat 8 (16 * n)) (BitVec.ofNat 8 (16 * n)) (List.replicate (16 * n) 0) with hdrSize := 16 }

/-- The first `k` entries of its walk table. -/
def emptyTab (k : Nat) : List (Nat × Hdr) :=
  (List.range k).map (fun i => (32 + 16 * i, ⟨0, 0, 0, 0, 0⟩))

theorem witness_PollcDiscards :
    ((emptyFrames 11).quiet ∧ (emptyFrames 11).hdrOk = true ∧ (emptyFrames 11).curValid = true ∧
      (emptyFrames 11).geom.isRing 32 = true ∧ (emptyFrames 11).irhNow 16 = (emptyFrames 11).irhNow 12 ∧
      (emptyFrames 11).irhNow 16 = 176 ∧ (emptyFrames 11).chainNow 208 32 (emptyTab 10) 192 ∧
      (emptyTab 10).length = 10) ∧
    (chainState 10 10 (frame213 0)).chainNow 42 32 [] 32 ∧
    (chainState 10 10 (frame213 0)).geom.dist 32 42 <
      22 + ((chainState 10 10 (frame213 0)).headerNow 32).length.toNat := by
  refine ⟨⟨rfl, by decide, rfl, by decide, by decide +kernel, by decide +kernel, chainNow_of_check ?_, rfl⟩, rfl, ?_⟩ <;>
    decide +kernel

theorem witness_PollcDelivers :
    (emptyFrames 10).quiet ∧ (emptyFrames 10).hdrOk = true ∧ (emptyFrames 10).irhNow 16 = (emptyFrames 10).irhNow 12 ∧
    (emptyFrames 10).irhNow 16 = 160 ∧
    (emptyFrames 10).chainNow 192 32 (emptyTab 9 ++ [(176, ⟨0, 0, 0, 0, 0⟩)]) 192 ∧ (emptyTab 9).length ≤ 9 ∧
    (emptyFrames 1).chainNow 48 32 ([] ++ [(32, ⟨0, 0, 0, 0, 0⟩)]) 48 := by
  refine ⟨rfl, by decide, by decide +kernel, by decide +kernel, chainNow_of_check ?_, by decide, chainNow_of_check ?_⟩ <;>
    decide +kernel

theorem witness_DeliveryLoop : ([(176, ⟨0, 0, 0, 0, 0⟩)] : List (Nat × Hdr)) ≠ [] ∧
    (deliver .chain ⟨0, 0, 0, 0, 0⟩ 48 false (emptyFrames 2)).1 = .misclass := by
  and_intros <;> decide +kernel

theorem witness_WalkIsBounded : geom64.ok = true ∧ geom64.isRing 32 = true ∧ geom64.isRing 95 = true ∧
    (walk geom64 .compact 16 32 10 32 [] { mem := [], pending := [] }).1 = .done [] ∧
    (walk (emptyFrames 10).geom .compact 16 192 10 32 [] (emptyFrames 10).input).1 =
      .done (emptyTab 9 ++ [(176, ⟨0, 0, 0, 0, 0⟩)]) ∧
    (walk (emptyFrames 11).geom .compact 16 208 10 32 [] (emptyFrames 11).input).1 = .sync 10 ∧
    (walk (emptyFrames 1).geom .compact 16 33 10 32 [] (emptyFrames 1).input).1 = .sync 0 := by
  and_intros <;> decide +kernel

theorem witness_OutcomeNibbles : (List.replicate 9 StatusCode.skipped).length ≤ 9 := by
  decide +kernel

theorem witness_EmitCopies : (emitState 1 0).geomOk = true ∧ (emitState 1 0).geom.isRing 92 = true ∧
    (∀ n ∈ ([1, 63] : List Int), 0 < (wd n).toNat ∧ (wd n).toNat < (emitState (wd n) 0).geom.span ∧
      (wd n).toNat < ((emitState (wd n) 0).ring.get .high).cap.toNat) ∧
    (0 : Word).getLsbD 0 = false ∧ { emitState 1 1 with ctrl := 0x0E }.ctrl.getLsbD 0 = false := by
  and_intros <;> decide +kernel

theorem witness_EmitRewrites : (emitState 6 1).geomOk = true ∧ (emitState 6 1).geom.isRing 92 = true ∧
    (emitState 6 1).arg[3].getLsbD 0 = true ∧ (emitState 6 1).ctrl.getLsbD 0 = true ∧
    (emitState 6 1).firstSps ((emitState 6 1).bytesRead 92 6) (emitState 6 1).spslut[0] ∧
    (emitState 6 1).spslut[0].rlen.toNat < ((emitState 6 1).ring.get .high).cap.toNat ∧
    ({ emitState 6 1 with ring := State.reset.ring.set .high (OutRing.fresh 8) }.ring.get .high).cap.toNat ≤
      (emitState 6 1).spslut[0].rlen.toNat ∧
    ∀ e, ¬ (emitState 5 1).firstSps ((emitState 5 1).bytesRead 92 5) e := by
  refine ⟨?_, ?_, ?_, ?_, ⟨[], (emitState 6 1).spslut.toList.drop 1, ?_⟩, ?_, ?_, not_firstSps ?_⟩
  case refine_5 => exact ⟨by decide +kernel, by simp, by decide +kernel⟩
  all_goals decide +kernel

theorem witness_Push : ∀ n ∈ ([1, 256] : List Int), (pushState (wd n)).arg[1] = wd n ∧ 0 < (wd n).toNat ∧
    (wd n).toNat ≤ 256 ∧ (wd n).toNat < ((pushState (wd n)).ring.get .aud).cap.toNat := by decide +kernel

theorem witness_Refused : (pushState 0).arg[1] = 0 ∧ (emitState 0 0).arg[1] = 0 ∧ (emitState 0 0).geomOk = true ∧
    (emitState 0 0).geom.isRing 92 = true ∧ 0 < (16 : Word).toNat ∧ (16 : Word).toNat ≤ 256 ∧
    ((deliverState 0 16).ring.get .high).cap.toNat ≤ (16 : Word).toNat ∧
    (16 : Word).toNat < (deliverState 0 16).geom.span ∧ (deliverState 1 16).arg[3].getLsbD 0 = false ∧
    (emitState 16 1).arg[3].getLsbD 0 = true ∧ { emitState 16 1 with ctrl := 0x0E }.ctrl.getLsbD 0 = false := by
  and_intros <;> decide +kernel

theorem witness_Pop : (State.reset.ring.get .low).frd = (State.reset.ring.get .low).fwr ∧
    (pushedState.ring.get .aud).frd ≠ (pushedState.ring.get .aud).fwr := by
  and_intros <;> decide +kernel

theorem witness_PushedFrame : ((pushState 3).ring.get .aud).frd = ((pushState 3).ring.get .aud).fwr ∧
    ((pushState 3).ring.get .aud).fwr.toNat < 42 ∧ ∃ t, exec (.push .aud) (pushState 3) = .next t :=
  ⟨by decide, by decide, _, rfl⟩

theorem witness_NewestDescriptors : (OutRing.fresh 16).fwr.toNat < 42 ∧ (OutRing.fresh 16).owr.toNat < 16 ∧
    (∀ f ∈ List.replicate 43 (([7] : List Byte), (1 : Word)), 0 < f.1.length ∧ f.1.length < 16) ∧
    (List.replicate 43 (([7] : List Byte), (1 : Word))).length ≤ 1 + 42 := by
  and_intros <;> decide +kernel

theorem witness_Srst : pushedState.consumer = [] ∧
    ∃ t, exec .srst { pushedState with consumer := [[.write 0x2000 0x221], []] } = .next t := ⟨rfl, _, rfl⟩

/-- The hypotheses `exec i s = .next t` with `i` no cursor operation, no POP, no SRST, not COPY. -/
theorem witness_WholeMachine : ∃ t, exec .route State.reset = .next t ∧ Instr.route ≠ .polls ∧ Instr.route ≠ .pollc ∧
    Instr.route ≠ .srst ∧ Instr.route ≠ .copy ∧ (∀ st, Instr.route ≠ .seqw st ∧ Instr.route ≠ .seql st) ∧
    (∀ p o, Instr.route ≠ .pop p o) ∧ StreamId.low ≠ .aud ∧ State.reset.consumer = [] :=
  ⟨_, rfl, by decide, by decide, by decide, by decide, by simp, by simp, by decide, rfl⟩

theorem witness_ValidCursor : (p5 13 232 20).curValid = true ∧ (p5 13 232 20).geom.isRing 232 = true ∧
    result (exec .polls (p5 13 232 20)) Parametric.State.curValid = some true := by
  and_intros <;> decide +kernel

theorem witness_ReadsStayInside : agreeWhereRead geom64 [] [(8, 1)] ∧ agreeWhereRead geom64 [] [(96, 1)] ∧
    agreeWhereRead geom64 [] [(31, 1)] := by
  refine ⟨?_, ?_, ?_⟩ <;> intro a ha <;>
    rw [imemByte, imemByte, Memory.read, Memory.read, Memory.read, if_neg] <;> simp [geom64] at ha <;> omega

theorem witness_ConsumerTouches :
    (∀ off, ∃ t, consumerAccess (.read off) State.reset = .next t) ∧
    (∃ t, consumerAccess (.write 0x2000 0x21) State.reset = .next t) ∧ State.reset.resb[2]? = some 0 ∧
    (∀ off ∈ [0xC0, 0xFC, 0x1000, 0x1BFC], off % 4 = 0 ∧
      ((0xC0 ≤ off ∧ off ≤ 0xFC) ∨ (0x1000 ≤ off ∧ off ≤ 0x1BFC)) ∧ ∃ w, masterRead off State.reset =
        .next { State.reset with rdataA := w }) ∧
    ∀ off ∈ [0, 0xBC, 0x100, 0xFFC, 0x1C00, 0x1FFC, 0x2014], ¬(0x2000 ≤ off ∧ off ≤ 0x2010) ∧
      ¬(0xC0 ≤ off ∧ off ≤ 0xFC) ∧ ¬(0x1000 ≤ off ∧ off ≤ 0x1BFC) :=
  ⟨fun _ => ⟨_, rfl⟩, ⟨_, rfl⟩, rfl, by simp; exact ⟨⟨_, rfl⟩, ⟨_, rfl⟩, ⟨_, rfl⟩, _, rfl⟩, by decide⟩

theorem witness_MasterWrites : (∀ i ∈ [0, 3], ∃ e, State.reset.spslut[i]? = some e) ∧
    ∀ off ∈ [0x14, 0x28, 0x38, 0x40, 0xFC, 0x130, 0x1FC, 0x300, 0x3FC, 0x404, 0x43C, 0x4C0, 0x4FC, 0x7C0, 0x7FC, 0x800,
        0x1FFC],
      off % 4 = 0 ∧ (off = 0x14 ∨ (0x28 ≤ off ∧ off < 0x3C) ∨ (0x40 ≤ off ∧ off < 0x100) ∨
        (0x130 ≤ off ∧ off < 0x200) ∨ (0x300 ≤ off ∧ off < 0x400) ∨
        (0x400 ≤ off ∧ off < 0x800 ∧ (4 ≤ off % 0x100 ∧ off % 0x100 < 0x40 ∨ 0xC0 ≤ off % 0x100)) ∨
        (0x800 ≤ off ∧ off < 0x2000)) :=
  ⟨by simp, by decide +kernel⟩

theorem witness_MasterReads : (∃ w, State.reset.arg[3]? = some w) ∧ (∃ w, State.reset.res[4]? = some w) ∧
    (∃ w, State.reset.sig[7]? = some w) ∧ (∃ e, State.reset.spslut[3]? = some e) ∧
    Memory.read (pushedState.ring.get .aud).desc 0 = some { off := 0, seq := 7, size := 3 } ∧
    ∀ off ∈ [0x48, 0x7C, 0xB0, 0xBC, 0xF0, 0xFC, 0x130, 0x1FC, 0x300, 0x3FC, 0x404, 0x43C, 0x4C0, 0x7FC, 0x800, 0xFFC,
        0x12A0, 0x13FC, 0x1AA0, 0x1BFC, 0x1C00, 0x1FFC],
      off % 4 = 0 ∧ ((0x48 ≤ off ∧ off < 0x80) ∨ (0xB0 ≤ off ∧ off < 0xC0) ∨ (0xF0 ≤ off ∧ off < 0x100) ∨
        (0x130 ≤ off ∧ off < 0x200) ∨ (0x300 ≤ off ∧ off < 0x400) ∨
        (0x400 ≤ off ∧ off < 0x800 ∧ (4 ≤ off % 0x100 ∧ off % 0x100 < 0x40 ∨ 0xC0 ≤ off % 0x100)) ∨
        (0x800 ≤ off ∧ off < 0x1000) ∨ (0x1000 ≤ off ∧ off < 0x1C00 ∧ 0x2A0 ≤ off % 0x400) ∨
        (0x1C00 ≤ off ∧ off < 0x2000)) :=
  ⟨⟨_, rfl⟩, ⟨_, rfl⟩, ⟨_, rfl⟩, ⟨_, rfl⟩, by decide +kernel, by decide +kernel⟩

theorem witness_MasterReadBack : (∀ off ∈ [0x18, 0x24, 0x100, 0x10C, 0x200, 0x2FC, 0x440, 0x4BC, 0x740, 0x7BC], off % 4 = 0 ∧
      ((0x18 ≤ off ∧ off < 0x28) ∨ (0x100 ≤ off ∧ off < 0x110) ∨ (0x200 ≤ off ∧ off < 0x300) ∨
        (0x400 ≤ off ∧ off < 0x800 ∧ 0x40 ≤ off % 0x100 ∧ off % 0x100 < 0xC0))) ∧
    (∀ off ∈ [0x400, 0x700], off % 4 = 0 ∧ 0x400 ≤ off ∧ off < 0x800 ∧ off % 0x100 = 0) ∧
    (∃ t, masterWrite 0x18 7 State.reset = .next t) ∧ (∃ t, masterWrite 0x110 7 State.reset = .next t) ∧
    (∃ t, masterWrite 0x12C 7 State.reset = .next t) ∧ (∃ t, masterWrite 0x400 7 State.reset = .next t) ∧
    ∃ t, masterWrite 0x7BC 7 State.reset = .next t :=
  ⟨by decide, by decide, ⟨_, rfl⟩, ⟨_, rfl⟩, ⟨_, rfl⟩, ⟨_, rfl⟩, _, rfl⟩

theorem witness_ResetInput : { pushedState with inbox := [HostAct.resetInput] }.inbox = HostAct.resetInput :: [] := rfl

/-- A state with an unread frame and a POP to come meets the invariant. -/
theorem witness_Inv : pushedState.Inv where
  ctrlReserved := by decide
  eventReserved := by decide
  statusCode := ⟨.ok, rfl⟩
  statusbCode := ⟨.ok, rfl⟩
  sigReserved := by simp [pushedState, pushState, g64, State.reset, Parametric.State.reset]
  imemWf := List.Pairwise.nil
  rings := fun o => by
    cases o
    · exact OutRing.Inv.fresh (by decide)
    · exact OutRing.Inv.fresh (by decide)
    · exact (OutRing.Inv.fresh (by decide)).store _ _ (by decide) (by decide)

theorem witness_InvStep : (pushedState.ring.get .aud).frd ≠ (pushedState.ring.get .aud).fwr ∧
    ∃ t, step pushedState = .next t ∧ ∃ u, exec (.pop .b .aud) pushedState = .next u ∧
    ∃ v, exec (.pop .a .aud) pushedState = .next v := ⟨by decide +kernel, _, rfl, _, rfl, _, rfl⟩

theorem witness_Safe : ({ State.reset with inbox := [.masterRead 0x1FFC, .masterWrite 0 1, .resetInput] } : State).Safe := by
  unfold Parametric.State.Safe; decide

end Sys2Proof.Tests
end

section
/-! What an operation may change, as one relation between the state before and the state after that is closed under
composition: each update of the state and each shared operation has one rule, and the frame of an operation
follows the chain of its updates (spec/10_state.md R11 to R23). -/

namespace Sys2Proof

/-- The operations that may write `CUR` and `CUR_VALID` (R12). -/
def Instr.writesCursor : Instr → Bool
  | .polls | .pollc | .srst => true
  | _ => false

/-- The operations that may write the resync state of stream `st` (R19). -/
def Instr.writesResync (st : StreamId) : Instr → Bool
  | .polls | .pollc | .srst => true
  | .seqw o | .seql o => decide (o = st)
  | _ => false

/-- The operations that may move a read index by themselves (R20). -/
def Instr.movesReadIndex : Instr → Bool
  | .pop _ _ | .srst => true
  | _ => false

namespace Machine

/-- A valid cursor is a ring address (R12). -/
def Parametric.State.CursorOk {P : Params} (s : Parametric.State P) : Prop :=
  s.curValid = true → s.geom.isRing s.cur.toNat = true

theorem State.toWord_toNat_of_isRing {s : State} {a : Nat} (ha : s.geom.isRing a = true) :
    (toWord a).toNat = a :=
  toWord_toNat (lt_trans ((State.isRing_iff s a).1 ha).2 s.bufSize.isLt)

/-- What holds of a replaced element, and of an element and itself, holds of every element. -/
theorem PerStream.rel_get_set {α : Type} {R : α → α → Prop} {v : PerStream α} {s : StreamId} {x : α}
    (hrefl : ∀ y, R y y) (h : R (v.get s) x) (o : StreamId) : R (v.get o) ((v.set s x).get o) := by
  by_cases ho : o = s
  · subst ho
    rwa [PerStream.get_set_same]
  · rw [PerStream.get_set_ne _ _ ho]
    exact hrefl _

theorem PerStream.eq_of_get {α : Type} {v w : PerStream α} (h : ∀ o, v.get o = w.get o) : v = w := by
  obtain ⟨a, b, c⟩ := v
  obtain ⟨d, e, f⟩ := w
  rw [show a = d from h .low, show b = e from h .high, show c = f from h .aud]

/-- State `t` is what operation `i` may make of state `s`: every field outside the record update is kept, and the
others change only within the rights of `i`. -/
structure OpFrame (i : Instr) (s t : State) : Prop where
  eq : t = { s with status := t.status, res := t.res, cmdb := t.cmdb, statusb := t.statusb, resb := t.resb,
                    event := t.event, cur := t.cur, curValid := t.curValid, resync := t.resync, ring := t.ring,
                    lbuf := t.lbuf, input := t.input, consumer := t.consumer, rdataB := t.rdataB,
                    dataOutA := t.dataOutA, dataOutB := t.dataOutB }
  status : t.status = s.status ∨ ∃ c : StatusCode, t.status = c.word
  statusb : t.statusb = s.statusb ∨ ∃ c : StatusCode, t.statusb = c.word
  event : i ≠ .srst → ∃ ev, t.event = s.event ||| ev
  eventReserved : s.event.toNat < 4096 → t.event.toNat < 4096
  lbuf : i ≠ .copy → t.lbuf = s.lbuf
  input : ∃ k, t.input = s.input.advance k
  cursor : i.writesCursor = false → t.cur = s.cur ∧ t.curValid = s.curValid
  cursorOk : s.CursorOk → t.CursorOk
  resync : ∀ st, i.writesResync st = false → t.resync.get st = s.resync.get st
  consumer : s.consumer = [] → t.consumer = []
  cap : ∀ o, (t.ring.get o).cap = (s.ring.get o).cap
  ringInv : ∀ o, (s.ring.get o).Inv → (t.ring.get o).Inv
  readIndex : i.movesReadIndex = false → s.consumer = [] → ∀ o, (t.ring.get o).frd = (s.ring.get o).frd
  popOnly : ∀ p q, i = .pop p q → ∀ o, (s.ring.get o).popped (t.ring.get o) ∧
    (o ≠ q → t.ring.get o = s.ring.get o)

namespace OpFrame

variable {i : Instr} {s t u : State}

theorem refl (i : Instr) (s : State) : OpFrame i s s where
  eq := rfl
  status := .inl rfl
  statusb := .inl rfl
  event _ := ⟨0, by simp⟩
  eventReserved h := h
  lbuf _ := rfl
  input := ⟨0, by simp⟩
  cursor _ := ⟨rfl, rfl⟩
  cursorOk h := h
  resync _ _ := rfl
  consumer h := h
  cap _ := rfl
  ringInv _ h := h
  readIndex _ _ _ := rfl
  popOnly _ _ _ _ := ⟨rfl, fun _ => rfl⟩

theorem trans (h : OpFrame i s t) (h' : OpFrame i t u) : OpFrame i s u where
  eq := by
    have e := h'.eq
    rw [h.eq] at e
    exact e
  status := h'.status.elim (fun e => e ▸ h.status) .inr
  statusb := h'.statusb.elim (fun e => e ▸ h.statusb) .inr
  event hi := by
    obtain ⟨a, ha⟩ := h.event hi
    obtain ⟨b, hb⟩ := h'.event hi
    exact ⟨a ||| b, by rw [hb, ha, BitVec.or_assoc]⟩
  eventReserved := h'.eventReserved ∘ h.eventReserved
  lbuf hi := (h'.lbuf hi).trans (h.lbuf hi)
  input := by
    obtain ⟨j, hj⟩ := h.input
    obtain ⟨k, hk⟩ := h'.input
    exact ⟨j + k, by rw [hk, hj, InputRing.advance_add]⟩
  cursor hi := ⟨(h'.cursor hi).1.trans (h.cursor hi).1, (h'.cursor hi).2.trans (h.cursor hi).2⟩
  cursorOk := h'.cursorOk ∘ h.cursorOk
  resync st hi := (h'.resync st hi).trans (h.resync st hi)
  consumer := h'.consumer ∘ h.consumer
  cap o := (h'.cap o).trans (h.cap o)
  ringInv o := h'.ringInv o ∘ h.ringInv o
  readIndex hi hc o := (h'.readIndex hi (h.consumer hc) o).trans (h.readIndex hi hc o)
  popOnly p q hi o := by
    obtain ⟨a, a'⟩ := h.popOnly p q hi o
    obtain ⟨b, b'⟩ := h'.popOnly p q hi o
    exact ⟨OutRing.popped_trans a b, fun ho => (b' ho).trans (a' ho)⟩

theorem geom (h : OpFrame i s t) : t.geom = s.geom := congrArg (·.geom) h.eq

/-! ### One rule per update -/

theorem raise (i : Instr) (s : State) (e : Event) : OpFrame i s (s.raise e) :=
  { refl i s with eq := rfl, event := fun _ => ⟨e.mask, rfl⟩, eventReserved := fun h => Event.or_lt h e.mask_lt }

theorem finish (i : Instr) (s : State) (p : Port) (c : StatusCode) : OpFrame i s (s.finish p c) := by
  cases p
  · exact { refl i s with eq := rfl, status := .inr ⟨c, rfl⟩ }
  · exact { refl i s with eq := rfl, statusb := .inr ⟨c, rfl⟩ }

theorem setRes (i : Instr) (s : State) (j : Fin 5) (v : Word) : OpFrame i s (s.setRes j v) :=
  { refl i s with eq := rfl }

theorem setResults5 (i : Instr) (s : State) (v0 v1 v2 v3 v4 : Word) : OpFrame i s (s.setResults5 v0 v1 v2 v3 v4) :=
  { refl i s with eq := rfl }

theorem setResults3 (i : Instr) (s : State) (p : Port) (v0 v1 v2 : Word) : OpFrame i s (s.setResults3 p v0 v1 v2) := by
  cases p <;> exact { refl i s with eq := rfl }

theorem setDataOut (i : Instr) (s : State) (p : Port) (bs : List Byte) : OpFrame i s (s.setDataOut p bs) := by
  cases p <;> exact { refl i s with eq := rfl }

theorem setInput (i : Instr) (s : State) (k : Nat) : OpFrame i s (s.setInput (s.input.advance k)) :=
  { refl i s with eq := rfl, input := ⟨k, rfl⟩ }

theorem setLbuf (s : State) (v : Vector Byte Config.params.lbufSize) : OpFrame .copy s { s with lbuf := v } :=
  { refl .copy s with eq := rfl, lbuf := fun h => absurd rfl h }

theorem setResync {st : StreamId} (hi : i.writesResync st = true) (s : State) (r : Resync) :
    OpFrame i s (s.setResync st r) :=
  { refl i s with
    eq := rfl
    resync := fun o ho => PerStream.get_set_ne _ _ (by rintro rfl; simp [hi] at ho) }

/-- The cursor set to a ring address. -/
theorem setCur {a : Nat} (hi : i.writesCursor = true) (ha : s.geom.isRing a = true) : OpFrame i s (s.setCur a) :=
  { refl i s with
    eq := rfl
    cursor := fun h => absurd (hi.symm.trans h) (by decide)
    cursorOk := fun _ _ => (congrArg s.geom.isRing (State.toWord_toNat_of_isRing ha)).trans ha }

/-- The cursor set, within an operation, to an address of the geometry the operation began with. -/
theorem trans_setCur {a : Nat} (h : OpFrame i s t) (hi : i.writesCursor = true) (ha : s.geom.isRing a = true) :
    OpFrame i s (t.setCur a) :=
  h.trans (setCur hi (by rwa [h.geom]))

theorem initCur {a : Nat} (hi : i.writesCursor = true) (ha : s.geom.isRing a = true) : OpFrame i s (s.initCur a) :=
  { refl i s with
    eq := rfl
    cursor := fun h => absurd (hi.symm.trans h) (by decide)
    cursorOk := fun _ _ => (congrArg s.geom.isRing (State.toWord_toNat_of_isRing ha)).trans ha }

/-- A ring replaced by one of the same capacity that keeps the invariant. -/
theorem setRing {o : StreamId} {r : OutRing} (hcap : r.cap = (s.ring.get o).cap)
    (hinv : (s.ring.get o).Inv → r.Inv) (hfrd : i.movesReadIndex = false → r.frd = (s.ring.get o).frd)
    (hpop : ∀ p q, i = .pop p q → o = q ∧ (s.ring.get o).popped r) : OpFrame i s (s.setRing o r) :=
  { refl i s with
    eq := rfl
    cap := PerStream.rel_get_set (R := fun r r' : OutRing => r'.cap = r.cap) (fun _ => rfl) hcap
    ringInv := PerStream.rel_get_set (R := fun r r' : OutRing => r.Inv → r'.Inv) (fun _ h => h) hinv
    readIndex := fun hi _ => PerStream.rel_get_set (R := fun r r' : OutRing => r'.frd = r.frd) (fun _ => rfl) (hfrd hi)
    popOnly := fun p q hi o' =>
      ⟨PerStream.rel_get_set OutRing.popped_refl (hpop p q hi).2 o',
        fun ho => PerStream.get_set_ne _ _ ((hpop p q hi).1 ▸ ho)⟩ }

theorem setRing_pushed {o : StreamId} {r : OutRing} (hi : ∀ p q, i ≠ .pop p q) (h : (s.ring.get o).pushed r) :
    OpFrame i s (s.setRing o r) :=
  setRing (OutRing.pushed_cap h) (fun hr => hr.pushed h) (fun _ => OutRing.pushed_frd h)
    (fun p q e => absurd e (hi p q))

/-! ### One rule per shared operation -/

theorem errCfg (i : Instr) (s : State) : OpFrame i s s.errCfg := (raise i s _).trans (finish i _ _ _)

theorem errRange (i : Instr) (s : State) : OpFrame i s s.errRange := (raise i s _).trans (finish i _ _ _)

theorem seqWindow {st : StreamId} (hi : i.writesResync st = true) (c : Half) (s : State) :
    OpFrame i s (seqWindow st c s).2.2 := by
  rcases seqWindow_cases st c s with ⟨-, h⟩ | ⟨-, -, h⟩ | ⟨-, -, -, h⟩ | ⟨-, -, -, h⟩ <;> rw [h]
  · exact setResync hi _ _
  · exact setResync hi _ _
  · exact ((raise i s _).trans (setResync hi _ _)).trans (raise i _ _)
  · exact (raise i s _).trans (setResync hi _ _)

theorem seqLoss {st : StreamId} (hi : i.writesResync st = true) (c : Half) (s : State) :
    OpFrame i s (seqLoss st c s).2 := by
  simp only [Machine.seqLoss]
  split
  · exact setResync hi _ _
  · split
    · exact (setResync hi _ _).trans (raise i _ _)
    · exact setResync hi _ _

theorem push (hi : ∀ p q, i ≠ .pop p q) (o : StreamId) (bytes : List Byte) (sq : Word) (s : State) :
    OpFrame i s (push o bytes sq s).2 := by
  rcases push_cases o bytes sq s with ⟨-, h⟩ | ⟨-, -, h⟩ | ⟨h0, h1, h⟩ <;> rw [h]
  · exact raise i s _
  · exact raise i s _
  · exact setRing_pushed hi (.inr ⟨bytes, sq, h0, h1, rfl⟩)

theorem emit (hi : ∀ p q, i ≠ .pop p q) (st : StreamId) (a n : Nat) (sq : Word) (isSps : Bool) (s : State) :
    OpFrame i s (emit st a n sq isSps s).2 := by
  obtain ⟨k, ⟨c, e, h, -⟩ | ⟨bytes, h0, h1, h⟩⟩ := emit_cases st a n sq isSps s <;> rw [h]
  · exact (setInput i s k).trans (raise i _ e)
  · exact (setInput i s k).trans (setRing_pushed hi (.inr ⟨bytes, sq, h0, h1, rfl⟩))

theorem finishStored {r : Except StatusCode Stored × State} (h : OpFrame i s r.2) : OpFrame i s (finishStored r) := by
  obtain ⟨c | v, t⟩ := r
  · exact h.trans (finish i t .a c)
  · exact (h.trans (setResults3 i t .a v.size v.off v.slot)).trans (finish i _ .a .ok)

theorem popCommand (p : Port) (o : StreamId) (s : State) : OpFrame (.pop p o) s (popCommand p o s) := by
  rcases popCommand_cases p o s with ⟨-, h⟩ | ⟨hne, h⟩ <;> rw [h]
  · exact finish _ s _ _
  · have hring : OpFrame (.pop p o) s
        (s.setRing o { s.ring.get o with frd := toWord (((s.ring.get o).frd.toNat + 1) % 42) }) :=
      setRing rfl (fun hr => hr.pop hne) (fun h => by simp [Instr.movesReadIndex] at h)
        (fun _ _ e => by cases e; exact ⟨rfl, rfl⟩)
    exact ((hring.trans (setResults3 _ _ _ _ _ _)).trans (setDataOut _ _ _ _)).trans (finish _ _ _ _)

/-- Deliveries and consumer accesses, inside an operation that may write every resync state. -/
theorem batch (hi : ∀ st, i.writesResync st = true) (h : BatchFrame s t) : OpFrame i s t := by
  obtain ⟨⟨k, ev, hev, q⟩, hcap, hinv, hsb, hquiet⟩ := h
  have hcur : t.cur = s.cur := congrArg (·.cur) q
  have hvalid : t.curValid = s.curValid := congrArg (·.curValid) q
  have hgeom : t.geom = s.geom := congrArg (·.geom) q
  have hevent : t.event = s.event ||| ev := congrArg (·.event) q
  exact
    { eq := by rw [q]
      status := .inl (congrArg (·.status) q)
      statusb := hsb
      event := fun _ => ⟨ev, hevent⟩
      eventReserved := fun h => hevent ▸ Event.or_lt h hev
      lbuf := fun _ => congrArg (·.lbuf) q
      input := ⟨k, congrArg (·.input) q⟩
      cursor := fun _ => ⟨hcur, hvalid⟩
      cursorOk := fun h hv => by rw [hgeom, hcur]; exact h (hvalid ▸ hv)
      resync := fun st h => absurd ((hi st).symm.trans h) (by decide)
      consumer := fun h => (hquiet h).1
      cap := hcap
      ringInv := hinv
      readIndex := fun _ h => (hquiet h).2.2.2.2.2.2
      popOnly := by
        rintro p o rfl
        exact absurd (hi o) Bool.false_ne_true }

end OpFrame
end Machine
end Sys2Proof
end

section
/-! The frame of each operation (spec/41_ring_locator.md to spec/46_control.md). -/

namespace Sys2Proof.Machine

/-- The outcome is a next state within the rights of operation `i`. -/
def Answers (i : Instr) (s : State) (o : Host.Outcome State Fault Refusal) : Prop :=
  ∃ t, o = .next t ∧ OpFrame i s t

theorem Answers.next {i : Instr} {s t : State} (h : OpFrame i s t) : Answers i s (.next t) := ⟨t, rfl, h⟩

/-! ### What the searches report (spec/41_ring_locator.md R105) -/

theorem findWin_input {g : Geom} {src len : Nat} {pat : List Byte} {inp inp' : InputRing} {r : Option Nat}
    (h : findWin g src len pat inp = (r, inp')) : ∃ k, inp' = inp.advance k := by
  obtain ⟨k, hk, -⟩ := findWin_spec g src len pat inp
  exact ⟨k, by rw [← hk, h]⟩

/-- A match inside a window shorter than the span is at a ring address. -/
theorem findWin_isRing {g : Geom} {src len a : Nat} {pat : List Byte} {inp inp' : InputRing}
    (hsrc : g.isRing src = true) (hpat : pat ≠ []) (hlen : len ≤ g.span)
    (h : findWin g src len pat inp = (some a, inp')) : g.isRing a = true := by
  obtain ⟨_, -, hmatch⟩ := findWin_spec g src len pat inp
  obtain ⟨i, _, hi, rfl, -⟩ := hmatch a (by rw [h])
  have hpos := List.length_pos_of_ne_nil hpat
  obtain ⟨hlo, hhi⟩ := (Geom.isRing_iff g src).1 hsrc
  exact Geom.wrap_isRing (by omega) (by omega)

/-! ### Locator, codec, classification, sequence, rings -/

theorem execMove_answers (s : State) : Answers .move s (execMove s) := by
  simp only [execMove]
  split
  · exact .next (.errCfg _ s)
  split
  · exact .next (.errRange _ s)
  · exact .next ((OpFrame.setRes _ s _ _).trans (.finish _ _ _ _))

theorem execFind_answers (s : State) : Answers .find s (execFind s) := by
  simp only [execFind]
  split
  · exact .next (.errCfg _ s)
  split
  · exact .next (.errRange _ s)
  split
  all_goals
    rename_i heq
    obtain ⟨k, rfl⟩ := findWin_input heq
  · exact .next ((OpFrame.setInput _ s k).trans (.finish _ _ _ _))
  · exact .next (((OpFrame.setInput _ s k).trans (.setRes _ _ _ _)).trans (.finish _ _ _ _))

theorem cmpBytes_input (g : Geom) (a : Nat) (loc : List Byte) (k : Nat) (inp : InputRing) :
    ∃ n, (cmpBytes g a loc k inp).2 = inp.advance n := by
  rcases cmpBytes_spec g a loc k inp with ⟨-, h⟩ | ⟨_, _, -, -, h⟩ <;> exact ⟨_, congrArg Prod.snd h⟩

theorem execCmp_answers (s : State) : Answers .cmp s (execCmp s) := by
  simp only [execCmp]
  split
  · exact .next (.errCfg _ s)
  split
  · exact .next (.errRange _ s)
  · obtain ⟨n, hn⟩ := cmpBytes_input s.geom (s.argNat 0) (s.lbuf.toList.take (s.argNat 2)) 0 s.input
    rw [hn]
    exact .next (((OpFrame.setInput _ s n).trans (.setRes _ _ _ _)).trans (.finish _ _ _ _))

theorem execCopy_answers (s : State) : Answers .copy s (execCopy s) := by
  simp only [execCopy, copyBytes_spec]
  split
  · exact .next (.errCfg _ s)
  split
  · exact .next (.errRange _ s)
  · exact .next (((OpFrame.setInput _ s _).trans (.setLbuf _ _)).trans (.finish _ _ _ _))

theorem execHdec_answers (s : State) : Answers .hdec s (execHdec s) := by
  simp only [execHdec, decodeHdr_spec]
  split
  · exact .next (.errCfg _ s)
  split
  · exact .next (.errRange _ s)
  · exact .next (((OpFrame.setInput _ s 16).trans (.setResults5 _ _ _ _ _ _ _)).trans (.finish _ _ _ _))

theorem execRoute_answers (s : State) : Answers .route s (execRoute s) := by
  simp only [execRoute]
  split
  · exact .next ((OpFrame.raise _ s _).trans (.finish _ _ _ _))
  · exact .next (((OpFrame.setRes _ s _ _).trans (.setRes _ _ _ _)).trans (.finish _ _ _ _))

theorem execSeqw_answers (st : StreamId) (s : State) : Answers (.seqw st) s (execSeqw st s) :=
  .next (((OpFrame.seqWindow (by simp [Instr.writesResync]) _ s).trans (.setRes _ _ _ _)).trans (.finish _ _ _ _))

theorem execSeql_answers (st : StreamId) (s : State) : Answers (.seql st) s (execSeql st s) :=
  .next (((OpFrame.seqLoss (by simp [Instr.writesResync]) _ s).trans (.setRes _ _ _ _)).trans (.finish _ _ _ _))

theorem execEmit_answers (st : StreamId) (s : State) : Answers (.emit st) s (execEmit st s) := by
  simp only [execEmit]
  split
  · exact .next (.errCfg _ s)
  split
  · exact .next (.errRange _ s)
  · exact .next (.finishStored (.emit (by simp) _ _ _ _ _ _))

theorem execPush_answers (o : StreamId) (s : State) : Answers (.push o) s (execPush o s) := by
  simp only [execPush]
  split
  · exact .next (.errRange _ s)
  · exact .next (.finishStored (.push (by simp) _ _ _ _))

theorem execPop_answers (p : Port) (o : StreamId) (s : State) : Answers (.pop p o) s (execPop p o s) :=
  .next (.popCommand p o s)

/-! ### SRST (spec/46_control.md R200) -/

theorem clearTracking_frame (s : State) : OpFrame .srst s (clearTracking s) :=
  { OpFrame.refl .srst s with
    eq := rfl
    cursor := fun h => absurd h (by decide)
    cursorOk := fun _ h => absurd h (by simp [clearTracking])
    resync := fun _ h => absurd h Bool.noConfusion }

theorem clearRing_frame (o : StreamId) (s : State) : OpFrame .srst s (clearRing o s) :=
  .setRing rfl (fun h => h.clear) (fun h => absurd h (by decide)) (fun _ _ h => by cases h)

theorem clearEvent_frame (s : State) : OpFrame .srst s { s with event := 0 } :=
  { OpFrame.refl .srst s with
    eq := rfl
    event := fun h => absurd rfl h
    eventReserved := fun _ => (by decide : (0 : Nat) < 4096) }

theorem execSrst_answers (s : State) : Answers .srst s (execSrst s) := by
  have clearThenGap : ∀ o t, OpFrame .srst t (consumerGap (clearRing o t)) := fun o t =>
    (clearRing_frame o t).trans (.batch (fun _ => rfl) (.gap _))
  exact .next <| ((((clearTracking_frame s).trans (clearThenGap .low _)).trans (clearThenGap .high _)).trans
    (clearThenGap .aud _)).trans ((clearEvent_frame _).trans (.finish _ _ _ _))

/-! ### POLLS (spec/43_demux.md R150) -/

theorem State.hdrOk_span {s : State} (h : s.hdrOk = true) : 6 < s.geom.span := by
  simp only [Parametric.State.hdrOk, Bool.and_eq_true, decide_eq_true_eq] at h
  omega

theorem State.staleCursor_eq_false_iff (s : State) : s.staleCursor = false ↔ s.CursorOk := by
  simp [Parametric.State.staleCursor, Parametric.State.CursorOk]

/-- An offset below the span names a ring address. -/
theorem Geom.isRing_of_sample {g : Geom} {a : Nat} (h : g.off ≤ a ∧ a < g.off + g.span) : g.isRing a = true := by
  rw [Geom.isRing_iff]
  simp only [Geom.span] at h
  omega

theorem pollsHeader_frame (i : Instr) (hd : Hdr) (k : Nat) (s : State) :
    OpFrame i s (pollsHeader hd (s.input.advance k) s) :=
  (((OpFrame.setInput i s k).trans (.setRes _ _ _ _)).trans (.setRes _ _ _ _)).trans (.setRes _ _ _ _)

theorem decodeHdr_input {g : Geom} {l : Layout} {h : Nat} {inp inp' : InputRing} {hd : Hdr}
    (hdec : decodeHdr g l h inp = (hd, inp')) : inp' = inp.advance 16 := by
  rw [decodeHdr_spec] at hdec
  exact (congrArg Prod.snd hdec).symm

theorem pollsFrame_frame (i1 : Nat) {i2 : Nat} (k : NalKind) {s : State} (h2 : s.geom.isRing i2 = true) :
    OpFrame .polls s (pollsFrame i1 i2 k s) := by
  rcases hdec : decodeHdr s.geom s.layout (s.geom.move i1 (-(headerBack s.hdrSize.toNat k : Int))) s.input with
    ⟨hd, inp⟩
  obtain rfl := decodeHdr_input hdec
  have hheader := pollsHeader_frame .polls hd 16 s
  by_cases hl : hd.length.toNat < s.geom.dist i1 i2
  · rw [pollsFrame_deliver hdec hl rfl]
    have hdeliver := fun pay => hheader.trans (.batch (fun _ => rfl) (.deliver .scan hd pay (decide (k = .sps)) _))
    exact ((hdeliver _).trans_setCur rfl h2).trans (.finish _ _ _ _)
  · rw [pollsFrame_drop hdec (not_lt.1 hl)]
    exact ((hheader.trans (.raise _ _ _)).trans_setCur rfl h2).trans (.finish _ _ _ _)

theorem pollsAt_frame {i1 : Nat} {s : State} (h1 : s.geom.isRing i1 = true) : OpFrame .polls s (pollsAt i1 s) :=
  (OpFrame.setCur rfl h1).trans (.setRes _ _ _ _)

theorem pollsSecond_frame {i1 wr : Nat} {s : State} (hspan : 6 < s.geom.span) (h1 : s.geom.isRing i1 = true)
    (hwr : s.geom.isRing wr = true) : OpFrame .polls s (pollsSecond i1 wr s) := by
  have hsrc : s.geom.isRing (s.geom.move i1 4) = true := Geom.move_isRing h1 (by omega) (by omega)
  have hat := pollsAt_frame h1
  rcases hf : findWin s.geom (s.geom.move i1 4) (s.geom.dist (s.geom.move i1 4) wr) Config.params.startCode s.input with
    ⟨_ | i2, inp⟩
  all_goals obtain ⟨k, rfl⟩ := findWin_input hf
  · rw [pollsSecond_noSecond hf]
    exact (hat.trans (.setInput _ _ k)).trans (.finish _ _ _ _)
  · have h2 : s.geom.isRing i2 = true := findWin_isRing hsrc (by decide) (Geom.dist_lt hsrc hwr).le hf
    have hboth : OpFrame .polls s (pollsBoth i1 i2 (s.input.advance k) s) := by
      rw [pollsBoth, InputRing.advance_add]
      exact (hat.trans (.setRes _ _ _ _)).trans (.setInput _ _ _)
    rw [pollsSecond_second hf]
    split
    · exact ((hboth.trans (.raise _ _ _)).trans_setCur rfl h2).trans (.finish _ _ _ _)
    · exact hboth.trans (pollsFrame_frame _ _ h2)

theorem pollsSampled_frame {wr : Nat} {s : State} (hspan : 6 < s.geom.span) (hcur : s.CursorOk)
    (hwr : s.geom.isRing wr = true) : OpFrame .polls s (pollsSampled wr s) := by
  by_cases hv : s.curValid = true
  · rcases hf : findWin s.geom s.cur.toNat (s.geom.dist s.cur.toNat wr) Config.params.startCode s.input with
      ⟨_ | i1, inp⟩
    all_goals obtain ⟨k, rfl⟩ := findWin_input hf
    · rw [pollsSampled_noFirst hv hf]
      exact (OpFrame.setInput _ s k).trans (.finish _ _ _ _)
    · have h1 : s.geom.isRing i1 = true := findWin_isRing (hcur hv) (by decide) (Geom.dist_lt (hcur hv) hwr).le hf
      rw [pollsSampled_first hv hf]
      exact (OpFrame.setInput _ s k).trans (pollsSecond_frame hspan h1 hwr)
  · rw [pollsSampled_init wr (by simpa using hv)]
    exact (OpFrame.initCur rfl hwr).trans (.finish _ _ _ _)

theorem execPolls_answers (s : State) : Answers .polls s (execPolls s) := by
  by_cases hh : s.hdrOk = true
  · by_cases hst : s.staleCursor = false
    · obtain ⟨hinp, hring⟩ := sampleScan_spec s.geom s.input
      rcases hs : sampleScan s.geom s.input with ⟨_ | wr, inp⟩ <;> rw [hs] at hinp hring <;> obtain rfl := hinp
      · rw [execPolls_transient hh hst hs]
        exact .next (((OpFrame.setInput _ s 4).trans (.raise _ _ _)).trans (.finish _ _ _ _))
      · rw [execPolls_sampled hh hst hs]
        exact .next ((OpFrame.setInput _ s 4).trans (pollsSampled_frame (State.hdrOk_span hh)
          (s.staleCursor_eq_false_iff.1 hst) (Geom.isRing_of_sample (hring wr rfl))))
    · rw [execPolls_stale hh (by simpa using hst)]
      exact .next (.finish _ s _ _)
  · rw [execPolls_errCfg (by simpa using hh)]
    exact .next (.errCfg _ s)

/-! ### POLLC (R160) -/

/-- Every frame the walk records is at a ring address. -/
theorem walk_isRing {g : Geom} {l : Layout} {hs stop left p : Nat} {tab res : List (Nat × Hdr)} {inp inp' : InputRing}
    (hstop : g.isRing stop = true) (hp : g.isRing p = true) (htab : ∀ e ∈ tab, g.isRing e.1 = true)
    (h : walk g l hs stop left p tab inp = (.done res, inp')) : ∀ e ∈ res, g.isRing e.1 = true := by
  induction left generalizing p tab inp with
  | zero =>
    simp only [walk] at h
    split at h
    · cases h
      exact htab
    · cases h
  | succ left ih =>
    simp only [walk] at h
    split at h
    · cases h
      exact htab
    split at h
    · cases h
    · rename_i hlen
      have hdist := Geom.dist_lt hp hstop
      refine ih (Geom.move_isRing hp (by omega) (by omega)) ?_ h
      intro e he
      rcases List.mem_append.1 he with he | he
      · exact htab e he
      · rw [List.mem_singleton.1 he]
        exact hp

theorem walk_input {g : Geom} {l : Layout} {hs stop left p : Nat} {tab : List (Nat × Hdr)} {inp inp' : InputRing}
    {w : Walk} (h : walk g l hs stop left p tab inp = (w, inp')) : ∃ k, inp' = inp.advance k := by
  obtain ⟨k, hk⟩ := walk_spec g l hs stop left p tab inp
  exact ⟨k, by rw [← hk, h]⟩

theorem walkSync_frame (n : Nat) {stop : Nat} {s : State} (hstop : s.geom.isRing stop = true) :
    OpFrame .pollc s (walkSync n stop s) :=
  (((OpFrame.raise _ s _).trans_setCur rfl hstop).trans (.setResults5 _ _ _ _ _ _ _)).trans (.finish _ _ _ _)

theorem pollcDone_frame {tab : List (Nat × Hdr)} {s : State} (hcur : s.geom.isRing s.cur.toNat = true)
    (htab : ∀ e ∈ tab, s.geom.isRing e.1 = true) : OpFrame .pollc s (pollcDone tab s) := by
  have hlast : s.geom.isRing ((tab.getLast?.map Prod.fst).getD s.cur.toNat) = true := by
    cases hl : tab.getLast? with
    | none => exact hcur
    | some e => exact htab e (List.mem_of_getLast? hl)
  have hbatch : OpFrame .pollc s (deliverBatch tab s).2 := .batch (fun _ => rfl) (deliverBatch_frame tab s)
  rw [pollcDone_eq rfl]
  exact ((hbatch.trans_setCur rfl hlast).trans (.setResults5 _ _ _ _ _ _ _)).trans (.finish _ _ _ _)

theorem pollcSampled_frame {stop : Nat} {s : State} (hcur : s.CursorOk) (hstop : s.geom.isRing stop = true) :
    OpFrame .pollc s (pollcSampled stop s) := by
  by_cases hv : s.curValid = true
  · by_cases he : stop = s.cur.toNat
    · rw [he, pollcSampled_empty hv]
      exact .finish _ s _ _
    · rcases hw : walk s.geom s.layout s.hdrSize.toNat stop 10 s.cur.toNat [] s.input with ⟨n | tab, inp⟩
      all_goals obtain ⟨k, rfl⟩ := walk_input hw
      · rw [pollcSampled_sync hv he hw]
        exact (OpFrame.setInput _ s k).trans (walkSync_frame n hstop)
      · rw [pollcSampled_done hv he hw]
        exact (OpFrame.setInput _ s k).trans
          (pollcDone_frame (hcur hv) (walk_isRing hstop (hcur hv) (by simp) hw))
  · rw [pollcSampled_init stop (by simpa using hv)]
    exact (OpFrame.initCur rfl hstop).trans (.finish _ _ _ _)

theorem execPollc_answers (s : State) : Answers .pollc s (execPollc s) := by
  by_cases hh : s.hdrOk = true
  · by_cases hst : s.staleCursor = false
    · obtain ⟨hinp, hring⟩ := sampleChain_spec s.geom s.input
      rcases hs : sampleChain s.geom s.input with ⟨_ | stop, inp⟩ <;> rw [hs] at hinp hring <;> obtain rfl := hinp
      · rw [execPollc_transient hh hst hs]
        exact .next (((OpFrame.setInput _ s 12).trans (.raise _ _ _)).trans (.finish _ _ _ _))
      · rw [execPollc_sampled hh hst hs]
        exact .next ((OpFrame.setInput _ s 12).trans (pollcSampled_frame
          (s.staleCursor_eq_false_iff.1 hst) (Geom.isRing_of_sample (hring stop rfl))))
    · rw [execPollc_stale hh (by simpa using hst)]
      exact .next (.finish _ s _ _)
  · rw [execPollc_errCfg (by simpa using hh)]
    exact .next (.errCfg _ s)

/-! ### Every operation -/

/-- Every operation answers a next state, within its rights. -/
theorem exec_answers (i : Instr) (s : State) : Answers i s (exec i s) := by
  cases i with
  | move => exact execMove_answers s
  | find => exact execFind_answers s
  | cmp => exact execCmp_answers s
  | copy => exact execCopy_answers s
  | hdec => exact execHdec_answers s
  | route => exact execRoute_answers s
  | seqw st => exact execSeqw_answers st s
  | seql st => exact execSeql_answers st s
  | polls => exact execPolls_answers s
  | pollc => exact execPollc_answers s
  | emit st => exact execEmit_answers st s
  | push o => exact execPush_answers o s
  | pop p o => exact execPop_answers p o s
  | srst => exact execSrst_answers s

theorem exec_frame {i : Instr} {s t : State} (h : exec i s = .next t) : OpFrame i s t := by
  obtain ⟨u, hu, hf⟩ := exec_answers i s
  cases h.symm.trans hu
  exact hf

end Sys2Proof.Machine
end

section
/-! The statements about what operations change and leave unchanged (spec/10_state.md R11 to R23). -/

namespace Sys2Proof.Machine

/-- Settles O44: the fields outside the record update of `OpFrame.eq` are kept. -/
theorem operationsKeepOperandsAndConfiguration : Obligations.OperationsKeepOperandsAndConfiguration := by
  intro i s t h
  have hf := exec_frame h
  refine ⟨?_, ?_, ?_, ?_, ?_, ?_, ?_, ?_, ?_, ?_, ?_, hf.lbuf, hf.cap⟩ <;> rw [hf.eq]

/-- Settles O45. -/
theorem onlyPollsAndSrstWriteTheCursor : Obligations.OnlyPollsAndSrstWriteTheCursor := by
  intro i s t hpolls hpollc hsrst h
  refine (exec_frame h).cursor ?_
  cases i with
  | polls => contradiction
  | pollc => contradiction
  | srst => contradiction
  | _ => rfl

/-- Settles O46: the cursor clause of every update holds because POLLS and POLLC set it only to sampled, matched or
recorded addresses. -/
theorem validCursorStaysARingAddress : Obligations.ValidCursorStaysARingAddress :=
  fun _ _ _ hs h => (exec_frame h).cursorOk hs

/-- Settles O47. -/
theorem eventBitsAreSticky : Obligations.EventBitsAreSticky := by
  intro i s t hi h
  obtain ⟨ev, hev⟩ := (exec_frame h).event hi
  rw [hev]
  ext j
  simpa using Or.inl

/-- Settles O48. -/
theorem resyncStateOwnership : Obligations.ResyncStateOwnership := by
  intro i s t h
  have hf := exec_frame h
  refine ⟨fun hpolls hpollc hsrst hseq => PerStream.eq_of_get fun st => hf.resync st ?_, ?_⟩
  · cases i with
    | seqw o => exact absurd rfl (hseq o).1
    | seql o => exact absurd rfl (hseq o).2
    | polls => contradiction
    | pollc => contradiction
    | srst => contradiction
    | _ => rfl
  · rintro st o (rfl | rfl) ho <;> exact hf.resync o (by simpa [Instr.writesResync] using ho.symm)

/-- Settles O49. -/
theorem readIndexOwnership : Obligations.ReadIndexOwnership := by
  intro i s t h hc
  have hf := exec_frame h
  refine ⟨fun hsrst hpop => hf.readIndex ?_ hc, fun p q hi o => hf.popOnly p q hi o⟩
  cases i with
  | srst => contradiction
  | pop p o => exact absurd rfl (hpop p o)
  | _ => rfl

end Sys2Proof.Machine
end

section
/-! The invariant of the machine: it holds at reset and every access of an agent keeps it
(spec/10_state.md R13 to R15, R20, R22, R27; spec/45_output_ring.md R186). -/

namespace Sys2Proof.Machine

variable {s t : Machine.State}

/-! ### Operations, illegal words and the consumer -/

theorem OpFrame.inv {i : Instr} (h : OpFrame i s t) (hs : s.Inv) : t.Inv where
  ctrlReserved := by rw [h.eq]; exact hs.ctrlReserved
  eventReserved := h.eventReserved hs.eventReserved
  statusCode := h.status.elim (fun e => e ▸ hs.statusCode) id
  statusbCode := h.statusb.elim (fun e => e ▸ hs.statusbCode) id
  sigReserved := by rw [h.eq]; exact hs.sigReserved
  imemWf := by
    obtain ⟨k, hk⟩ := h.input
    rw [hk]
    exact InputRing.advance_wf hs.imemWf k
  rings o := h.ringInv o (hs.rings o)

theorem Parametric.State.Inv.illegal (hs : s.Inv) (p : Port) : (s.illegal p).Inv :=
  ((OpFrame.raise .move s .illegal).trans (.finish _ _ p .illegal)).inv hs

theorem Parametric.State.Inv.runCommand {p : Port} {w : Word} (hs : s.Inv) (h : runCommand p w s = .next t) :
    t.Inv := by
  simp only [Machine.runCommand, runCommandWith] at h
  split at h
  · exact (exec_frame h).inv hs
  · cases h
    exact hs.illegal p

theorem Parametric.State.Inv.serveConsumer (hs : s.Inv) (a : ConsumerAct) : (serveConsumer a s).Inv := by
  obtain ⟨⟨ev, hev, q⟩, -, hinv, hsb⟩ := serveConsumer_frame a s
  have hlt : ev.toNat < 4096 := by rcases hev with rfl | rfl <;> decide
  exact
    { ctrlReserved := by rw [q]; exact hs.ctrlReserved
      eventReserved := by rw [q]; exact Event.or_lt hs.eventReserved hlt
      statusCode := by rw [q]; exact hs.statusCode
      statusbCode := hsb.elim (fun e => e ▸ hs.statusbCode) id
      sigReserved := by rw [q]; exact hs.sigReserved
      imemWf := by rw [q]; exact hs.imemWf
      rings := fun o => hinv o (hs.rings o) }

/-! ### Register accesses of the master -/

theorem and_toNat_lt_left {v : Word} (w : Word) {n : Nat} (h : v.toNat < n) : (v &&& w).toNat < n := by
  rw [BitVec.toNat_and]
  exact lt_of_le_of_lt Nat.and_le_left h

theorem sigMask_reserved (v : Word) : (v &&& sigMask) &&& ~~~sigMask = 0 := by
  rw [BitVec.and_assoc, BitVec.and_not_self]
  exact BitVec.and_zero

/-- A register write keeps the invariant: `CTRL` and `SIG` are masked, and `EVENT` loses bits only (R14, R15, R22). -/
theorem Parametric.State.Inv.regWrite (hs : s.Inv) (off : Nat) (v : Word) : (s.regWrite off v).Inv := by
  have hctrl : (v &&& 0xFF).toNat < 256 := by
    rw [BitVec.and_comm]
    exact and_toNat_lt_left v (by decide)
  have hevent : (s.event &&& ~~~v).toNat < 4096 := and_toNat_lt_left _ hs.eventReserved
  have hsig : ∀ j, ∀ e ∈ (s.sig.setIfInBounds j (v &&& sigMask)).toList, e &&& ~~~sigMask = 0 := by
    intro j e he
    rw [Vector.toList_setIfInBounds] at he
    rcases List.mem_or_eq_of_mem_set he with he | rfl
    · exact hs.sigReserved e he
    · exact sigMask_reserved v
  have branch {c : Prop} [Decidable c] {a b : Machine.State} (ha : a.Inv) (hb : b.Inv) : (if c then a else b).Inv :=
    iteInduction (fun _ => ha) (fun _ => hb)
  refine branch { hs with ctrlReserved := hctrl } <| branch { hs with } <| branch { hs with } <| branch { hs with } <|
    branch { hs with } <| branch { hs with eventReserved := hevent } <| branch { hs with } <|
    branch { hs with sigReserved := hsig _ } <| branch { hs with } <| branch ?_ hs
  split
  · exact { hs with }
  · exact hs

theorem Parametric.State.Inv.masterWrite {off : Nat} {v : Word} (hs : s.Inv) (h : masterWrite off v s = .next t) :
    t.Inv := by
  simp only [Machine.masterWrite, masterWriteWith] at h
  split at h
  · cases h
  split at h
  · have hcmd : Parametric.State.Inv { s with cmd := v } := { hs with }
    exact hcmd.runCommand h
  · cases h
    exact hs.regWrite off v

theorem Parametric.State.Inv.masterRead {off : Nat} (hs : s.Inv) (h : masterRead off s = .next t) : t.Inv := by
  simp only [Machine.masterRead] at h
  split at h
  · cases h
  · cases h
    exact { hs with }

/-! ### The reset input -/

theorem eq_of_mem_replicate_toList {α : Type} {n : Nat} {a b : α} (h : b ∈ (Vector.replicate n a).toList) : b = a :=
  Vector.eq_of_mem_replicate (Vector.mem_toList_iff.1 h)

theorem State.reset_inv : State.reset.Inv where
  ctrlReserved := by decide
  eventReserved := by decide
  statusCode := ⟨.ok, rfl⟩
  statusbCode := ⟨.ok, rfl⟩
  sigReserved e he := by
    rw [eq_of_mem_replicate_toList he]
    exact BitVec.zero_and
  imemWf := List.Pairwise.nil
  rings o := by cases o <;> exact OutRing.Inv.fresh (by decide)

theorem Parametric.State.Inv.hardwareReset (hs : s.Inv) : (hardwareReset s).Inv :=
  { State.reset_inv with
    imemWf := hs.imemWf
    rings := fun o => by
      rw [Machine.hardwareReset, PerStream.get_map]
      exact OutRing.Inv.fresh (hs.rings o).capPos }

/-! ### One step -/

theorem Parametric.State.Inv.perform {a : HostAct} (hs : s.Inv) (h : performWith exec a s = .next t) : t.Inv := by
  cases a with
  | masterRead off => exact hs.masterRead h
  | masterWrite off v => exact hs.masterWrite h
  | consumer c =>
    cases (consumerAccess_eq c s).symm.trans h
    exact hs.serveConsumer c
  | produce c =>
    cases h
    exact { hs with imemWf := Memory.write_wf _ _ hs.imemWf }
  | resetInput =>
    cases h
    exact hs.hardwareReset

/-- Settles O58: the rights of each operation (`exec_frame`) and the masks of the register writes keep the invariant. -/
theorem everyStepKeepsTheInvariant : Obligations.EveryStepKeepsTheInvariant := by
  intro s t hs h
  simp only [step, stepWith] at h
  split at h
  · cases h
    exact hs
  · rename_i rest _
    have hrest : Parametric.State.Inv { s with inbox := rest } := { hs with }
    exact hrest.perform h

/-- Settles O57. -/
theorem resetMeetsTheInvariant : Obligations.ResetMeetsTheInvariant := State.reset_inv

end Sys2Proof.Machine
end

section
/-! Steps, register accesses of the master and reset values, by region of the register map
(spec/10_state.md R18, R25 to R27; spec/60_exceptions.md R221). -/

namespace Sys2Proof.Machine

variable {s : State}

/-! ### One step -/

theorem step_nil (h : s.inbox = []) : step s = .next s := by rw [step, stepWith, h]

theorem step_cons {a : HostAct} {rest : List HostAct} (h : s.inbox = a :: rest) :
    step s = performWith exec a { s with inbox := rest } := by rw [step, stepWith, h]

theorem runCommand_legal {p : Port} {w : Word} {i : Instr} (h : decode p w = .ok i) : runCommand p w s = exec i s := by
  rw [runCommand, runCommandWith, h]

theorem masterWrite_cmd (w : Word) (s : State) : masterWrite 0x10 w s = runCommand .a w { s with cmd := w } := rfl

theorem consumerAccess_cmdb (w : Word) (s : State) :
    consumerAccess (.write 0x2000 w) s = runCommand .b w { s with cmdb := w } := rfl

theorem imemByte_write (m : Memory Byte) (a b : Nat) (v : Byte) :
    imemByte (Memory.write m a v) b = if b = a then v else imemByte m b := by
  simp only [imemByte, Memory.read_write]
  split <;> rfl

/-- Settles O5. -/
theorem stepRunsTheDecodedCommand : Obligations.StepRunsTheDecodedCommand := by
  intro s
  refine ⟨step_nil, fun rest => ⟨fun _ => step_cons, fun _ _ => step_cons, fun _ => step_cons, ?_, ?_⟩⟩
  · intro a v h
    exact ⟨_, step_cons h, fun b => imemByte_write s.input.mem a b v⟩
  · intro w i
    refine ⟨fun h hd => (step_cons h).trans ?_, fun h hd => (step_cons h).trans ?_⟩
    · exact (masterWrite_cmd w _).trans (runCommand_legal hd)
    · exact (consumerAccess_cmdb w _).trans (runCommand_legal hd)

/-! ### Reset values (R27) -/

/-- Settles O55. -/
theorem resetValues : Obligations.ResetValues := by
  refine ⟨rfl, rfl, rfl, rfl, rfl, rfl, rfl, rfl, rfl, rfl, rfl, rfl, rfl, rfl, ?_, ?_,
    fun _ => eq_of_mem_replicate_toList, fun _ => eq_of_mem_replicate_toList, fun _ => eq_of_mem_replicate_toList, ?_,
    by decide⟩
  · intro st
    cases st <;> rfl
  · intro o
    cases o <;> exact ⟨rfl, rfl, rfl⟩
  · intro e he
    rw [eq_of_mem_replicate_toList he]
    exact ⟨rfl, rfl, rfl, fun _ => eq_of_mem_replicate_toList, fun _ => eq_of_mem_replicate_toList⟩

/-! ### Packed byte arrays (R25) -/

theorem storeBytes_getElem? {n : Nat} (v : Vector Byte n) (k : Nat) (bs : List Byte) (h : k + bs.length ≤ n) (j : Nat) :
    (storeBytes v k bs)[j]? = if k ≤ j ∧ j < k + bs.length then bs[j - k]? else v[j]? := by
  induction bs generalizing v k with
  | nil => rw [if_neg (by simp)]; rfl
  | cons b bs ih =>
    rw [List.length_cons] at h ⊢
    rw [storeBytes, ih _ _ (by omega), Vector.getElem?_setIfInBounds]
    by_cases hj : j = k
    · subst hj
      rw [if_neg (by omega), if_pos rfl, if_pos (by omega), if_pos (by omega), Nat.sub_self]
      rfl
    · rw [if_neg (Ne.symm hj)]
      by_cases hin : k + 1 ≤ j ∧ j < k + 1 + bs.length
      · rw [if_pos hin, if_pos (by omega), show j - k = j - (k + 1) + 1 by omega]
        rfl
      · rw [if_neg hin, if_neg (by omega)]

theorem wordBytes_getElem? (w : Word) {j : Nat} (h : j < 4) : (wordBytes w)[j]? = some (w.extractLsb' (8 * j) 8) := by
  match j, h with
  | 0, _ | 1, _ | 2, _ | 3, _ => rfl

/-- A write of word `k` replaces bytes `4k` to `4k + 3`. -/
theorem packedWrite_getElem? {n : Nat} (bytes : Vector Byte n) {k : Nat} (h : k < n / 4) (w : Word) (j : Nat) :
    (packedWrite bytes k w).toList[j]? =
      if j / 4 = k then some (w.extractLsb' (8 * (j % 4)) 8) else bytes.toList[j]? := by
  have hlen : (wordBytes w).length = 4 := rfl
  rw [Vector.getElem?_toList, Vector.getElem?_toList, packedWrite, storeBytes_getElem? _ _ _ (by omega)]
  by_cases hj : j / 4 = k
  · rw [if_pos (by omega), if_pos hj, show j - 4 * k = j % 4 by omega]
    exact wordBytes_getElem? w (Nat.mod_lt _ (by decide))
  · rw [if_neg (by omega), if_neg hj]

theorem leBytes_lt (bs : List Byte) : leBytes bs < 256 ^ bs.length := by
  induction bs with
  | nil => decide
  | cons b bs ih =>
    have := b.isLt
    rw [leBytes, List.length_cons, pow_succ]
    omega

/-- Byte `j` of a little-endian value. -/
theorem leBytes_div_mod {bs : List Byte} {j : Nat} (h : j < bs.length) : leBytes bs / 256 ^ j % 256 = bs[j].toNat := by
  induction bs generalizing j with
  | nil => simp at h
  | cons b bs ih =>
    have hb := b.isLt
    cases j with
    | zero => simp only [leBytes, pow_zero, Nat.div_one, List.getElem_cons_zero]; omega
    | succ j =>
      rw [List.getElem_cons_succ, ← ih (by simpa using h), pow_succ', ← Nat.div_div_eq_div_mul, leBytes]
      congr 2
      omega

/-- A read of word `k` has bytes `4k` to `4k + 3`. -/
theorem packedRead_extract {n : Nat} (bytes : Vector Byte n) {k : Nat} (h : k < n / 4) {j : Nat} (hj : j < 4) :
    bytes.toList[4 * k + j]? = some ((packedRead bytes k).extractLsb' (8 * j) 8) := by
  have hlen : ((bytes.toList.drop (4 * k)).take 4).length = 4 := by simp; omega
  have hlt := leBytes_lt ((bytes.toList.drop (4 * k)).take 4)
  rw [hlen] at hlt
  have hbyte := leBytes_div_mod (bs := (bytes.toList.drop (4 * k)).take 4) (j := j) (by omega)
  rw [List.getElem_take, List.getElem_drop] at hbyte
  rw [List.getElem?_eq_getElem (by simp; omega)]
  refine congrArg some (BitVec.eq_of_toNat_eq ?_)
  rw [← hbyte, packedRead, BitVec.extractLsb'_toNat, toWord_toNat (lt_of_lt_of_eq hlt (by decide)),
    Nat.shiftRight_eq_div_pow, pow_mul]
  simp only [Nat.reducePow]

/-- Words with the same four bytes are equal. -/
theorem word_ext_bytes {a b : Word} (h : ∀ j, j < 4 → a.extractLsb' (8 * j) 8 = b.extractLsb' (8 * j) 8) : a = b := by
  refine BitVec.eq_of_getLsbD_eq fun i hi => ?_
  have := congrArg (·.getLsbD (i % 8)) (h (i / 8) (by omega))
  simpa [BitVec.getLsbD_extractLsb', Nat.mod_lt, Nat.div_add_mod] using this

theorem packedRead_packedWrite {n : Nat} (bytes : Vector Byte n) {k : Nat} (h : k < n / 4) (w : Word) :
    packedRead (packedWrite bytes k w) k = w := by
  refine word_ext_bytes fun j hj => ?_
  have := packedRead_extract (packedWrite bytes k w) h hj
  rw [packedWrite_getElem? bytes h, if_pos (by omega), show (4 * k + j) % 4 = j by omega] at this
  exact (Option.some.inj this).symm

end Sys2Proof.Machine
end

section
/-! Register writes of the master, by region of the register map (spec/10_state.md R14, R15, R22, R23, R25, R26). -/

namespace Sys2Proof.Machine

variable {s : State} {off : Nat}

theorem masterWrite_register (s : State) (v : Word) (h : off % 4 = 0) (h1 : off < 0x2000) (h2 : off ≠ 0x10) :
    masterWrite off v s = .next (s.regWrite off v) := by
  have hmay : masterMayAccess off = true := decide_eq_true ⟨h, h1⟩
  rw [masterWrite, masterWriteWith, if_neg (by simp [hmay]), if_neg (show off ≠ cmdOffset from h2)]

/-! ### The regions of `regWrite` -/

theorem regWrite_arg (s : State) (v : Word) (h : 0x18 ≤ off) (h1 : off < 0x28) :
    s.regWrite off v = { s with arg := s.arg.setIfInBounds ((off - 0x18) / 4) v } := by
  rw [Parametric.State.regWrite, if_neg (by omega), if_neg (by omega), if_neg (by omega), if_neg (by omega),
    if_pos ⟨h, h1⟩]

theorem regWrite_pat (s : State) (v : Word) (h : 0x100 ≤ off) (h1 : off < 0x110) :
    s.regWrite off v = { s with pat := packedWrite s.pat ((off - 0x100) / 4) v } := by
  rw [Parametric.State.regWrite, if_neg (by omega), if_neg (by omega), if_neg (by omega), if_neg (by omega),
    if_neg (by omega), if_neg (by omega), if_pos ⟨h, h1⟩]

theorem regWrite_sig (s : State) (v : Word) (h : 0x110 ≤ off) (h1 : off < 0x130) :
    s.regWrite off v = { s with sig := s.sig.setIfInBounds ((off - 0x110) / 4) (v &&& sigMask) } := by
  rw [Parametric.State.regWrite, if_neg (by omega), if_neg (by omega), if_neg (by omega), if_neg (by omega),
    if_neg (by omega), if_neg (by omega), if_neg (by omega), if_pos ⟨h, h1⟩]

theorem regWrite_lbuf (s : State) (v : Word) (h : 0x200 ≤ off) (h1 : off < 0x300) :
    s.regWrite off v = { s with lbuf := packedWrite s.lbuf ((off - 0x200) / 4) v } := by
  rw [Parametric.State.regWrite, if_neg (by omega), if_neg (by omega), if_neg (by omega), if_neg (by omega),
    if_neg (by omega), if_neg (by omega), if_neg (by omega), if_neg (by omega), if_pos ⟨h, h1⟩]

theorem spslut_index_lt {i : Nat} {e : SpsEntry Config.params} (h : s.spslut[i]? = some e) : i < 4 :=
  (Vector.getElem?_eq_some_iff.1 h).1

/-- The entry whose window holds an offset of the SPS table's. -/
theorem spslut_getElem? (s : State) (h : 0x400 ≤ off) (h1 : off < 0x800) :
    s.spslut[off / 0x100 - 4]? = some (s.spslut[off / 0x100 - 4]'(show off / 0x100 - 4 < 4 by omega)) :=
  Vector.getElem?_eq_getElem _

/-- The window of entry `i` of the SPS table starts at `0x400 + 0x100 * i`. -/
theorem regWrite_spslut {i : Nat} {e : SpsEntry Config.params} (v : Word) (he : s.spslut[i]? = some e)
    (h : off / 0x100 = i + 4) : s.regWrite off v = s.setSps i (e.regWrite (off % 0x100) v) := by
  have hi := spslut_index_lt he
  rw [Parametric.State.regWrite, if_neg (by omega), if_neg (by omega), if_neg (by omega), if_neg (by omega),
    if_neg (by omega), if_neg (by omega), if_neg (by omega), if_neg (by omega), if_neg (by omega),
    if_pos (by omega), show (off - 0x400) / 0x100 = i by omega, he]

/-- The windows of the register map that are read-only or reserved, the SPS table apart (R25, R26). -/
theorem regWrite_ignored (s : State) (v : Word)
    (h : off = 0x14 ∨ (0x28 ≤ off ∧ off < 0x3C) ∨ (0x40 ≤ off ∧ off < 0x100) ∨ (0x130 ≤ off ∧ off < 0x200) ∨
      (0x300 ≤ off ∧ off < 0x400) ∨ 0x800 ≤ off) : s.regWrite off v = s := by
  rw [Parametric.State.regWrite, if_neg (by omega), if_neg (by omega), if_neg (by omega), if_neg (by omega),
    if_neg (by omega), if_neg (by omega), if_neg (by omega), if_neg (by omega), if_neg (by omega), if_neg (by omega)]

/-! ### An entry of the SPS table (R23) -/

section Entry

variable (e : SpsEntry Config.params) {j : Nat}

theorem SpsEntry.regWrite_header (v : Word) :
    e.regWrite 0 v = { e with mlen := v.extractLsb' 0 8, rlen := v.extractLsb' 8 8, valid := v.getLsbD 31 } := by
  rw [SpsEntry.regWrite, if_pos rfl, bit_eq_getLsbD]

theorem SpsEntry.regWrite_pattern (v : Word) (h : 0x40 ≤ j) (h1 : j < 0x80) :
    e.regWrite j v = { e with pattern := packedWrite e.pattern ((j - 0x40) / 4) v } := by
  rw [SpsEntry.regWrite, if_neg (by omega), if_pos ⟨h, h1⟩]

theorem SpsEntry.regWrite_repl (v : Word) (h : 0x80 ≤ j) (h1 : j < 0xC0) :
    e.regWrite j v = { e with repl := packedWrite e.repl ((j - 0x80) / 4) v } := by
  rw [SpsEntry.regWrite, if_neg (by omega), if_neg (by omega), if_pos ⟨h, h1⟩]

theorem SpsEntry.regWrite_ignored (v : Word) (h : 4 ≤ j ∧ j < 0x40 ∨ 0xC0 ≤ j) : e.regWrite j v = e := by
  rw [SpsEntry.regWrite, if_neg (by omega), if_neg (by omega), if_neg (by omega)]

end Entry

theorem setSps_self {i : Nat} {e : SpsEntry Config.params} (h : s.spslut[i]? = some e) : s.setSps i e = s := by
  have hself : s.spslut.setIfInBounds i e = s.spslut := by
    obtain ⟨hi, rfl⟩ := Vector.getElem?_eq_some_iff.1 h
    ext j hj
    simp only [Vector.getElem_setIfInBounds]
    split
    · subst_vars; rfl
    · rfl
  rw [Parametric.State.setSps, hself]

/-- A reserved word of the SPS table's windows ignores writes. -/
theorem regWrite_spslut_ignored (s : State) (v : Word) (h : 0x400 ≤ off) (h1 : off < 0x800)
    (h2 : 4 ≤ off % 0x100 ∧ off % 0x100 < 0x40 ∨ 0xC0 ≤ off % 0x100) : s.regWrite off v = s := by
  have he := spslut_getElem? s h h1
  rw [regWrite_spslut v he (by omega), SpsEntry.regWrite_ignored _ v h2, setSps_self he]

/-- Settles O53: each region is an equation of `regWrite`, and a packed word replaces its four bytes. -/
theorem masterRegisterWrites : Obligations.MasterRegisterWrites := by
  intro s v
  refine ⟨rfl, rfl, rfl, rfl, rfl, ?arg, ?sig, ?pat, ?lbuf, ?spslut, ?ignored⟩
  case arg =>
    intro i hi
    rw [masterWrite_register s v (by omega) (by omega) (by omega), regWrite_arg s v (by omega) (by omega),
      show (0x18 + 4 * i - 0x18) / 4 = i by omega]
  case sig =>
    intro i hi
    rw [masterWrite_register s v (by omega) (by omega) (by omega), regWrite_sig s v (by omega) (by omega),
      show (0x110 + 4 * i - 0x110) / 4 = i by omega]
    rfl
  case pat =>
    intro k hk
    refine ⟨packedWrite s.pat k v, packedWrite_getElem? s.pat hk v, ?_⟩
    rw [masterWrite_register s v (by omega) (by omega) (by omega), regWrite_pat s v (by omega) (by omega),
      show (0x100 + 4 * k - 0x100) / 4 = k by omega]
  case lbuf =>
    intro k hk
    refine ⟨packedWrite s.lbuf k v, packedWrite_getElem? s.lbuf hk v, ?_⟩
    rw [masterWrite_register s v (by omega) (by omega) (by omega), regWrite_lbuf s v (by omega) (by omega),
      show (0x200 + 4 * k - 0x200) / 4 = k by omega]
  case spslut =>
    intro i e he
    have hi := spslut_index_lt he
    refine ⟨?_, fun k hk => ⟨packedWrite e.pattern k v, packedWrite_getElem? e.pattern hk v, ?_⟩,
      fun k hk => ⟨packedWrite e.repl k v, packedWrite_getElem? e.repl hk v, ?_⟩⟩
    · rw [masterWrite_register s v (by omega) (by omega) (by omega), regWrite_spslut v he (by omega),
        show (0x400 + 0x100 * i) % 0x100 = 0 by omega, SpsEntry.regWrite_header]
      rfl
    · rw [masterWrite_register s v (by omega) (by omega) (by omega), regWrite_spslut v he (by omega),
        SpsEntry.regWrite_pattern e v (by omega) (by omega),
        show ((0x440 + 0x100 * i + 4 * k) % 0x100 - 0x40) / 4 = k by omega]
      rfl
    · rw [masterWrite_register s v (by omega) (by omega) (by omega), regWrite_spslut v he (by omega),
        SpsEntry.regWrite_repl e v (by omega) (by omega),
        show ((0x480 + 0x100 * i + 4 * k) % 0x100 - 0x80) / 4 = k by omega]
      rfl
  case ignored =>
    intro off h0 h
    rw [masterWrite_register s v h0 (by omega) (by omega)]
    by_cases hsps : 0x400 ≤ off ∧ off < 0x800
    · rw [regWrite_spslut_ignored s v hsps.1 hsps.2 (by omega)]
    · rw [regWrite_ignored s v (by omega)]

end Sys2Proof.Machine
end

section
/-! Register reads of the master, by region of the register map, and read-back (spec/10_state.md R25, R26). -/

namespace Sys2Proof.Machine

variable {s : State} {off : Nat} {w : Word}

theorem masterRead_register (h : off % 4 = 0) (h1 : off < 0x2000) (hw : s.regRead off = w) :
    masterRead off s = .next { s with rdataA := w } := by
  have hmay : masterMayAccess off = true := decide_eq_true ⟨h, h1⟩
  rw [masterRead, if_neg (by simp [hmay]), hw]

/-! ### The regions of `regRead` -/

theorem regRead_arg (s : State) (h : 0x18 ≤ off) (h1 : off < 0x28) :
    s.regRead off = s.arg[(off - 0x18) / 4]?.getD 0 := by
  rw [Parametric.State.regRead, if_pos (by omega), Parametric.State.controlRead, if_neg (by omega), if_neg (by omega),
    if_neg (by omega), if_neg (by omega), if_neg (by omega), if_neg (by omega), if_pos h1]

theorem regRead_res (s : State) (h : 0x28 ≤ off) (h1 : off < 0x3C) :
    s.regRead off = s.res[(off - 0x28) / 4]?.getD 0 := by
  rw [Parametric.State.regRead, if_pos (by omega), Parametric.State.controlRead, if_neg (by omega), if_neg (by omega),
    if_neg (by omega), if_neg (by omega), if_neg (by omega), if_neg (by omega), if_neg (by omega), if_pos h1]

theorem regRead_pat (s : State) (h : 0x100 ≤ off) (h1 : off < 0x110) :
    s.regRead off = packedRead s.pat ((off - 0x100) / 4) := by
  rw [Parametric.State.regRead, if_neg (by omega), if_neg (by omega), if_neg (by omega), if_pos h1]

theorem regRead_sig (s : State) (h : 0x110 ≤ off) (h1 : off < 0x130) :
    s.regRead off = s.sig[(off - 0x110) / 4]?.getD 0 := by
  rw [Parametric.State.regRead, if_neg (by omega), if_neg (by omega), if_neg (by omega), if_neg (by omega), if_pos h1]

theorem regRead_lbuf (s : State) (h : 0x200 ≤ off) (h1 : off < 0x300) :
    s.regRead off = packedRead s.lbuf ((off - 0x200) / 4) := by
  rw [Parametric.State.regRead, if_neg (by omega), if_neg (by omega), if_neg (by omega), if_neg (by omega),
    if_neg (by omega), if_neg (by omega), if_pos h1]

theorem regRead_spslut {i : Nat} {e : SpsEntry Config.params} (he : s.spslut[i]? = some e) (h : off / 0x100 = i + 4) :
    s.regRead off = e.regRead (off % 0x100) := by
  have hi := spslut_index_lt he
  rw [Parametric.State.regRead, if_neg (by omega), if_neg (by omega), if_neg (by omega), if_neg (by omega),
    if_neg (by omega), if_neg (by omega), if_neg (by omega), if_neg (by omega), if_pos (by omega),
    show (off - 0x400) / 0x100 = i by omega, he]

theorem regRead_descWindows (s : State) (h : 0x1000 ≤ off) : s.regRead off = s.descRegRead (off - 0x1000) := by
  rw [Parametric.State.regRead, if_neg (by omega), if_neg (by omega), if_neg (by omega), if_neg (by omega),
    if_neg (by omega), if_neg (by omega), if_neg (by omega), if_neg (by omega), if_neg (by omega), if_pos h]

theorem streamOfNat_natOfStream (o : StreamId) : streamOfNat (natOfStream o) = some o := by cases o <;> rfl

theorem natOfStream_lt (o : StreamId) : natOfStream o < 3 := by cases o <;> decide

/-- Word `m` of descriptor slot `j` of ring `o`. -/
theorem regRead_desc (s : State) (o : StreamId) {j m : Nat} (hj : j < 42) (hm : m < 4)
    (h : off = 0x1000 + 0x400 * natOfStream o + 0x10 * j + 4 * m) : s.regRead off = (s.descAt o j).regRead m := by
  subst h
  rw [regRead_descWindows s (by omega), Parametric.State.descRegRead,
    show (0x1000 + 0x400 * natOfStream o + 0x10 * j + 4 * m - 0x1000) / 0x400 = natOfStream o by omega,
    show (0x1000 + 0x400 * natOfStream o + 0x10 * j + 4 * m - 0x1000) % 0x400 / 0x10 = j by omega,
    show (0x1000 + 0x400 * natOfStream o + 0x10 * j + 4 * m - 0x1000) % 0x10 / 4 = m by omega,
    streamOfNat_natOfStream]
  exact if_pos hj

/-! ### Reserved offsets (R26) -/

theorem regRead_control_reserved (s : State) (h : 0x48 ≤ off) (h1 : off < 0x80) : s.regRead off = 0 := by
  rw [Parametric.State.regRead, if_pos h1, Parametric.State.controlRead, if_neg (by omega), if_neg (by omega),
    if_neg (by omega), if_neg (by omega), if_neg (by omega), if_neg (by omega), if_neg (by omega), if_neg (by omega),
    if_neg (by omega), if_neg (by omega), if_neg (by omega)]

theorem regRead_resync_reserved (s : State) (h : 0xB0 ≤ off) (h1 : off < 0xC0) : s.regRead off = 0 := by
  rw [Parametric.State.regRead, if_neg (by omega), if_pos h1, show (off - 0x80) / 0x10 = 3 by omega]
  rfl

theorem regRead_ring_reserved (s : State) (h : 0xF0 ≤ off) (h1 : off < 0x100) : s.regRead off = 0 := by
  rw [Parametric.State.regRead, if_neg (by omega), if_neg (by omega), if_pos h1, show (off - 0xC0) / 0x10 = 3 by omega]
  rfl

theorem regRead_sig_reserved (s : State) (h : 0x130 ≤ off) (h1 : off < 0x200) : s.regRead off = 0 := by
  rw [Parametric.State.regRead, if_neg (by omega), if_neg (by omega), if_neg (by omega), if_neg (by omega),
    if_neg (by omega), if_pos h1]

theorem regRead_lbuf_reserved (s : State) (h : 0x300 ≤ off) (h1 : off < 0x400) : s.regRead off = 0 := by
  rw [Parametric.State.regRead, if_neg (by omega), if_neg (by omega), if_neg (by omega), if_neg (by omega),
    if_neg (by omega), if_neg (by omega), if_neg (by omega), if_pos h1]

theorem regRead_unlisted (s : State) (h : 0x800 ≤ off) (h1 : off < 0x1000) : s.regRead off = 0 := by
  rw [Parametric.State.regRead, if_neg (by omega), if_neg (by omega), if_neg (by omega), if_neg (by omega),
    if_neg (by omega), if_neg (by omega), if_neg (by omega), if_neg (by omega), if_neg (by omega), if_neg (by omega)]

/-- Beyond slot 41 of a descriptor window. -/
theorem regRead_desc_reserved (s : State) (h : 0x1000 ≤ off) (h1 : 0x2A0 ≤ off % 0x400) : s.regRead off = 0 := by
  rw [regRead_descWindows s h, Parametric.State.descRegRead]
  split
  · exact if_neg (show ¬ (off - 0x1000) % 0x400 / 0x10 < 42 by omega)
  · rfl

/-- Beyond the third descriptor window. -/
theorem regRead_noRing (s : State) (h : 0x1C00 ≤ off) (h1 : off < 0x2000) : s.regRead off = 0 := by
  rw [regRead_descWindows s (by omega), Parametric.State.descRegRead, show (off - 0x1000) / 0x400 = 3 by omega]
  rfl

/-! ### An entry of the SPS table (R23) -/

/-- Bit 31 alone, when a flag is set. -/
theorem getLsbD_validBit (b : Bool) {i : Nat} (h : i < 32) :
    (if b then 0x80000000 else 0 : Word).getLsbD i = (b && decide (i = 31)) := by
  have hbits : ∀ (b : Bool) (i : Fin 32), (if b then 0x80000000 else 0 : Word).getLsbD i =
      (b && decide (i.val = 31)) := by decide
  exact hbits b ⟨i, h⟩

/-- The bits of `HDRW` that are in use (R25). -/
theorem getLsbD_headerMask {i : Nat} (h : i < 32) : (0x8000FFFF : Word).getLsbD i = decide (i < 16 ∨ i = 31) := by
  have hbits : ∀ i : Fin 32, (0x8000FFFF : Word).getLsbD i = decide (i.val < 16 ∨ i.val = 31) := by decide
  exact hbits ⟨i, h⟩

section Entry

variable (e : SpsEntry Config.params) {j : Nat}

theorem SpsEntry.regRead_pattern (h : 0x40 ≤ j) (h1 : j < 0x80) :
    e.regRead j = packedRead e.pattern ((j - 0x40) / 4) := by
  rw [SpsEntry.regRead, if_neg (by omega), if_pos ⟨h, h1⟩]

theorem SpsEntry.regRead_repl (h : 0x80 ≤ j) (h1 : j < 0xC0) : e.regRead j = packedRead e.repl ((j - 0x80) / 4) := by
  rw [SpsEntry.regRead, if_neg (by omega), if_neg (by omega), if_pos ⟨h, h1⟩]

theorem SpsEntry.regRead_reserved (h : 4 ≤ j ∧ j < 0x40 ∨ 0xC0 ≤ j) : e.regRead j = 0 := by
  rw [SpsEntry.regRead, if_neg (by omega), if_neg (by omega), if_neg (by omega)]

/-- `HDRW` as a bit pattern: the three fields do not overlap. -/
theorem SpsEntry.headerWord_eq :
    e.headerWord = e.mlen.setWidth 32 ||| e.rlen.setWidth 32 <<< 8 ||| if e.valid then 0x80000000 else 0 := by
  have hm := e.mlen.isLt
  have hr := e.rlen.isLt
  have hlow : 2 ^ 8 * e.rlen.toNat + e.mlen.toNat = 2 ^ 8 * e.rlen.toNat ||| e.mlen.toNat :=
    Nat.two_pow_add_eq_or_of_lt hm _
  have hhigh : 2 ^ 31 * 1 + (2 ^ 8 * e.rlen.toNat + e.mlen.toNat) = 2 ^ 31 * 1 ||| (2 ^ 8 * e.rlen.toNat + e.mlen.toNat) :=
    Nat.two_pow_add_eq_or_of_lt (by omega) _
  have hlowWord : (e.mlen.setWidth 32 ||| e.rlen.setWidth 32 <<< 8 : Word).toNat =
      2 ^ 8 * e.rlen.toNat + e.mlen.toNat := by
    rw [hlow, Nat.lor_comm, BitVec.toNat_or, BitVec.toNat_setWidth, BitVec.toNat_shiftLeft, BitVec.toNat_setWidth,
      Nat.shiftLeft_eq, Nat.mul_comm, Nat.mod_eq_of_lt (a := e.mlen.toNat) (by omega),
      Nat.mod_eq_of_lt (a := e.rlen.toNat) (by omega), Nat.mod_eq_of_lt (by omega)]
  refine BitVec.eq_of_toNat_eq ?_
  rw [SpsEntry.headerWord, toWord_toNat (by split <;> omega), BitVec.toNat_or, hlowWord]
  cases e.valid
  · rw [if_neg (by decide), if_neg (by decide), show (0 : Word).toNat = 0 from rfl, Nat.or_zero]
    omega
  · rw [if_pos rfl, if_pos rfl, show (0x80000000 : Word).toNat = 2 ^ 31 * 1 from rfl, Nat.lor_comm, ← hhigh]
    omega

/-- `HDRW` reads back with its unused bits zero. -/
theorem SpsEntry.headerWord_regWrite (v : Word) : (e.regWrite 0 v).headerWord = v &&& 0x8000FFFF := by
  rw [SpsEntry.headerWord_eq, SpsEntry.regWrite_header]
  refine BitVec.eq_of_getLsbD_eq fun i hi => ?_
  simp only [BitVec.getLsbD_or, BitVec.getLsbD_and, BitVec.getLsbD_setWidth, BitVec.getLsbD_shiftLeft,
    BitVec.getLsbD_extractLsb', getLsbD_validBit _ hi, getLsbD_headerMask hi]
  grind

end Entry

/-! ### Read-back -/

/-- A read of a window of the SPS table after a write of the same offset is one of the entry written. -/
theorem regRead_regWrite_spslut (t : State) (v : Word) (h : 0x400 ≤ off) (h1 : off < 0x800) :
    ∃ e : SpsEntry Config.params,
      (t.regWrite off v).regRead off = (e.regWrite (off % 0x100) v).regRead (off % 0x100) := by
  have hi : off / 0x100 = off / 0x100 - 4 + 4 := by omega
  have hlt : off / 0x100 - 4 < 4 := by omega
  refine ⟨t.spslut[off / 0x100 - 4]'hlt, regRead_spslut ?_ hi⟩
  rw [regWrite_spslut v (spslut_getElem? t h h1) hi, Parametric.State.setSps, Vector.getElem?_setIfInBounds, if_pos rfl,
    if_pos hlt]

/-- A word written to an operand or a byte array is read back. -/
theorem regRead_regWrite_data (t : State) (v : Word) (h0 : off % 4 = 0)
    (h : (0x18 ≤ off ∧ off < 0x28) ∨ (0x100 ≤ off ∧ off < 0x110) ∨ (0x200 ≤ off ∧ off < 0x300) ∨
      (0x400 ≤ off ∧ off < 0x800 ∧ 0x40 ≤ off % 0x100 ∧ off % 0x100 < 0xC0)) :
    (t.regWrite off v).regRead off = v := by
  rcases h with ⟨h1, h2⟩ | ⟨h1, h2⟩ | ⟨h1, h2⟩ | ⟨h1, h2, h3, h4⟩
  · rw [regRead_arg _ h1 h2, regWrite_arg t v h1 h2]
    simp [show (off - 0x18) / 4 < 4 by omega]
  · rw [regRead_pat _ h1 h2, regWrite_pat t v h1 h2]
    exact packedRead_packedWrite t.pat (show (off - 0x100) / 4 < 4 by omega) v
  · rw [regRead_lbuf _ h1 h2, regWrite_lbuf t v h1 h2]
    exact packedRead_packedWrite t.lbuf (show (off - 0x200) / 4 < 64 by omega) v
  · obtain ⟨e, hread⟩ := regRead_regWrite_spslut t v h1 h2
    rw [hread]
    by_cases hp : off % 0x100 < 0x80
    · rw [SpsEntry.regRead_pattern _ h3 hp, SpsEntry.regWrite_pattern e v h3 hp]
      exact packedRead_packedWrite e.pattern (show (off % 0x100 - 0x40) / 4 < 16 by omega) v
    · rw [SpsEntry.regRead_repl _ (by omega) h4, SpsEntry.regWrite_repl e v (by omega) h4]
      exact packedRead_packedWrite e.repl (show (off % 0x100 - 0x80) / 4 < 16 by omega) v

theorem regRead_regWrite_sig (t : State) (v : Word) (h : 0x110 ≤ off) (h1 : off < 0x130) :
    (t.regWrite off v).regRead off = v &&& sigMask := by
  rw [regRead_sig _ h h1, regWrite_sig t v h h1]
  simp [show (off - 0x110) / 4 < 8 by omega]

theorem regRead_regWrite_header (t : State) (v : Word) (h : 0x400 ≤ off) (h1 : off < 0x800) (h2 : off % 0x100 = 0) :
    (t.regWrite off v).regRead off = v &&& 0x8000FFFF := by
  obtain ⟨e, hread⟩ := regRead_regWrite_spslut t v h h1
  rw [hread, h2]
  exact SpsEntry.headerWord_regWrite e v

/-! ### What a read of the master returns -/

/-- A read of an offset that `regRead` gives as a packed word. -/
theorem masterRead_packed {n k : Nat} {bytes : Vector Byte n} (hk : k < n / 4) (h : off % 4 = 0) (h1 : off < 0x2000)
    (hw : s.regRead off = packedRead bytes k) :
    ∃ w, masterRead off s = .next { s with rdataA := w } ∧
      ∀ j, j < 4 → bytes.toList[4 * k + j]? = some (w.extractLsb' (8 * j) 8) :=
  ⟨_, masterRead_register h h1 hw, fun _ => packedRead_extract bytes hk⟩

/-- Settles O54: each region is an equation of `regRead`, and what a write stored is what the region reads. -/
theorem masterRegisterReads : Obligations.MasterRegisterReads := by
  intro s
  refine ⟨rfl, rfl, rfl, rfl, rfl, rfl, ?arg, ?res, rfl, rfl, rfl, ?resync, ?ring, ?pat, ?sig, ?lbuf, ?spslut, ?desc,
    ?reserved, ?every, ?readBack⟩
  case arg =>
    intro i w hw
    have hi : i < 4 := (Vector.getElem?_eq_some_iff.1 hw).1
    refine masterRead_register (by omega) (by omega) ?_
    rw [regRead_arg s (by omega) (by omega), show (0x18 + 4 * i - 0x18) / 4 = i by omega, hw, Option.getD_some]
  case res =>
    intro i w hw
    have hi : i < 5 := (Vector.getElem?_eq_some_iff.1 hw).1
    refine masterRead_register (by omega) (by omega) ?_
    rw [regRead_res s (by omega) (by omega), show (0x28 + 4 * i - 0x28) / 4 = i by omega, hw, Option.getD_some]
  case resync =>
    intro st
    cases st <;> exact ⟨rfl, rfl, rfl, rfl⟩
  case ring =>
    intro o
    cases o <;> exact ⟨rfl, rfl, rfl, rfl⟩
  case pat =>
    intro k hk
    refine masterRead_packed hk (by omega) (by omega) ?_
    rw [regRead_pat s (by omega) (by omega), show (0x100 + 4 * k - 0x100) / 4 = k by omega]
  case sig =>
    intro i w hw
    have hi : i < 8 := (Vector.getElem?_eq_some_iff.1 hw).1
    refine masterRead_register (by omega) (by omega) ?_
    rw [regRead_sig s (by omega) (by omega), show (0x110 + 4 * i - 0x110) / 4 = i by omega, hw, Option.getD_some]
  case lbuf =>
    intro k hk
    refine masterRead_packed hk (by omega) (by omega) ?_
    rw [regRead_lbuf s (by omega) (by omega), show (0x200 + 4 * k - 0x200) / 4 = k by omega]
  case spslut =>
    intro i e he
    have hi := spslut_index_lt he
    refine ⟨masterRead_register (by omega) (by omega) ?_, fun k hk => masterRead_packed hk (by omega) (by omega) ?_,
      fun k hk => masterRead_packed hk (by omega) (by omega) ?_⟩
    · rw [regRead_spslut he (by omega), show (0x400 + 0x100 * i) % 0x100 = 0 by omega]
      exact e.headerWord_eq
    · rw [regRead_spslut he (by omega), SpsEntry.regRead_pattern e (by omega) (by omega),
        show ((0x440 + 0x100 * i + 4 * k) % 0x100 - 0x40) / 4 = k by omega]
    · rw [regRead_spslut he (by omega), SpsEntry.regRead_repl e (by omega) (by omega),
        show ((0x480 + 0x100 * i + 4 * k) % 0x100 - 0x80) / 4 = k by omega]
  case desc =>
    intro o j hj
    have word : ∀ m, m < 4 → ∀ w, (s.descAt o j).regRead m = w →
        masterRead (0x1000 + 0x400 * natOfStream o + 0x10 * j + 4 * m) s = .next { s with rdataA := w } := by
      intro m hm w hw
      have ho := natOfStream_lt o
      exact masterRead_register (by omega) (by omega) ((regRead_desc s o hj hm rfl).trans hw)
    have listed : ∀ d, Memory.read (s.ring.get o).desc j = some d → s.descAt o j = d := fun d hd => by
      rw [Parametric.State.descAt, hd, Option.getD_some]
    cases o <;> exact
      ⟨fun d hd => ⟨word 0 (by decide) d.off (by rw [listed d hd]; rfl),
        word 1 (by decide) d.seq (by rw [listed d hd]; rfl), word 2 (by decide) d.size (by rw [listed d hd]; rfl)⟩,
        word 3 (by decide) 0 rfl⟩
  case reserved =>
    intro off h0 h
    refine masterRead_register h0 (by omega) ?_
    rcases h with h | h | h | h | h | h | h | h | h
    · exact regRead_control_reserved s h.1 h.2
    · exact regRead_resync_reserved s h.1 h.2
    · exact regRead_ring_reserved s h.1 h.2
    · exact regRead_sig_reserved s h.1 h.2
    · exact regRead_lbuf_reserved s h.1 h.2
    · rw [regRead_spslut (spslut_getElem? s h.1 h.2.1) (by omega), SpsEntry.regRead_reserved _ h.2.2]
    · exact regRead_unlisted s h.1 h.2
    · exact regRead_desc_reserved s h.1 h.2.2
    · exact regRead_noRing s h.1 h.2
  case every =>
    exact fun off h0 h => ⟨_, masterRead_register h0 h rfl⟩
  case readBack =>
    intro t off v h0 hw
    have reads : ∀ w, off < 0x2000 → off ≠ 0x10 → (t.regWrite off v).regRead off = w →
        masterRead off s = .next { s with rdataA := w } := by
      intro w h1 h2 hr
      rw [masterWrite_register t v h0 h1 h2] at hw
      cases hw
      exact masterRead_register h0 h1 hr
    refine ⟨fun h => ?_, fun h => ?_, fun h => ?_⟩
    · exact reads v (by omega) (by omega) (regRead_regWrite_data t v h0 h)
    · exact reads _ (by omega) (by omega) (regRead_regWrite_sig t v h.1 h.2)
    · exact reads _ (by omega) (by omega) (regRead_regWrite_header t v h.1 h.2.1 h.2.2)

end Sys2Proof.Machine
end

section
/-! The input ring: the block only reads it, and what a read returns is the producer's last write (spec/20_memory.md
R40, R48, R52). -/

namespace Sys2Proof.Machine

/-- After a list of producer writes a byte holds the last of them to its address (R52). -/
theorem imemByte_produce (cells : List Host.Cell) (m : Memory Byte) (a : Nat) :
    imemByte (produce cells m) a =
      match (cells.filter (fun c => c.1 = a)).getLast? with
      | some c => c.2
      | none => imemByte m a := by
  induction cells using List.reverseRecOn with
  | nil => rfl
  | append_singleton cells c ih =>
    have hlast : imemByte (produce (cells ++ [c]) m) a = if a = c.1 then c.2 else imemByte (produce cells m) a := by
      rw [produce_append]
      exact imemByte_write _ _ _ _
    rw [hlast, List.filter_append]
    by_cases hc : c.1 = a
    · simp [hc]
    · simp [hc, Ne.symm hc, ih]

/-- Settles O50. -/
theorem inputRingIsNeverWritten : Obligations.InputRingIsNeverWritten :=
  ⟨fun _ _ _ h => (exec_frame h).input, imemByte_write, fun _ => rfl, iread_spec,
    fun inp n a => imemByte_produce (inp.pending.take n).flatten inp.mem a, fun _ _ => ⟨rfl, fun _ => rfl⟩⟩

end Sys2Proof.Machine
end

section
/-! The reads of the block stay inside the payload region and the three header fields: on two input rings that agree
there, under one schedule of the producer, every reading operation returns the same and leaves rings that agree
there (spec/20_memory.md R44, spec/41_ring_locator.md R110). -/

namespace Sys2Proof.Machine

/-- The addresses the block may read: the payload region and the three header fields (R44, R70). -/
def Geom.Readable (g : Geom) (a : Nat) : Prop :=
  (g.off ≤ a ∧ a < g.size) ∨ (4 ≤ a ∧ a < 8) ∨ (12 ≤ a ∧ a < 20)

/-- Two input rings with one schedule and the same bytes wherever the block may read. -/
structure InputRing.Agrees (g : Geom) (inp inp2 : InputRing) : Prop where
  pending : inp2.pending = inp.pending
  mem : agreeWhereRead g inp.mem inp2.mem

/-- A reading operation cannot tell rings apart that agree where the block may read. -/
def ReadsInside {α : Type} (g : Geom) (f : InputRing → α × InputRing) : Prop :=
  ∀ {inp inp2 : InputRing}, inp.Agrees g inp2 →
    ∃ x i i2, f inp = (x, i) ∧ f inp2 = (x, i2) ∧ i.Agrees g i2

variable {g : Geom} {a : Nat}

theorem Geom.readable_of_isRing (h : g.isRing a = true) : g.Readable a := .inl ((g.isRing_iff a).1 h)

/-- A ring byte less than the span away from a ring address is in the payload region. -/
theorem Geom.readable_wrap (ha : g.isRing a = true) {k : Nat} (hk : k < g.span) : g.Readable (g.wrap (a + k)) := by
  obtain ⟨hlo, hhi⟩ := (g.isRing_iff a).1 ha
  exact readable_of_isRing (wrap_isRing (by omega) (by omega))

/-! ### The producer's writes keep the agreement -/

theorem agreeWhereRead.produce {m1 m2 : Memory Byte} (cells : List Host.Cell) (h : agreeWhereRead g m1 m2) :
    agreeWhereRead g (produce cells m1) (produce cells m2) := by
  intro a ha
  rw [imemByte_produce, imemByte_produce, h a ha]

theorem InputRing.Agrees.advance {inp inp2 : InputRing} (h : inp.Agrees g inp2) (n : Nat) :
    (inp.advance n).Agrees g (inp2.advance n) where
  pending := congrArg (List.drop n) h.pending
  mem := by
    simp only [InputRing.advance, h.pending]
    exact h.mem.produce _

theorem InputRing.Agrees.readAt {inp inp2 : InputRing} (h : inp.Agrees g inp2) (ha : g.Readable a) (n : Nat) :
    inp2.readAt n a = inp.readAt n a := ((h.advance n).mem a ha).symm

/-! ### Reads at fixed addresses -/

theorem iread_inside (ha : g.Readable a) : ReadsInside g (iread a) := fun {inp inp2} h =>
  ⟨inp.readAt 1 a, inp.advance 1, inp2.advance 1, iread_spec a inp, by rw [iread_spec, h.readAt ha], h.advance 1⟩

theorem readSeq_inside {addr : Nat → Nat} {n k : Nat} (ha : ∀ j, k ≤ j → j < k + n → g.Readable (addr j)) :
    ReadsInside g (readSeq addr n k) := by
  induction n generalizing k with
  | zero => exact fun h => ⟨[], _, _, rfl, rfl, h⟩
  | succ n ih =>
    intro inp inp2 h
    obtain ⟨b, i, i2, e, e2, hb⟩ := iread_inside (ha k (by omega) (by omega)) h
    obtain ⟨bs, j, j2, e', e2', hbs⟩ := ih (k := k + 1) (fun j h1 h2 => ha j (by omega) (by omega)) hb
    exact ⟨b :: bs, j, j2, by simp only [readSeq, e, e'], by simp only [readSeq, e2, e2'], hbs⟩

theorem memRead_inside {n : Nat} (ha : ∀ j, j < n → g.Readable (a + j)) : ReadsInside g (memRead a n) := by
  intro inp inp2 h
  obtain ⟨bs, i, i2, e, e2, hi⟩ := readSeq_inside (addr := fun k => a + k) (n := n) (k := 0)
    (fun j _ hj => ha j (by omega)) h
  exact ⟨leBytes bs, i, i2, by simp only [memRead, e], by simp only [memRead, e2], hi⟩

theorem rb_inside (ha : g.isRing a = true) {k : Nat} (hk : k < g.span) : ReadsInside g (rb g a k) :=
  iread_inside (Geom.readable_wrap ha hk)

theorem copyBytes_inside (ha : g.isRing a = true) {n : Nat} (hn : n ≤ g.span) : ReadsInside g (copyBytes g a n) :=
  readSeq_inside fun _ _ _ => Geom.readable_wrap ha (by omega)

theorem headerField_inside (ha : g.isRing a = true) {o n : Nat} (hn : o + n ≤ g.span) :
    ReadsInside g (headerField g a o n) := by
  intro inp inp2 h
  obtain ⟨bs, i, i2, e, e2, hi⟩ := readSeq_inside (addr := fun k => g.wrap (a + (o + k))) (n := n) (k := 0)
    (fun _ _ _ => Geom.readable_wrap ha (by omega)) h
  exact ⟨leBytes bs, i, i2, by simp only [headerField, e], by simp only [headerField, e2], hi⟩

/-- The fields of a header lie in its `hdr_min` first bytes (spec/42_header_codec.md R121). -/
theorem Layout.fields_le_minSize (l : Layout) :
    l.timeOff + 4 ≤ l.minSize ∧ l.typeOff + 2 ≤ l.minSize ∧ l.counterOff + 2 ≤ l.minSize ∧ 8 ≤ l.minSize := by
  cases l <;> decide

theorem decodeHdr_inside (ha : g.isRing a = true) {l : Layout} (hl : l.minSize ≤ g.span) :
    ReadsInside g (decodeHdr g l a) := by
  intro inp inp2 h
  obtain ⟨htime, htype, hcounter, hmin⟩ := l.fields_le_minSize
  have field : ∀ {o n}, o + n ≤ l.minSize → ReadsInside g (headerField g a o n) :=
    fun ho => headerField_inside ha (ho.trans hl)
  obtain ⟨len, _, _, e1, e1', h1⟩ := field (o := 0) (n := 4) (by omega) h
  obtain ⟨sq, _, _, e2, e2', h2⟩ := field (o := 4) (n := 4) (by omega) h1
  obtain ⟨time, _, _, e3, e3', h3⟩ := field htime h2
  obtain ⟨ty, _, _, e4, e4', h4⟩ := field htype h3
  obtain ⟨ctr, i, i2, e5, e5', h5⟩ := field hcounter h4
  exact ⟨_, i, i2, by simp only [decodeHdr, e1, e2, e3, e4, e5]; rfl,
    by simp only [decodeHdr, e1', e2', e3', e4', e5'], h5⟩

/-! ### Search and compare -/

theorem matchAt_inside (ha : g.isRing a = true) {pat : List Byte} {k : Nat} (hk : k + pat.length ≤ g.span) :
    ReadsInside g (matchAt g a pat k) := by
  induction pat generalizing k with
  | nil => exact fun h => ⟨true, _, _, rfl, rfl, h⟩
  | cons p ps ih =>
    intro inp inp2 h
    rw [List.length_cons] at hk
    obtain ⟨b, i, i2, e, e2, hb⟩ := rb_inside ha (k := k) (by omega) h
    simp only [matchAt, e, e2]
    split
    · exact ih (by omega) hb
    · exact ⟨false, i, i2, rfl, rfl, hb⟩

theorem findFrom_inside (ha : g.isRing a = true) {pat : List Byte} {n k : Nat}
    (hk : k + n + pat.length ≤ g.span + 1) : ReadsInside g (findFrom g a pat n k) := by
  induction n generalizing k with
  | zero => exact fun h => ⟨none, _, _, rfl, rfl, h⟩
  | succ n ih =>
    intro inp inp2 h
    obtain ⟨hit, i, i2, e, e2, hi⟩ := matchAt_inside ha (pat := pat) (k := k) (by omega) h
    simp only [findFrom, e, e2]
    split
    · exact ⟨_, i, i2, rfl, rfl, hi⟩
    · exact ih (by omega) hi

theorem findWin_inside (ha : g.isRing a = true) {len : Nat} (hlen : len ≤ g.span) (pat : List Byte) :
    ReadsInside g (findWin g a len pat) := by
  intro inp inp2 h
  simp only [findWin]
  split
  · exact ⟨none, inp, inp2, rfl, rfl, h⟩
  · exact findFrom_inside ha (by omega) h

theorem cmpBytes_inside (ha : g.isRing a = true) {loc : List Byte} {k : Nat} (hk : k + loc.length ≤ g.span) :
    ReadsInside g (cmpBytes g a loc k) := by
  induction loc generalizing k with
  | nil => exact fun h => ⟨.eq, _, _, rfl, rfl, h⟩
  | cons l ls ih =>
    intro inp inp2 h
    rw [List.length_cons] at hk
    obtain ⟨r, i, i2, e, e2, hr⟩ := rb_inside ha (k := k) (by omega) h
    simp only [cmpBytes, e, e2]
    split
    · exact ⟨.lt, i, i2, rfl, rfl, hr⟩
    split
    · exact ⟨.gt, i, i2, rfl, rfl, hr⟩
    · exact ih (by omega) hr

theorem spsMatch_inside (ha : g.isRing a = true) {n : Nat} (hn : n ≤ g.span)
    (es : List (SpsEntry Config.params)) : ReadsInside g (spsMatch g a n es) := by
  intro inp inp2 h
  simp only [spsMatch]
  split
  · obtain ⟨bs, i, i2, e, e2, hi⟩ := copyBytes_inside ha hn h
    simp only [e, e2]
    exact ⟨_, i, i2, rfl, rfl, hi⟩
  · exact ⟨none, inp, inp2, rfl, rfl, h⟩

/-! ### Commit sampling and the walk (spec/43_demux.md R145, R146, R160) -/

/-- The three fields of the input-ring header are readable (spec/30_encoding.md R70). -/
theorem irhField_inside {o : Nat} (ho : o = 4 ∨ o = 12 ∨ o = 16) : ReadsInside g (memRead o 4) :=
  memRead_inside fun _ _ => .inr (by omega)

theorem sampleChain_inside : ReadsInside g (sampleChain g) := by
  intro inp inp2 h
  obtain ⟨off, _, _, e1, e1', h1⟩ := irhField_inside (o := Config.params.irhCommitOff) (by decide) h
  obtain ⟨_, _, _, e2, e2', h2⟩ := irhField_inside (o := Config.params.irhLenOff) (by decide) h1
  obtain ⟨echo, i, i2, e3, e3', h3⟩ := irhField_inside (o := Config.params.irhEchoOff) (by decide) h2
  simp only [sampleChain, e1, e1', e2, e2', e3, e3']
  exact ⟨_, i, i2, rfl, rfl, h3⟩

theorem sampleScan_inside : ReadsInside g (sampleScan g) := by
  intro inp inp2 h
  obtain ⟨off, i, i2, e, e', hi⟩ := irhField_inside (o := Config.params.irhCommitOff) (by decide) h
  simp only [sampleScan, e, e']
  exact ⟨_, i, i2, rfl, rfl, hi⟩

theorem walk_inside {l : Layout} {hs stop left p : Nat} (hl : l.minSize ≤ g.span) (hstop : g.isRing stop = true)
    (hp : g.isRing p = true) (tab : List (Nat × Hdr)) : ReadsInside g (walk g l hs stop left p tab) := by
  induction left generalizing p tab with
  | zero =>
    intro inp inp2 h
    simp only [walk]
    split
    · exact ⟨_, inp, inp2, rfl, rfl, h⟩
    · exact ⟨_, inp, inp2, rfl, rfl, h⟩
  | succ left ih =>
    intro inp inp2 h
    obtain ⟨hd, i, i2, e, e2, hi⟩ := decodeHdr_inside hp hl h
    simp only [walk, e, e2]
    split
    · exact ⟨_, inp, inp2, rfl, rfl, h⟩
    split
    · exact ⟨_, i, i2, rfl, rfl, hi⟩
    · have hdist := Geom.dist_lt hp hstop
      exact ih (Geom.move_isRing hp (by omega) (by omega)) _ hi

/-- Every frame the walk records fits, with its header, into the payload region. -/
theorem walk_length_lt {l : Layout} {hs stop left p : Nat} {tab res : List (Nat × Hdr)} {inp inp' : InputRing}
    (hstop : g.isRing stop = true) (hp : g.isRing p = true) (htab : ∀ e ∈ tab, hs + e.2.length.toNat < g.span)
    (h : walk g l hs stop left p tab inp = (.done res, inp')) : ∀ e ∈ res, hs + e.2.length.toNat < g.span := by
  induction left generalizing p tab inp with
  | zero =>
    simp only [walk] at h
    split at h
    · cases h
      exact htab
    · cases h
  | succ left ih =>
    simp only [walk] at h
    split at h
    · cases h
      exact htab
    split at h
    · cases h
    · rename_i hlen
      have hdist := Geom.dist_lt hp hstop
      refine ih (Geom.move_isRing hp (by omega) (by omega)) ?_ h
      intro e he
      rcases List.mem_append.1 he with he | he
      · exact htab e he
      · rw [List.mem_singleton.1 he]
        exact lt_of_le_of_lt (not_lt.1 hlen) hdist

end Sys2Proof.Machine
end

section
/-! Two states that differ in unreadable bytes of `IMEM` alone are kept so by every update and every shared operation
(spec/20_memory.md R44). -/

namespace Sys2Proof.Machine

/-- State `t` is state `s` but for the input ring, and the input rings agree where a block with geometry `g` may
read. -/
def SameButInput (g : Geom) (s t : State) : Prop := ∃ inp, t = s.setInput inp ∧ s.input.Agrees g inp

/-- Two answers of a shared operation: the same value, and states that differ in unreadable bytes alone. -/
def SameAnswer {α : Type} (g : Geom) (r r2 : α × State) : Prop := r2.1 = r.1 ∧ SameButInput g r.2 r2.2

/-- A choice by equivalent conditions keeps a relation that both branches keep. -/
theorem rel_ite {α β : Type} {R : α → β → Prop} {c c2 : Prop} {i : Decidable c} {i2 : Decidable c2} {a b : α}
    {a2 b2 : β} (hc : c2 ↔ c) (ht : c → R a a2) (he : ¬c → R b b2) : R (@ite α c i a b) (@ite β c2 i2 a2 b2) := by
  by_cases h : c
  · rw [if_pos h, if_pos (hc.2 h)]
    exact ht h
  · rw [if_neg h, if_neg (mt hc.1 h)]
    exact he h

section Accessors

variable (s : State) (inp : InputRing)

@[simp] theorem State.setInput_argNat (i : Fin 4) : (s.setInput inp).argNat i = s.argNat i := rfl
@[simp] theorem State.setInput_argInt (i : Fin 4) : (s.setInput inp).argInt i = s.argInt i := rfl
@[simp] theorem State.setInput_argHalf (i : Fin 4) : (s.setInput inp).argHalf i = s.argHalf i := rfl

theorem State.setInput_usesWindow (v : Variant) : (s.setInput inp).usesWindow v = s.usesWindow v := by cases v <;> rfl

theorem State.setInput_enabled (st : StreamId) : (s.setInput inp).enabled st = s.enabled st := by cases st <;> rfl

theorem State.setInput_controlRead (off : Nat) : (s.setInput inp).controlRead off = s.controlRead off := rfl

theorem State.setInput_descRegRead (j : Nat) : (s.setInput inp).descRegRead j = s.descRegRead j := rfl

theorem State.setInput_regRead (off : Nat) : (s.setInput inp).regRead off = s.regRead off := by
  unfold Parametric.State.regRead
  rw [State.setInput_controlRead, State.setInput_descRegRead, State.setInput_resync, State.setInput_ring,
    State.setInput_pat, State.setInput_sig, State.setInput_lbuf, State.setInput_spslut]

theorem State.setInput_portBRead (off : Nat) : (s.setInput inp).portBRead off = s.portBRead off := by
  simp only [Parametric.State.portBRead, State.setInput_regRead, State.setInput_cmdb, State.setInput_statusb,
    State.setInput_resb]

end Accessors

/-! ### Operations that do not read the input ring -/

/-- The operation neither reads nor writes the input ring: it commutes with replacing it. -/
def IgnoresInput (f : State → State) : Prop := ∀ s inp, f (s.setInput inp) = (f s).setInput inp

/-- The same of an operation that answers a value as well. -/
def CarriesInput {α : Type} (f : State → α × State) : Prop :=
  ∀ s inp, f (s.setInput inp) = ((f s).1, (f s).2.setInput inp)

theorem IgnoresInput.comp {f f' : State → State} (h' : IgnoresInput f') (h : IgnoresInput f) :
    IgnoresInput (fun s => f' (f s)) := fun s inp => (congrArg f' (h s inp)).trans (h' (f s) inp)

theorem finish_ignoresInput (p : Port) (c : StatusCode) : IgnoresInput (·.finish p c) := fun _ _ => by cases p <;> rfl

theorem seqWindow_setInput (st : StreamId) (c : Half) (s : State) (inp : InputRing) :
    seqWindow st c (s.setInput inp) =
      ((seqWindow st c s).1, (seqWindow st c s).2.1, (seqWindow st c s).2.2.setInput inp) := by
  simp only [seqWindow]
  rw [State.setInput_resync]
  split
  · rfl
  split
  · rfl
  split <;> rfl

theorem seqWindow_ignoresInput (st : StreamId) (c : Half) : IgnoresInput fun s => (seqWindow st c s).2.2 :=
  fun s inp => congrArg (·.2.2) (seqWindow_setInput st c s inp)

theorem seqLoss_carriesInput (st : StreamId) (c : Half) : CarriesInput (seqLoss st c) := by
  intro s inp
  simp only [seqLoss]
  rw [State.setInput_resync]
  split
  · rfl
  split <;> rfl

theorem seqCheck_carriesInput (v : Variant) (st : StreamId) (c : Half) : CarriesInput (seqCheck v st c) := by
  intro s inp
  simp only [seqCheck, seqWindow_setInput, seqLoss_carriesInput st c s inp]
  rw [State.setInput_usesWindow]
  split <;> rfl

theorem push_carriesInput (o : StreamId) (bytes : List Byte) (sq : Word) : CarriesInput (push o bytes sq) := by
  intro s inp
  simp only [push]
  rw [State.setInput_ring]
  split
  · rfl
  split <;> rfl

theorem popCommand_ignoresInput (p : Port) (o : StreamId) : IgnoresInput (popCommand p o) := by
  intro s inp
  simp only [popCommand]
  rw [State.setInput_ring]
  split <;> cases p <;> rfl

theorem portBCommand_pop {w : Word} {o : StreamId} (h : decode .b w = .ok (.pop .b o)) (s : State) :
    portBCommand w s = popCommand .b o { s with cmdb := w } := by simp only [portBCommand, h]

theorem portBCommand_illegal {w : Word} {e : Illegal} (h : decode .b w = .error e) (s : State) :
    portBCommand w s = Parametric.State.illegal { s with cmdb := w } .b := by simp only [portBCommand, h]

theorem portBCommand_ignoresInput (w : Word) : IgnoresInput (portBCommand w) := by
  intro s inp
  rcases portBCommand_cases w s with ⟨o, hd, -⟩ | ⟨e, hd, -⟩
  · rw [portBCommand_pop hd, portBCommand_pop hd]
    exact popCommand_ignoresInput .b o { s with cmdb := w } inp
  · rw [portBCommand_illegal hd, portBCommand_illegal hd]
    rfl

theorem serveConsumer_ignoresInput (a : ConsumerAct) : IgnoresInput (serveConsumer a) := by
  intro s inp
  cases a with
  | read off =>
    simp only [serveConsumer, State.setInput_portBRead]
    rfl
  | write off v =>
    simp only [serveConsumer]
    split
    · exact portBCommand_ignoresInput v s inp
    · rfl

theorem serveAll_ignoresInput (acts : List ConsumerAct) : IgnoresInput (serveAll acts) := by
  induction acts with
  | nil => exact fun _ _ => rfl
  | cons a acts ih => exact ih.comp (serveConsumer_ignoresInput a)

theorem consumerGap_ignoresInput : IgnoresInput consumerGap := by
  intro s inp
  simp only [consumerGap, State.setInput_consumer]
  split
  · rfl
  · rename_i batch rest _
    exact serveAll_ignoresInput batch { s with consumer := rest } inp

/-! ### Rules of the relation -/

variable {g : Geom} {s t : State}

theorem SameButInput.of_agrees {inp : InputRing} (h : s.input.Agrees g inp) : SameButInput g s (s.setInput inp) :=
  ⟨inp, rfl, h⟩

theorem SameButInput.geom (h : SameButInput g s t) : t.geom = s.geom := by
  obtain ⟨_, rfl, -⟩ := h
  rfl

theorem SameButInput.map {f : State → State} (hf : IgnoresInput f) (h : SameButInput g s t) :
    SameButInput g (f s) (f t) := by
  obtain ⟨inp, rfl, hin⟩ := h
  have hkept : (f s).input = s.input := congrArg (·.input) (hf s s.input)
  exact ⟨inp, hf s inp, hkept ▸ hin⟩

theorem SameButInput.setInput {inp inp2 : InputRing} (h : SameButInput g s t) (hin : inp.Agrees g inp2) :
    SameButInput g (s.setInput inp) (t.setInput inp2) := by
  obtain ⟨_, rfl, -⟩ := h
  exact ⟨inp2, rfl, hin⟩

theorem SameButInput.finish (p : Port) (c : StatusCode) (h : SameButInput g s t) :
    SameButInput g (s.finish p c) (t.finish p c) := h.map (finish_ignoresInput p c)

theorem SameButInput.raise (e : Event) (h : SameButInput g s t) : SameButInput g (s.raise e) (t.raise e) :=
  h.map (f := (·.raise e)) fun _ _ => rfl

theorem SameButInput.setRes (i : Fin 5) (v : Word) (h : SameButInput g s t) :
    SameButInput g (s.setRes i v) (t.setRes i v) := h.map (f := (·.setRes i v)) fun _ _ => rfl

theorem SameButInput.setCur (a : Nat) (h : SameButInput g s t) : SameButInput g (s.setCur a) (t.setCur a) :=
  h.map (f := (·.setCur a)) fun _ _ => rfl

theorem SameButInput.initCur (a : Nat) (h : SameButInput g s t) : SameButInput g (s.initCur a) (t.initCur a) :=
  h.map (f := (·.initCur a)) fun _ _ => rfl

theorem SameButInput.setResults5 (v0 v1 v2 v3 v4 : Word) (h : SameButInput g s t) :
    SameButInput g (s.setResults5 v0 v1 v2 v3 v4) (t.setResults5 v0 v1 v2 v3 v4) :=
  h.map (f := (·.setResults5 v0 v1 v2 v3 v4)) fun _ _ => rfl

theorem SameButInput.answer {α : Type} {f : State → α × State} (hf : CarriesInput f) (h : SameButInput g s t) :
    SameAnswer g (f s) (f t) := by
  refine ⟨?_, h.map (f := fun s => (f s).2) fun s inp => congrArg Prod.snd (hf s inp)⟩
  obtain ⟨inp, rfl, -⟩ := h
  rw [hf]

/-- An answer taken apart: one value, two states. -/
theorem SameAnswer.run {α : Type} {r r2 : α × State} (h : SameAnswer g r r2) :
    ∃ x u u2, r = (x, u) ∧ r2 = (x, u2) ∧ SameButInput g u u2 :=
  ⟨r.1, r.2, r2.2, rfl, Prod.ext h.1 rfl, h.2⟩

/-! ### Emission and delivery (spec/44_sps_emit.md R171, spec/43_demux.md R142) -/

theorem emit_same {a n : Nat} (hg : s.geom = g) (ha : g.isRing a = true) (hn : n ≤ g.span) (st : StreamId) (sq : Word)
    (isSps : Bool) (h : SameButInput g s t) : SameAnswer g (emit st a n sq isSps s) (emit st a n sq isSps t) := by
  subst hg
  obtain ⟨inp, rfl, hin⟩ := id h
  refine rel_ite .rfl (fun _ => ⟨rfl, h.raise _⟩) fun _ => rel_ite .rfl (fun _ => ?_) fun _ => ?_
  · obtain ⟨r, i, i2, e, e2, hi⟩ := spsMatch_inside ha hn s.spslut.toList hin
    simp only [State.setInput_geom, State.setInput_spslut, State.setInput_input, e, e2]
    cases r with
    | none => exact ⟨rfl, (h.setInput hi).raise _⟩
    | some entry => exact (h.setInput hi).answer (push_carriesInput st entry.replBytes sq)
  · obtain ⟨bytes, i, i2, e, e2, hi⟩ := copyBytes_inside ha hn hin
    simp only [State.setInput_geom, State.setInput_input, e, e2]
    exact (h.setInput hi).answer (push_carriesInput st bytes sq)

theorem deliverPayload_same {hd : Hdr} {pay : Nat} (hg : s.geom = g) (hspan : 6 < g.span)
    (hpay : g.isRing pay = true) (hlen : hd.length.toNat ≤ g.span) (st : StreamId) (isSps : Bool)
    (h : SameButInput g s t) : SameAnswer g (deliverPayload st hd pay isSps s) (deliverPayload st hd pay isSps t) := by
  simp only [deliverPayload, hg, h.geom.trans hg]
  refine rel_ite .rfl (fun _ => rel_ite .rfl (fun _ => ⟨rfl, h.raise _⟩) fun _ => ?_) fun _ => ?_
  · have hpay6 : g.isRing (g.move pay Config.params.spsPrefix) = true :=
      Geom.move_isRing (d := (6 : Nat)) hpay (by omega) (by omega)
    obtain ⟨r, u, u2, e, e2, hu⟩ := (emit_same hg hpay6 (n := hd.length.toNat - Config.params.spsPrefix) (by omega) st
      hd.sequenceCounter true h).run
    simp only [e, e2]
    exact ⟨rfl, hu⟩
  · obtain ⟨r, u, u2, e, e2, hu⟩ := (emit_same hg hpay hlen st hd.sequenceCounter false h).run
    simp only [e, e2]
    exact ⟨rfl, hu⟩

theorem seqCheck_geom (v : Variant) (st : StreamId) (c : Half) (s : State) : (seqCheck v st c s).2.geom = s.geom := by
  obtain ⟨_, _, hframe, -⟩ := seqCheck_frame v st c s
  exact congrArg (·.geom) hframe

theorem deliver_same {hd : Hdr} {pay : Nat} (hg : s.geom = g) (hspan : 6 < g.span) (hpay : g.isRing pay = true)
    (hlen : hd.length.toNat ≤ g.span) (v : Variant) (isSps : Bool) (h : SameButInput g s t) :
    SameAnswer g (deliver v hd pay isSps s) (deliver v hd pay isSps t) := by
  have henabled : t.enabled = s.enabled := by
    obtain ⟨inp, rfl, -⟩ := h
    exact funext (s.setInput_enabled inp)
  simp only [deliver]
  cases route hd.streamType with
  | none => exact ⟨rfl, h.raise _⟩
  | some st =>
    simp only
    rw [henabled]
    refine rel_ite .rfl (fun _ => ⟨rfl, h⟩) fun _ => ?_
    have hchecked := seqCheck_geom v st hd.streamCounter s
    obtain ⟨code, u, u2, e, e2, hu⟩ := (h.answer (seqCheck_carriesInput v st hd.streamCounter)).run
    rw [e] at hchecked
    rw [e, e2]
    cases code with
    | ok => exact deliverPayload_same (hchecked.trans hg) hspan hpay hlen st isSps hu
    | _ => exact ⟨rfl, hu⟩

end Sys2Proof.Machine
end

section
/-! Each operation keeps two states that differ in unreadable bytes of `IMEM` alone (spec/20_memory.md R44,
spec/41_ring_locator.md R110): its operand checks put every read inside the payload region. -/

namespace Sys2Proof.Machine

/-- Two outcomes of an operation: both answer a state, and the states differ in unreadable bytes alone. -/
def SameNext (g : Geom) (o o2 : Host.Outcome State Fault Refusal) : Prop :=
  ∃ t t2, o = .next t ∧ o2 = .next t2 ∧ SameButInput g t t2

variable {g : Geom} {s t : State}

theorem SameNext.next (h : SameButInput g s t) : SameNext g (.next s) (.next t) := ⟨s, t, rfl, rfl, h⟩

theorem SameNext.errCfg (h : SameButInput g s t) : SameNext g (.next s.errCfg) (.next t.errCfg) :=
  .next ((h.raise _).finish _ _)

theorem SameNext.errRange (h : SameButInput g s t) : SameNext g (.next s.errRange) (.next t.errRange) :=
  .next ((h.raise _).finish _ _)

theorem finishStored_same {r r2 : Except StatusCode Stored × State} (h : SameAnswer g r r2) :
    SameButInput g (finishStored r) (finishStored r2) := by
  obtain ⟨x, u, u2, rfl, rfl, hu⟩ := h.run
  cases x with
  | error c => exact hu.finish .a c
  | ok v => exact (hu.map (f := (·.setResults3 .a v.size v.off v.slot)) fun _ _ => rfl).finish .a .ok

/-! ### Locator, codec, classification, sequence, rings -/

theorem execMove_same (h : SameButInput g s t) : SameNext g (execMove s) (execMove t) := by
  obtain ⟨inp, rfl, -⟩ := id h
  exact rel_ite .rfl (fun _ => .errCfg h) fun _ => rel_ite .rfl (fun _ => .errRange h) fun _ =>
    .next ((h.setRes 0 _).finish _ _)

/-- The window of FIND is shorter than the ring (spec/41_ring_locator.md R105). -/
theorem findLength_le {span : Nat} {len : Int} (h : -(span : Int) < len ∧ len < span) : findLength span len ≤ span := by
  simp only [findLength]
  split <;> omega

theorem execFind_same (h : SameButInput s.geom s t) : SameNext s.geom (execFind s) (execFind t) := by
  obtain ⟨inp, rfl, hin⟩ := id h
  refine rel_ite .rfl (fun _ => .errCfg h) fun _ => rel_ite .rfl (fun _ => .errRange h) fun hdom => ?_
  obtain ⟨hsrc, hlen, -⟩ := not_not.1 hdom
  obtain ⟨r, i, i2, e, e2, hi⟩ := findWin_inside hsrc (findLength_le hlen) (s.pat.toList.take (s.argNat 2)) hin
  simp only [State.setInput_geom, State.setInput_argNat, State.setInput_argInt, State.setInput_pat,
    State.setInput_input, e, e2]
  cases r with
  | none => exact .next ((h.setInput hi).finish _ _)
  | some a => exact .next (((h.setInput hi).setRes _ _).finish _ _)

/-- The domain of CMP and COPY (R107, R109). -/
theorem bufferDomain_iff (g : Geom) (a n : Nat) :
    bufferDomain g a n = true ↔ g.isRing a = true ∧ n ≤ 256 ∧ n < g.span := by
  simp [bufferDomain]

theorem execCmp_same (h : SameButInput s.geom s t) : SameNext s.geom (execCmp s) (execCmp t) := by
  obtain ⟨inp, rfl, hin⟩ := id h
  refine rel_ite .rfl (fun _ => .errCfg h) fun _ => rel_ite .rfl (fun _ => .errRange h) fun hdom => ?_
  obtain ⟨ha, -, hn⟩ := (bufferDomain_iff _ _ _).1 (Bool.not_eq_false _ ▸ hdom)
  obtain ⟨o, i, i2, e, e2, hi⟩ := cmpBytes_inside ha (loc := s.lbuf.toList.take (s.argNat 2)) (k := 0)
    (by rw [List.length_take]; omega) hin
  simp only [State.setInput_geom, State.setInput_argNat, State.setInput_lbuf, State.setInput_input, e, e2]
  exact .next (((h.setInput hi).setRes _ _).finish _ _)

theorem execCopy_same (h : SameButInput s.geom s t) : SameNext s.geom (execCopy s) (execCopy t) := by
  obtain ⟨inp, rfl, hin⟩ := id h
  refine rel_ite .rfl (fun _ => .errCfg h) fun _ => rel_ite .rfl (fun _ => .errRange h) fun hdom => ?_
  obtain ⟨ha, -, hn⟩ := (bufferDomain_iff _ _ _).1 (Bool.not_eq_false _ ▸ hdom)
  obtain ⟨bytes, i, i2, e, e2, hi⟩ := copyBytes_inside ha hn.le hin
  simp only [State.setInput_geom, State.setInput_argNat, State.setInput_lbuf, State.setInput_input, e, e2]
  exact .next (((h.setInput hi).map (f := fun s => { s with lbuf := storeBytes s.lbuf 0 bytes })
    fun _ _ => rfl).finish _ _)

/-- With `hdr_ok` the fields of a header fit into the ring, and a header with the first 6 bytes of an SPS
(spec/10_state.md R17). -/
theorem State.hdrOk_fits {s : State} (h : s.hdrOk = true) :
    s.layout.minSize ≤ s.geom.span ∧ s.hdrSize.toNat + 6 < s.geom.span := by
  simp only [Parametric.State.hdrOk, Bool.and_eq_true, decide_eq_true_eq] at h
  omega

theorem execHdec_same (h : SameButInput s.geom s t) : SameNext s.geom (execHdec s) (execHdec t) := by
  obtain ⟨inp, rfl, hin⟩ := id h
  refine rel_ite .rfl (fun _ => .errCfg h) fun hok => rel_ite .rfl (fun _ => .errRange h) fun hring => ?_
  obtain ⟨hd, i, i2, e, e2, hi⟩ := decodeHdr_inside (Bool.not_eq_false _ ▸ hring)
    (State.hdrOk_fits (Bool.not_eq_false _ ▸ hok)).1 hin
  simp only [State.setInput_geom, State.setInput_layout, State.setInput_argNat, State.setInput_input, e, e2]
  exact .next (((h.setInput hi).setResults5 _ _ _ _ _).finish _ _)

theorem execRoute_same (h : SameButInput g s t) : SameNext g (execRoute s) (execRoute t) := by
  obtain ⟨inp, rfl, -⟩ := id h
  simp only [execRoute, State.setInput_argHalf]
  cases route (s.argHalf 0) with
  | none => exact .next ((h.raise _).finish _ _)
  | some st => exact .next (((h.setRes _ _).setRes _ _).finish _ _)

theorem execSeqw_same (st : StreamId) (h : SameButInput g s t) : SameNext g (execSeqw st s) (execSeqw st t) := by
  obtain ⟨inp, rfl, -⟩ := id h
  have hwindow := h.map (seqWindow_ignoresInput st (s.argHalf 0))
  simp only [seqWindow_setInput] at hwindow
  simp only [execSeqw, State.setInput_argHalf, seqWindow_setInput]
  exact .next ((hwindow.setRes _ _).finish _ _)

theorem execSeql_same (st : StreamId) (h : SameButInput g s t) : SameNext g (execSeql st s) (execSeql st t) := by
  obtain ⟨inp, rfl, -⟩ := id h
  obtain ⟨lost, u, u2, e, e2, hu⟩ := (h.answer (seqLoss_carriesInput st (s.argHalf 0))).run
  simp only [execSeql, State.setInput_argHalf, e, e2]
  exact .next ((hu.setRes _ _).finish _ _)

theorem execEmit_same (st : StreamId) (h : SameButInput s.geom s t) :
    SameNext s.geom (execEmit st s) (execEmit st t) := by
  obtain ⟨inp, rfl, -⟩ := id h
  refine rel_ite .rfl (fun _ => .errCfg h) fun _ => rel_ite .rfl (fun _ => .errRange h) fun hdom => ?_
  obtain ⟨ha, hn⟩ := not_not.1 hdom
  exact .next (finishStored_same (emit_same rfl ha hn.le st s.arg[2] (bit s.arg[3] 0) h))

theorem execPush_same (o : StreamId) (h : SameButInput g s t) : SameNext g (execPush o s) (execPush o t) := by
  obtain ⟨inp, rfl, -⟩ := id h
  exact rel_ite .rfl (fun _ => .errRange h) fun _ => .next (finishStored_same (h.answer (push_carriesInput o _ _)))

theorem execPop_same (p : Port) (o : StreamId) (h : SameButInput g s t) : SameNext g (execPop p o s) (execPop p o t) :=
  .next (h.map (popCommand_ignoresInput p o))

/-- SRST with its gaps (spec/46_control.md R200). -/
theorem execSrst_same (h : SameButInput g s t) : SameNext g (execSrst s) (execSrst t) := by
  have clearThenGap : ∀ o, IgnoresInput fun s => consumerGap (clearRing o s) := fun o =>
    consumerGap_ignoresInput.comp (f := clearRing o) fun _ _ => rfl
  have htracking : SameButInput g (clearTracking s) (clearTracking t) := h.map fun _ _ => rfl
  have hrings := ((htracking.map (clearThenGap .low)).map (clearThenGap .high)).map (clearThenGap .aud)
  exact .next ((hrings.map (f := fun s => { s with event := 0 }) fun _ _ => rfl).finish .a .ok)

/-! ### POLLS (spec/43_demux.md R150) -/

section Stages

variable (i1 i2 : Nat) (hd : Hdr) (inp : InputRing) (s : State)

theorem pollsHeader_geom : (pollsHeader hd inp s).geom = s.geom := by simp [pollsHeader]

theorem pollsBoth_geom : (pollsBoth i1 i2 inp s).geom = s.geom := by simp [pollsBoth, pollsAt]

theorem pollsBoth_layout : (pollsBoth i1 i2 inp s).layout = s.layout := by simp [pollsBoth, pollsAt]

theorem pollsBoth_hdrSize : (pollsBoth i1 i2 inp s).hdrSize = s.hdrSize := by simp [pollsBoth, pollsAt]

end Stages

theorem SameButInput.pollsHeader {i i2 : InputRing} (hd : Hdr) (h : SameButInput g s t) (hi : i.Agrees g i2) :
    SameButInput g (pollsHeader hd i s) (pollsHeader hd i2 t) :=
  (((h.setInput hi).setRes _ _).setRes _ _).setRes _ _

theorem pollsFrame_same {i1 i2 : Nat} (k : NalKind) (hg : s.geom = g) (hfields : s.layout.minSize ≤ g.span)
    (hfits : s.hdrSize.toNat + 6 < g.span) (h1 : g.isRing i1 = true) (h2 : g.isRing i2 = true)
    (h : SameButInput g s t) : SameButInput g (pollsFrame i1 i2 k s) (pollsFrame i1 i2 k t) := by
  subst hg
  obtain ⟨inp, rfl, hin⟩ := id h
  have hh : s.geom.isRing (s.geom.move i1 (-(headerBack s.hdrSize.toNat k : Int))) = true := by
    refine Geom.move_isRing h1 ?_ ?_ <;> (simp only [headerBack]; split <;> omega)
  have hpay := Geom.move_isRing (d := s.hdrSize.toNat) hh (by omega) (by omega)
  obtain ⟨hd, i, j, e, e2, hi⟩ := decodeHdr_inside hh hfields hin
  have hheader := h.pollsHeader hd hi
  by_cases hl : hd.length.toNat < s.geom.dist i1 i2
  · have hlen : hd.length.toNat ≤ s.geom.span := (hl.trans (Geom.dist_lt h1 h2)).le
    obtain ⟨v, u, u2, ed, ed2, hu⟩ :=
      (deliver_same (pollsHeader_geom hd i s) (by omega) hpay hlen .scan (decide (k = .sps)) hheader).run
    rw [pollsFrame_deliver e hl ed, pollsFrame_deliver (s := s.setInput inp) e2 hl ed2]
    exact (hu.setCur i2).finish _ _
  · rw [pollsFrame_drop e (not_lt.1 hl), pollsFrame_drop (s := s.setInput inp) e2 (not_lt.1 hl)]
    exact ((hheader.raise _).setCur i2).finish _ _

theorem pollsSecond_same {i1 wr : Nat} (hok : s.hdrOk = true) (h1 : s.geom.isRing i1 = true)
    (hwr : s.geom.isRing wr = true) (h : SameButInput s.geom s t) :
    SameButInput s.geom (pollsSecond i1 wr s) (pollsSecond i1 wr t) := by
  obtain ⟨inp, rfl, hin⟩ := id h
  obtain ⟨hfields, hfits⟩ := State.hdrOk_fits hok
  have hsrc : s.geom.isRing (s.geom.move i1 4) = true := Geom.move_isRing h1 (by omega) (by omega)
  have hwindow := (Geom.dist_lt hsrc hwr).le
  have hat : SameButInput s.geom (pollsAt i1 s) (pollsAt i1 (s.setInput inp)) := (h.setCur _).setRes _ _
  obtain ⟨r, i, j, e, e2, hi⟩ := findWin_inside hsrc hwindow Config.params.startCode hin
  cases r with
  | none =>
    rw [pollsSecond_noSecond e, pollsSecond_noSecond (s := s.setInput inp) e2]
    exact (hat.setInput hi).finish _ _
  | some i2 =>
    have hi2 : s.geom.isRing i2 = true := findWin_isRing hsrc (by decide) hwindow e
    have hboth : SameButInput s.geom (pollsBoth i1 i2 i s) (pollsBoth i1 i2 j (s.setInput inp)) :=
      (hat.setRes _ _).setInput (hi.advance 2)
    have hb0 : ∀ n, j.readAt n (s.geom.wrap (i1 + 4)) = i.readAt n (s.geom.wrap (i1 + 4)) := fun _ =>
      hi.readAt (Geom.readable_wrap h1 (by omega)) _
    have hb1 : ∀ n, j.readAt n (s.geom.wrap (i1 + 5)) = i.readAt n (s.geom.wrap (i1 + 5)) := fun _ =>
      hi.readAt (Geom.readable_wrap h1 (by omega)) _
    rw [pollsSecond_second e, pollsSecond_second (s := s.setInput inp) e2]
    simp only [State.setInput_geom, State.setInput_sig, hb0, hb1]
    split
    · exact ((hboth.raise .misclass).setCur i2).finish .a .misclass
    · exact pollsFrame_same _ (pollsBoth_geom i1 i2 i s) (by rwa [pollsBoth_layout]) (by rwa [pollsBoth_hdrSize])
        h1 hi2 hboth

theorem pollsSampled_same {wr : Nat} (hok : s.hdrOk = true) (hcur : s.CursorOk) (hwr : s.geom.isRing wr = true)
    (h : SameButInput s.geom s t) : SameButInput s.geom (pollsSampled wr s) (pollsSampled wr t) := by
  obtain ⟨inp, rfl, hin⟩ := id h
  by_cases hv : s.curValid = true
  · have hwindow := (Geom.dist_lt (hcur hv) hwr).le
    obtain ⟨r, i, j, e, e2, hi⟩ := findWin_inside (hcur hv) hwindow Config.params.startCode hin
    cases r with
    | none =>
      rw [pollsSampled_noFirst hv e, pollsSampled_noFirst (s := s.setInput inp) hv e2]
      exact (h.setInput hi).finish _ _
    | some i1 =>
      rw [pollsSampled_first hv e, pollsSampled_first (s := s.setInput inp) hv e2]
      exact pollsSecond_same (s := s.setInput i) hok (findWin_isRing (hcur hv) (by decide) hwindow e) hwr
        (h.setInput hi)
  · have hv' : s.curValid = false := by simpa using hv
    rw [pollsSampled_init wr hv', pollsSampled_init (s := s.setInput inp) wr hv']
    exact (h.initCur wr).finish _ _

theorem execPolls_same (h : SameButInput s.geom s t) : SameNext s.geom (execPolls s) (execPolls t) := by
  obtain ⟨inp, rfl, hin⟩ := id h
  by_cases hok : s.hdrOk = true
  · by_cases hst : s.staleCursor = false
    · obtain ⟨r, i, j, e, e2, hi⟩ := sampleScan_inside hin
      cases r with
      | none =>
        rw [execPolls_transient hok hst e, execPolls_transient (s := s.setInput inp) hok hst e2]
        exact .next (((h.setInput hi).raise _).finish _ _)
      | some wr =>
        rw [execPolls_sampled hok hst e, execPolls_sampled (s := s.setInput inp) hok hst e2]
        have hwr := Geom.isRing_of_sample ((sampleScan_spec s.geom s.input).2 wr (congrArg Prod.fst e))
        exact .next (pollsSampled_same (s := s.setInput i) hok (s.staleCursor_eq_false_iff.1 hst) hwr (h.setInput hi))
    · have hst' : s.staleCursor = true := by simpa using hst
      rw [execPolls_stale hok hst', execPolls_stale (s := s.setInput inp) hok hst']
      exact .next (h.finish _ _)
  · have hok' : s.hdrOk = false := by simpa using hok
    rw [execPolls_errCfg hok', execPolls_errCfg (s := s.setInput inp) hok']
    exact .errCfg h

/-! ### POLLC (R160) -/

theorem deliverBatch_same {tab : List (Nat × Hdr)} {hs : Nat} (hspan : hs + 6 < g.span)
    (htab : ∀ e ∈ tab, g.isRing e.1 = true ∧ hs + e.2.length.toNat < g.span) (hg : s.geom = g)
    (hsize : s.hdrSize.toNat = hs) (h : SameButInput g s t) :
    SameAnswer g (deliverBatch tab s) (deliverBatch tab t) := by
  induction tab generalizing s t with
  | nil => exact ⟨rfl, h⟩
  | cons f fs ih =>
    cases fs with
    | nil => exact ⟨rfl, h⟩
    | cons f2 fs =>
      obtain ⟨p, hd⟩ := f
      obtain ⟨hp, hend⟩ := htab (p, hd) List.mem_cons_self
      have hlen : hd.length.toNat ≤ g.span := (le_add_self.trans_lt hend).le
      have hsize2 : t.hdrSize = s.hdrSize := by obtain ⟨_, rfl, -⟩ := h; rfl
      have hpay : g.isRing (g.move p hs) = true := Geom.move_isRing hp (by omega) (by omega)
      have hframe := BatchFrame.deliver .chain hd (g.move p hs) (decide (hd.streamType &&& Config.params.tSps ≠ 0)) s
      obtain ⟨c, u, u2, e, e2, hu⟩ := (deliver_same hg (by omega) hpay hlen .chain
        (decide (hd.streamType &&& Config.params.tSps ≠ 0)) h).run
      rw [e] at hframe
      obtain ⟨_, _, -, q⟩ := (hframe.trans (.gap u)).eq
      obtain ⟨cs, w, w2, e', e2', hw⟩ := (ih (fun x hx => htab x (List.mem_cons_of_mem _ hx))
        ((congrArg (·.geom) q).trans hg) ((congrArg (·.hdrSize.toNat) q).trans hsize)
        (hu.map consumerGap_ignoresInput)).run
      simp only [deliverBatch, h.geom, hg, hsize2, hsize, e, e2, e', e2']
      exact ⟨rfl, hw⟩

theorem pollcDone_same {tab : List (Nat × Hdr)} (hok : s.hdrOk = true)
    (htab : ∀ e ∈ tab, s.geom.isRing e.1 = true ∧ s.hdrSize.toNat + e.2.length.toNat < s.geom.span)
    (h : SameButInput s.geom s t) : SameButInput s.geom (pollcDone tab s) (pollcDone tab t) := by
  have hcur : t.cur = s.cur := by obtain ⟨_, rfl, -⟩ := h; rfl
  obtain ⟨out, u, u2, e, e2, hu⟩ := (deliverBatch_same (State.hdrOk_fits hok).2 htab rfl rfl h).run
  rw [pollcDone_eq e, pollcDone_eq e2, hcur]
  exact ((hu.setCur _).setResults5 _ _ _ _ _).finish _ _

theorem pollcSampled_same {stop : Nat} (hok : s.hdrOk = true) (hcur : s.CursorOk) (hstop : s.geom.isRing stop = true)
    (h : SameButInput s.geom s t) : SameButInput s.geom (pollcSampled stop s) (pollcSampled stop t) := by
  obtain ⟨inp, rfl, hin⟩ := id h
  by_cases hv : s.curValid = true
  · by_cases he : stop = s.cur.toNat
    · subst he
      rw [pollcSampled_empty hv]
      exact (pollcSampled_empty (s := s.setInput inp) hv) ▸ h.finish _ _
    · obtain ⟨w, i, j, e, e2, hi⟩ := walk_inside (hs := s.hdrSize.toNat) (left := 10) (State.hdrOk_fits hok).1 hstop
        (hcur hv) [] hin
      cases w with
      | sync n =>
        rw [pollcSampled_sync hv he e, pollcSampled_sync (s := s.setInput inp) hv he e2]
        exact ((((h.setInput hi).raise _).setCur _).setResults5 _ _ _ _ _).finish _ _
      | done tab =>
        rw [pollcSampled_done hv he e, pollcSampled_done (s := s.setInput inp) hv he e2]
        exact pollcDone_same (s := s.setInput i) hok (fun x hx => ⟨walk_isRing hstop (hcur hv) (by simp) e x hx,
          walk_length_lt hstop (hcur hv) (by simp) e x hx⟩) (h.setInput hi)
  · have hv' : s.curValid = false := by simpa using hv
    rw [pollcSampled_init stop hv', pollcSampled_init (s := s.setInput inp) stop hv']
    exact (h.initCur stop).finish _ _

theorem execPollc_same (h : SameButInput s.geom s t) : SameNext s.geom (execPollc s) (execPollc t) := by
  obtain ⟨inp, rfl, hin⟩ := id h
  by_cases hok : s.hdrOk = true
  · by_cases hst : s.staleCursor = false
    · obtain ⟨r, i, j, e, e2, hi⟩ := sampleChain_inside hin
      cases r with
      | none =>
        rw [execPollc_transient hok hst e, execPollc_transient (s := s.setInput inp) hok hst e2]
        exact .next (((h.setInput hi).raise _).finish _ _)
      | some stop =>
        rw [execPollc_sampled hok hst e, execPollc_sampled (s := s.setInput inp) hok hst e2]
        have hstop := Geom.isRing_of_sample ((sampleChain_spec s.geom s.input).2 stop (congrArg Prod.fst e))
        exact .next (pollcSampled_same (s := s.setInput i) hok (s.staleCursor_eq_false_iff.1 hst) hstop (h.setInput hi))
    · have hst' : s.staleCursor = true := by simpa using hst
      rw [execPollc_stale hok hst', execPollc_stale (s := s.setInput inp) hok hst']
      exact .next (h.finish _ _)
  · have hok' : s.hdrOk = false := by simpa using hok
    rw [execPollc_errCfg hok', execPollc_errCfg (s := s.setInput inp) hok']
    exact .errCfg h

/-! ### Every operation -/

theorem exec_same (i : Instr) (h : SameButInput s.geom s t) : SameNext s.geom (exec i s) (exec i t) := by
  cases i with
  | move => exact execMove_same h
  | find => exact execFind_same h
  | cmp => exact execCmp_same h
  | copy => exact execCopy_same h
  | hdec => exact execHdec_same h
  | route => exact execRoute_same h
  | seqw st => exact execSeqw_same st h
  | seql st => exact execSeql_same st h
  | polls => exact execPolls_same h
  | pollc => exact execPollc_same h
  | emit st => exact execEmit_same st h
  | push o => exact execPush_same o h
  | pop p o => exact execPop_same p o h
  | srst => exact execSrst_same h

/-- Settles O51: `exec_same` from two states with one schedule whose memories agree where the block may read. -/
theorem readsStayInsideTheReadableBytes : Obligations.ReadsStayInsideTheReadableBytes := by
  intro i s t t2 m2 hm ht ht2
  have hin : s.input.Agrees s.geom { s.input with mem := m2 } := ⟨rfl, hm⟩
  obtain ⟨u, u2, hu, hu2, inp, rfl, hout⟩ := exec_same i (SameButInput.of_agrees hin)
  cases ht.symm.trans hu
  cases ht2.symm.trans hu2
  exact ⟨rfl, hout.pending, hout.mem⟩

end Sys2Proof.Machine
end

section
/-! The command word and the packing of outcomes: which fields an encoding has, when the decoder answers an operation
and when a word is illegal (spec/30_encoding.md R78, R80, R82), and the nibbles of a list of outcomes (R85). -/

namespace Sys2Proof

/-! ### The stream field (R78) -/

theorem streamOfNat_eq_some {n : Nat} {o : StreamId} : streamOfNat n = some o ↔ natOfStream o = n := by
  constructor
  · intro h
    unfold streamOfNat at h
    split at h <;> cases h <;> rfl
  · rintro rfl
    exact Machine.streamOfNat_natOfStream o

theorem streamOfNat_eq_none {n : Nat} : streamOfNat n = none ↔ 3 ≤ n := by
  match n with
  | 0 | 1 | 2 => simp [streamOfNat]
  | n + 3 => simp [streamOfNat]

theorem plainOp_eq_ok {strm : Nat} {i j : Instr} : plainOp strm i = .ok j ↔ strm = 0 ∧ i = j := by
  unfold plainOp
  split <;> simp [*]

theorem streamOp_eq_ok {strm : Nat} {mk : StreamId → Instr} {j : Instr} :
    streamOp strm mk = .ok j ↔ ∃ o, natOfStream o = strm ∧ mk o = j := by
  simp only [← streamOfNat_eq_some, streamOp]
  cases streamOfNat strm <;> simp

theorem exists_plainOp_eq_ok {strm : Nat} {i : Instr} : (∃ j, plainOp strm i = .ok j) ↔ strm = 0 := by
  simp [plainOp_eq_ok]

theorem exists_streamOp_eq_ok {strm : Nat} {mk : StreamId → Instr} :
    (∃ j, streamOp strm mk = .ok j) ↔ strm < 3 := by
  rw [← not_le, ← streamOfNat_eq_none, streamOp]
  cases streamOfNat strm <;> simp

/-! ### The fields of an encoding (R78) -/

theorem opcodeOf_lt (i : Instr) : opcodeOf i < 256 := by
  cases i <;> simp [opcodeOf]

theorem streamNumber_lt (i : Instr) : streamNumber i < 3 := by
  cases i with
  | seqw o | seql o | emit o | push o | pop _ o => exact Machine.natOfStream_lt o
  | move | find | cmp | copy | hdec | route | polls | pollc | srst => decide

theorem encode_eq_iff {i : Instr} {w : Word} :
    encode i = w ↔ zeroField w = 0 ∧ opcodeOf i = opcodeField w ∧ streamNumber i = streamField w := by
  have hop := opcodeOf_lt i
  have hst := streamNumber_lt i
  rw [← BitVec.toNat_inj, encode, BitVec.toNat_ofNat]
  unfold zeroField opcodeField streamField
  omega

/-! ### The opcode map (R80) -/

/-- A POP names the port it was issued on. -/
def Instr.IssuedOn (p : Port) (i : Instr) : Prop := ∀ q o, i = .pop q o → q = p

theorem decodeOpcode_eq_ok {p : Port} {opc strm : Nat} {i : Instr} :
    decodeOpcode p opc strm = .ok i ↔ opcodeOf i = opc ∧ streamNumber i = strm ∧ i.IssuedOn p := by
  constructor
  · intro h
    unfold decodeOpcode at h
    split at h
    case h_1 | h_2 | h_3 | h_4 | h_5 | h_6 | h_9 | h_10 | h_14 =>
      obtain ⟨rfl, rfl⟩ := plainOp_eq_ok.1 h
      exact ⟨rfl, rfl, by simp [Instr.IssuedOn]⟩
    case h_7 | h_8 | h_11 | h_12 | h_13 =>
      obtain ⟨o, rfl, rfl⟩ := streamOp_eq_ok.1 h
      exact ⟨rfl, rfl, by simp [Instr.IssuedOn]⟩
    case h_15 => cases h
  · rintro ⟨rfl, rfl, hp⟩
    cases i with
    | pop q o => exact hp q o rfl ▸ streamOp_eq_ok.2 ⟨o, rfl, rfl⟩
    | seqw o | seql o | emit o | push o => exact streamOp_eq_ok.2 ⟨o, rfl, rfl⟩
    | move | find | cmp | copy | hdec | route | polls | pollc | srst => rfl

/-- Port B takes only a POP, and the port of a POP is its own (R80, R82). -/
theorem Instr.wellFormed_iff {p : Port} {i : Instr} :
    i.wellFormed p = true ↔ (p = .b → opcodeOf i = 0x21) ∧ i.IssuedOn p := by
  rw [wellFormed, decide_eq_true_eq]
  cases i with
  | pop q o => simp [port, opcodeOf, IssuedOn]
  | move | find | cmp | copy | hdec | route | seqw | seql | polls | pollc | emit | push | srst =>
    cases p <;> simp [port, opcodeOf, IssuedOn]

/-! ### Decoding a word (R82) -/

theorem decode_eq_ok {p : Port} {w : Word} {i : Instr} : decode p w = .ok i ↔
    zeroField w = 0 ∧ (p = .b → opcodeField w = 0x21) ∧ decodeOpcode p (opcodeField w) (streamField w) = .ok i := by
  unfold decode
  split
  · simp [*]
  · split <;> simp_all

/-- Settles O2: the decoder's fields of a word are those of the operation's encoding. -/
theorem decodeAndEncodeAgree : Obligations.DecodeAndEncodeAgree := by
  intro p w i
  rw [decode_eq_ok, decodeOpcode_eq_ok, encode_eq_iff, Instr.wellFormed_iff]
  constructor
  · rintro ⟨hz, hb, hop, hst, hp⟩
    exact ⟨⟨fun h => hop.trans (hb h), hp⟩, hz, hop, hst⟩
  · rintro ⟨⟨hb, hp⟩, hz, hop, hst⟩
    exact ⟨hz, fun h => hop.symm.trans (hb h), hop, hst, hp⟩

/-- Settles O1, by the round trip of `decodeAndEncodeAgree` at the operation's own port and word. -/
theorem decodeOfEncodeIsTheOperation : Obligations.DecodeOfEncodeIsTheOperation := fun i =>
  (decodeAndEncodeAgree i.port (encode i) i).2 ⟨decide_eq_true rfl, rfl⟩

/-- Settles O4: each word is the encoding of its operation. -/
theorem sampleWordsDecode : Obligations.SampleWordsDecode :=
  ⟨decodeOfEncodeIsTheOperation .move, decodeOfEncodeIsTheOperation .hdec,
    decodeOfEncodeIsTheOperation (.seqw .high), decodeOfEncodeIsTheOperation .pollc,
    decodeOfEncodeIsTheOperation (.emit .aud), decodeOfEncodeIsTheOperation (.pop .b .high),
    decodeOfEncodeIsTheOperation .srst⟩

/-! ### The words that decode (R82) -/

/-- The opcodes of the operations without `STRM`. -/
def plainOpcodes : List Byte := [0x01, 0x02, 0x03, 0x04, 0x08, 0x10, 0x13, 0x14, 0x3F]

/-- The opcodes of the operations with `STRM`. -/
def streamOpcodes : List Byte := [0x11, 0x12, 0x18, 0x20, 0x21]

theorem exists_decodeOpcode {p : Port} {opc : Byte} {strm : Nat} :
    (∃ i, decodeOpcode p opc.toNat strm = .ok i) ↔
      opc ∈ plainOpcodes ∧ strm = 0 ∨ opc ∈ streamOpcodes ∧ strm < 3 := by
  simp only [plainOpcodes, streamOpcodes, List.mem_cons, List.not_mem_nil, or_false, ← BitVec.toNat_inj]
  unfold decodeOpcode
  split
  case h_1 | h_2 | h_3 | h_4 | h_5 | h_6 | h_9 | h_10 | h_14 => simp [exists_plainOp_eq_ok, *]
  case h_7 | h_8 | h_11 | h_12 | h_13 => simp [exists_streamOp_eq_ok, *]
  case h_15 => simp_all

theorem opcodeField_eq (w : Word) : opcodeField w = (w.extractLsb' 0 8).toNat := by
  simp [opcodeField, BitVec.extractLsb'_toNat]

theorem streamField_eq (w : Word) : streamField w = (w.extractLsb' 8 2).toNat := by
  simp [streamField, BitVec.extractLsb'_toNat, Nat.shiftRight_eq_div_pow]

theorem zeroField_eq (w : Word) : zeroField w = (w.extractLsb' 10 22).toNat := by
  rw [zeroField, BitVec.extractLsb'_toNat, Nat.shiftRight_eq_div_pow]
  have := w.isLt
  omega

theorem exists_decode {p : Port} {w : Word} : (∃ i, decode p w = .ok i) ↔
    w.extractLsb' 10 22 = 0 ∧ (p = .b → w.extractLsb' 0 8 = 0x21) ∧
      (w.extractLsb' 0 8 ∈ plainOpcodes ∧ w.extractLsb' 8 2 = 0 ∨
        w.extractLsb' 0 8 ∈ streamOpcodes ∧ w.extractLsb' 8 2 ≠ 3) := by
  have hstream : ∀ x : BitVec 2, x.toNat < 3 ↔ x ≠ 3 := by decide
  simp only [decode_eq_ok, exists_and_left, opcodeField_eq, streamField_eq, zeroField_eq, exists_decodeOpcode,
    hstream]
  simp only [← BitVec.toNat_inj]
  rfl

end Sys2Proof

namespace Sys2Proof.Machine

/-! ### The nibbles of a list of outcomes (R85) -/

/-- The nibble of a frame's outcome, 0 where there is no frame. -/
def outcomeNibble : Option StatusCode → Nat
  | some c => c.code.toNat % 16
  | none => 0

theorem nibbles_lt (out : List StatusCode) : nibbles out < 16 ^ out.length := by
  induction out with
  | nil => decide
  | cons c cs ih =>
    rw [nibbles, List.length_cons, pow_succ]
    omega

theorem nibbles_digit (out : List StatusCode) (i : Nat) : nibbles out / 16 ^ i % 16 = outcomeNibble out[i]? := by
  induction out generalizing i with
  | nil => simp [nibbles, outcomeNibble]
  | cons c cs ih =>
    cases i with
    | zero => simp [nibbles, outcomeNibble]
    | succ i =>
      have hdrop : nibbles (c :: cs) / 16 = nibbles cs := by rw [nibbles]; omega
      rw [pow_succ', ← Nat.div_div_eq_div_mul, hdrop, ih, List.getElem?_cons_succ]

theorem toWord_nibbles_toNat {out : List StatusCode} (h : out.length ≤ 8) : (toWord (nibbles out)).toNat = nibbles out :=
  toWord_toNat ((nibbles_lt out).trans_le (Nat.pow_le_pow_right (n := 16) (by decide) h))

theorem packLow_digit (out : List StatusCode) {i : Nat} (h : i < 8) :
    (packLow out).toNat / 16 ^ i % 16 = outcomeNibble out[i]? := by
  rw [packLow, toWord_nibbles_toNat (List.length_take_le _ _), nibbles_digit, List.getElem?_take_of_lt h]

theorem packHigh_toNat (out : List StatusCode) : (packHigh out).toNat = outcomeNibble out[8]? := by
  have htake : (out.drop 8).take 1 = out[8]?.toList := by rw [List.take_one, List.head?_drop]
  rw [packHigh, htake, toWord_nibbles_toNat (Option.length_toList_le.trans (by decide))]
  cases out[8]? <;> rfl

/-- Settles O33, by the digits of `nibbles`. -/
theorem outcomeNibbles : Obligations.OutcomeNibbles := by
  intro out _
  refine ⟨fun i hi => (packLow_digit out hi).trans ?_, (packHigh_toNat out).trans ?_⟩
  · cases out[i]? <;> rfl
  · cases out[8]? <;> rfl

/-! ### Running an illegal word (R82) -/

/-- The five clauses of R82 leave exactly the words `exists_decode` names: the opcodes of R80 are those without and
those with `STRM`, and none is both. -/
theorem illegalWord_iff {p : Port} {w : Word} : IllegalWord p w ↔ ¬ ∃ i, decode p w = .ok i := by
  have hmap : ∀ opc : Byte, opc ∈ ([0x01, 0x02, 0x03, 0x04, 0x08, 0x10, 0x11, 0x12, 0x13, 0x14, 0x18, 0x20, 0x21,
      0x3F] : List Byte) ↔ opc ∈ plainOpcodes ∨ opc ∈ streamOpcodes := by decide
  have hdisjoint : ∀ opc ∈ plainOpcodes, opc ∉ streamOpcodes := by decide
  have hopc := hdisjoint (w.extractLsb' 0 8)
  rw [exists_decode, IllegalWord, hmap, ← plainOpcodes, ← streamOpcodes]
  tauto

theorem runCommand_illegal {s : State} {p : Port} {w : Word} {e : Illegal} (h : decode p w = .error e) :
    runCommand p w s = .next (s.illegal p) := by
  rw [runCommand, runCommandWith, h]

/-- Settles O3: the clauses of R82 name the words without a decoding. -/
theorem illegalWordOnlyFlagsIllegal : Obligations.IllegalWordOnlyFlagsIllegal := by
  intro p w s
  rw [illegalWord_iff, not_not]
  constructor
  · intro hno
    cases hd : decode p w with
    | error e => rw [runCommand_illegal hd]; cases p <;> rfl
    | ok i => exact absurd ⟨i, hd⟩ hno
  · rintro ⟨i, hd⟩
    exact ⟨i, hd, runCommand_legal hd⟩

end Sys2Proof.Machine
end

section
/-! Ring addresses by their residue: `wrap`, `dist` and `move` give the value of R100 to R104 modulo the span, and a
ring address is the only one of its residue (spec/41_ring_locator.md). -/

namespace Sys2Proof.Machine

variable {g : Geom} {a b : Nat} {d : Int}

/-! ### One ring address per residue -/

/-- The ring address congruent to `x` is at `x`'s offset modulo the span. -/
theorem Geom.isRing_eq_of_modEq (hb : g.isRing b = true) {x : Int} (h : (b : Int) ≡ x [ZMOD g.span]) :
    (b : Int) = g.off + (x - g.off) % g.span := by
  obtain ⟨hlo, hhi⟩ := (Geom.isRing_iff g b).1 hb
  have hoff : ((b : Int) - g.off) % g.span = (b : Int) - g.off :=
    Int.emod_eq_of_lt (by omega) (by simp only [Geom.span]; omega)
  have hres : ((b : Int) - g.off) % g.span = (x - g.off) % g.span := h.sub_right _
  omega

theorem Geom.isRing_unique (ha : g.isRing a = true) (hb : g.isRing b = true) (h : (a : Int) ≡ b [ZMOD g.span]) :
    a = b := by
  have := isRing_eq_of_modEq ha h
  have := isRing_eq_of_modEq hb (Int.ModEq.refl b)
  omega

/-- A number below the span is the residue of whatever it is congruent to. -/
theorem Geom.lt_span_eq_emod {n : Nat} (hn : n < g.span) {x : Int} (h : (n : Int) ≡ x [ZMOD g.span]) :
    (n : Int) = x % g.span :=
  (Int.emod_eq_of_lt (Int.natCast_nonneg n) (Int.ofNat_lt.2 hn)).symm.trans h

/-! ### The residues of `wrap`, `dist` and `move` -/

theorem Geom.wrap_modEq (hg : g.ok = true) (x : Nat) : (g.wrap x : Int) ≡ x [ZMOD g.span] := by
  obtain ⟨-, hlt, -, -⟩ := (Geom.ok_iff g).1 hg
  unfold Geom.wrap
  split
  · rfl
  · rw [Nat.cast_sub (by simp only [Geom.span]; omega)]
    exact Int.sub_modulus_modEq_iff.2 rfl

theorem Geom.dist_modEq (ha : g.isRing a = true) (hb : g.isRing b = true) :
    (g.dist a b : Int) ≡ b - a [ZMOD g.span] := by
  rw [Geom.isRing_iff] at ha hb
  unfold Geom.dist
  split
  · rw [Nat.cast_sub ‹_›]
  · rw [Nat.cast_sub (by simp only [Geom.span]; omega), Nat.cast_add, add_sub_right_comm]
    exact Int.add_modulus_modEq_iff.2 rfl

theorem Geom.move_modEq (ha : g.isRing a = true) (h1 : -(g.span : Int) < d) (h2 : d < g.span) :
    (g.move a d : Int) ≡ a + d [ZMOD g.span] := by
  rw [Geom.isRing_iff] at ha
  simp only [Geom.move]
  split
  · rw [Int.toNat_of_nonneg (by simp only [Geom.span] at *; omega)]
    exact Int.sub_modulus_modEq_iff.2 rfl
  split
  · rw [Int.toNat_of_nonneg (by simp only [Geom.span] at *; omega)]
    exact Int.add_modulus_modEq_iff.2 rfl
  · rw [Int.toNat_of_nonneg (by omega)]

/-! ### The laws of R102 and R104 -/

theorem Geom.wrap_eq {x : Nat} (hg : g.ok = true) (h1 : g.off ≤ x) (h2 : x < g.size + g.span) :
    g.wrap x = g.off + (x - g.off) % g.span := by
  have h := isRing_eq_of_modEq (wrap_isRing h1 h2) (wrap_modEq hg x)
  rw [← Nat.cast_sub h1] at h
  exact_mod_cast h

theorem Geom.wrap_add_dist (hg : g.ok = true) (ha : g.isRing a = true) (hb : g.isRing b = true) :
    g.wrap (a + g.dist a b) = b := by
  have hlt := dist_lt ha hb
  obtain ⟨hlo, hhi⟩ := (Geom.isRing_iff g a).1 ha
  refine isRing_unique (wrap_isRing (by omega) (by omega)) hb ((wrap_modEq hg _).trans ?_)
  rw [Nat.cast_add]
  simpa using (dist_modEq ha hb).add_left a

theorem Geom.move_eq (ha : g.isRing a = true) (h1 : -(g.span : Int) < d) (h2 : d < g.span) :
    (g.move a d : Int) = g.off + (((a : Int) - g.off + d) % g.span) := by
  rw [isRing_eq_of_modEq (move_isRing ha h1 h2) (move_modEq ha h1 h2), add_sub_right_comm]

/-- Two moves by less than the span add up: both sides are the ring address congruent to the sum. -/
theorem Geom.move_move {d1 d2 : Int} (ha : g.isRing a = true) (h1 : -(g.span : Int) < d1 ∧ d1 < g.span)
    (h2 : -(g.span : Int) < d2 ∧ d2 < g.span) (h : -(g.span : Int) < d1 + d2 ∧ d1 + d2 < g.span) :
    g.move (g.move a d1) d2 = g.move a (d1 + d2) := by
  have hr := move_isRing ha h1.1 h1.2
  refine isRing_unique (move_isRing hr h2.1 h2.2) (move_isRing ha h.1 h.2) ?_
  calc (g.move (g.move a d1) d2 : Int)
      ≡ g.move a d1 + d2 [ZMOD g.span] := move_modEq hr h2.1 h2.2
    _ ≡ a + d1 + d2 [ZMOD g.span] := (move_modEq ha h1.1 h1.2).add_right d2
    _ = a + (d1 + d2) := add_assoc ..
    _ ≡ g.move a (d1 + d2) [ZMOD g.span] := (move_modEq ha h.1 h.2).symm

theorem Geom.move_zero (ha : g.isRing a = true) : g.move a 0 = a := by
  rw [Geom.isRing_iff] at ha
  simp only [Geom.move]
  rw [if_neg (by omega), if_neg (by omega)]
  simp

/-- A forward move by less than the span goes that forward distance. -/
theorem Geom.dist_move {n : Nat} (ha : g.isRing a = true) (hn : n < g.span) : g.dist a (g.move a n) = n := by
  have hr := move_isRing (d := n) ha (by omega) (by omega)
  have hd := lt_span_eq_emod (dist_lt ha hr) (dist_modEq ha hr)
  have hm : (n : Int) ≡ g.move a n - a [ZMOD g.span] := by
    simpa using ((move_modEq (d := n) ha (by omega) (by omega)).symm.sub_right a)
  exact_mod_cast hd.trans (lt_span_eq_emod hn hm).symm

/-- Settles O6. -/
theorem wrapAndDistanceLaws : Obligations.WrapAndDistanceLaws := by
  intro g hg
  refine ⟨fun x h1 h2 => ⟨Geom.wrap_isRing h1 h2, Geom.wrap_eq hg h1 h2⟩, fun a b ha hb => ?_⟩
  have hlt := Geom.dist_lt ha hb
  exact ⟨Geom.lt_span_eq_emod hlt (Geom.dist_modEq ha hb), hlt, by simp [Geom.dist], Geom.wrap_add_dist hg ha hb⟩

/-- Settles O7. -/
theorem moveLaws : Obligations.MoveLaws := by
  intro g hg a ha d h1 h2
  refine ⟨Geom.move_isRing ha h1 h2, Geom.move_eq ha h1 h2, ?_, fun h0 => ?_, ?_⟩
  · rw [Geom.move_move ha ⟨h1, h2⟩ (by omega) (by omega), add_neg_cancel, Geom.move_zero ha]
  · lift d to Nat using h0
    exact ⟨Geom.move_forward ha, Geom.dist_move ha (Int.ofNat_lt.1 h2)⟩
  · rintro d1 d2 rfl h3 h4 h5 h6
    exact (Geom.move_move ha ⟨h3, h4⟩ ⟨h5, h6⟩ ⟨h1, h2⟩).symm

end Sys2Proof.Machine
end

section
/-! MOVE, FIND, CMP and COPY on operands in their domain, and what a search and a comparison report, read by read
(spec/41_ring_locator.md R103 to R109). -/

namespace Sys2Proof.Machine

variable {s : State}

/-! ### Dispatch and refusals -/

theorem exec_move (s : State) : exec .move s = execMove s := rfl
theorem exec_find (s : State) : exec .find s = execFind s := rfl
theorem exec_cmp (s : State) : exec .cmp s = execCmp s := rfl
theorem exec_copy (s : State) : exec .copy s = execCopy s := rfl

theorem State.errCfg_eq (s : State) : s.errCfg = { s with event := s.event ||| 0x400, status := 0x11 } := rfl

theorem State.errRange_eq (s : State) : s.errRange = { s with event := s.event ||| 0x200, status := 0x10 } := rfl

/-- The bytes of `PAT` or `LBUF` an operation uses. -/
theorem take_toList_getElem? {n m j : Nat} (v : Vector Byte n) (hj : j < m) : (v.toList.take m)[j]? = v[j]? := by
  rw [List.getElem?_take_of_lt hj, Vector.getElem?_toList]

/-! ### MOVE (R103) -/

theorem toWord_eq_ofInt (n : Nat) : toWord n = BitVec.ofInt 32 n := (BitVec.ofInt_natCast 32 n).symm

theorem execMove_errCfg (hg : s.geomOk = false) : execMove s = .next s.errCfg := if_pos hg

theorem execMove_errRange (hg : s.geomOk = true)
    (h : ¬(s.geom.isRing (s.argNat 0) = true ∧ -(s.geom.span : Int) < s.argInt 1 ∧ s.argInt 1 < s.geom.span)) :
    execMove s = .next s.errRange := by
  simp only [execMove]
  rw [if_neg (by simp [hg]), if_pos h]

theorem execMove_ok (hg : s.geomOk = true) (ha : s.geom.isRing (s.argNat 0) = true)
    (h1 : -(s.geom.span : Int) < s.argInt 1) (h2 : s.argInt 1 < s.geom.span) :
    execMove s = .next { s with res := s.res.set 0 (toWord (s.geom.move (s.argNat 0) (s.argInt 1))), status := 0 } := by
  simp only [execMove]
  rw [if_neg (by simp [hg]), if_neg (not_not.2 ⟨ha, h1, h2⟩)]
  rfl

/-- Settles O8: the three cases are the branches of `execMove`. -/
theorem moveResult : Obligations.MoveResult := by
  intro s off span a d
  have hring : s.geom.isRing (s.argNat 0) = true ↔ off ≤ a ∧ a < s.bufSize.toNat := by
    rw [State.isRing_iff, Int.ofNat_le, Int.ofNat_lt]
    rfl
  rw [exec_move]
  refine ⟨fun hg => ?_, fun hg hdom => ?_, fun hg hlo hhi h1 h2 => ?_⟩
  · rw [execMove_errCfg hg, State.errCfg_eq]
  · rw [execMove_errRange hg (by rw [hring, and_assoc]; exact hdom), State.errRange_eq]
  · have ha := hring.2 ⟨hlo, hhi⟩
    have hmove : (s.geom.move (s.argNat 0) (s.argInt 1) : Int) = off + (a - off + d) % span := Geom.move_eq ha h1 h2
    rw [execMove_ok hg ha h1 h2, toWord_eq_ofInt, hmove]

/-! ### FIND (R105) -/

/-- The operands of a FIND that searches a window of `window` bytes for the first `m` bytes of `PAT` (R105). -/
structure FindDomain (s : State) (m window : Nat) : Prop where
  geomOk : s.geomOk = true
  src : s.geom.isRing s.arg[0].toNat = true
  above : -(s.geom.span : Int) < s.arg[1].toInt
  below : s.arg[1].toInt < s.geom.span
  count : m = s.arg[2].toNat
  pos : 1 ≤ m
  le : m ≤ 16
  window : (window : Int) = if 0 ≤ s.arg[1].toInt then s.arg[1].toInt else (s.geom.span : Int) + s.arg[1].toInt

/-- How FIND finishes after its search. -/
def findAnswer (s : State) : Option Nat × InputRing → Host.Outcome State Fault Refusal
  | (none, inp) => .next { s with input := inp, status := 1 }
  | (some r, inp) => .next { s with input := inp, res := s.res.set 0 (toWord r), status := 0 }

theorem FindDomain.findLength_eq {m window : Nat} (h : FindDomain s m window) :
    findLength s.geom.span (s.argInt 1) = window := by
  rw [← Int.toNat_natCast window, h.window]
  rfl

theorem FindDomain.exec_find {m window : Nat} (h : FindDomain s m window) :
    exec .find s = findAnswer s (findWin s.geom s.arg[0].toNat window (s.pat.toList.take m) s.input) := by
  have hm : m = s.argNat 2 := h.count
  have hdom : s.geom.isRing (s.argNat 0) = true ∧
      (-(s.geom.span : Int) < s.argInt 1 ∧ s.argInt 1 < s.geom.span) ∧ 1 ≤ s.argNat 2 ∧ s.argNat 2 ≤ 16 :=
    ⟨h.src, ⟨h.above, h.below⟩, hm ▸ h.pos, hm ▸ h.le⟩
  rw [Machine.exec_find]
  simp only [execFind]
  rw [if_neg (by simp [h.geomOk]), if_neg (not_not.2 hdom), h.findLength_eq]
  subst hm
  rfl

/-- Settles O9, by what the search reports over a quiet ring. -/
theorem findReturnsTheFirstMatch : Obligations.FindReturnsTheFirstMatch := by
  rintro s hq hg hsrc _ rfl h1 h2 hm1 hm2 window hw _ rfl
  have hdom : FindDomain s _ window := ⟨hg, hsrc, h1, h2, rfl, hm1, hm2, hw⟩
  rw [hdom.exec_find]
  refine ⟨fun k hk => ?_, fun hno => ?_⟩
  · rw [findWin_first s hq _ _ _ k hk]
    rfl
  · rw [findWin_noMatch s hq _ _ _ hno]
    rfl

/-- A window shorter than the pattern has no position, any other has `window + 1 - m`. -/
theorem findWin_eq_findFrom (g : Geom) (src window : Nat) (pat : List Byte) (inp : InputRing) :
    findWin g src window pat inp = findFrom g src pat (window + 1 - pat.length) 0 inp := by
  unfold findWin
  split
  · rw [show window + 1 - pat.length = 0 by omega]
    rfl
  · rw [show window - pat.length + 1 = window + 1 - pat.length by omega]

/-- Position `k` of a search is read up to the first byte that is not the pattern's, `start k` reads coming before it
(R105, spec/20_memory.md R51). -/
def Misses (s : State) (pat : Nat → Option Byte) (m : Nat) (start : Nat → Nat) (k : Nat) : Prop :=
  let equal := fun j => pat j = some (s.input.readAt (start k + (j + 1)) (s.geom.wrap (s.arg[0].toNat + (k + j))))
  ∃ j, j < m ∧ start (k + 1) = start k + (j + 1) ∧ (∀ i, i < j → equal i) ∧ ¬ equal j

/-- Only the first `m` bytes of the pattern matter to a miss. -/
theorem Misses.congr {pat pat2 : Nat → Option Byte} {m k : Nat} {start : Nat → Nat}
    (hpat : ∀ j, j < m → pat2 j = pat j) (h : Misses s pat m start k) : Misses s pat2 m start k := by
  obtain ⟨j, hj, hstart, heq, hne⟩ := h
  exact ⟨j, hj, hstart, fun i hi => (hpat i (hi.trans hj)).trans (heq i hi),
    fun h => hne ((hpat j hj).symm.trans h)⟩

/-- Settles O10, by the trace of the search loop. -/
theorem findUnderAnyProducer : Obligations.FindUnderAnyProducer := by
  rintro s hg hsrc _ rfl h1 h2 m hm hm1 hm2 window hw
  have hdom : FindDomain s m window := ⟨hg, hsrc, h1, h2, hm, hm1, hm2, hw⟩
  have hlen : (s.pat.toList.take m).length = m := by simpa using hm2
  have hpat : ∀ j, j < m → s.pat[j]? = (s.pat.toList.take m)[j]? := fun j hj =>
    (take_toList_getElem? s.pat hj).symm
  obtain ⟨start, hstart, htrace⟩ :=
    findFrom_trace s.geom s.arg[0].toNat (s.pat.toList.take m) (window + 1 - m) 0 s.input
  simp only [hlen, zero_add] at htrace
  refine ⟨start, hstart, ?_⟩
  rw [hdom.exec_find, findWin_eq_findFrom, hlen]
  rcases htrace with ⟨hmiss, hnone⟩ | ⟨k, hk, hmiss, hequal, hsome⟩
  · refine .inl ⟨fun k hk => Misses.congr hpat (hmiss k (by omega)), ?_⟩
    rw [hnone]
    rfl
  · refine .inr ⟨k, by omega, fun i hi => Misses.congr hpat (hmiss i hi),
      fun j hj => (hpat j hj).trans (hequal j hj), ?_⟩
    rw [hsome]
    rfl

/-! ### CMP (R107) -/

theorem exec_cmp_ok (hg : s.geomOk = true) (hdom : bufferDomain s.geom (s.argNat 0) (s.argNat 2) = true)
    {o : Ordering} {inp : InputRing}
    (h : cmpBytes s.geom (s.argNat 0) (s.lbuf.toList.take (s.argNat 2)) 0 s.input = (o, inp)) :
    exec .cmp s = .next { s with input := inp, res := s.res.set 0 (orderingWord o), status := 0 } := by
  rw [exec_cmp]
  simp only [execCmp]
  rw [if_neg (by simp [hg]), if_neg (by simp [hdom]), h]
  rfl

/-- Byte `j` of the comparison was read as the local byte (R107). -/
def SameAt (g : Geom) (a : Nat) (loc : List Byte) (inp : InputRing) (j : Nat) : Prop :=
  loc[j]? = some (inp.readAt (j + 1) (g.wrap (a + j)))

section Compare

variable {g : Geom} {a : Nat} {loc : List Byte} {inp : InputRing}

theorem sameAt_iff {j : Nat} (hj : j < loc.length) :
    SameAt g a loc inp j ↔ inp.readAt (j + 1) (g.wrap (a + (0 + j))) = loc[j] := by
  rw [SameAt, List.getElem?_eq_getElem hj, Option.some.injEq, zero_add, eq_comm]

theorem cmpBytes_equal (h : ∀ j, j < loc.length → SameAt g a loc inp j) :
    cmpBytes g a loc 0 inp = (.eq, inp.advance loc.length) := by
  rcases cmpBytes_spec g a loc 0 inp with ⟨-, heq⟩ | ⟨i, hi, -, hne, -⟩
  · exact heq
  · exact absurd ((sameAt_iff hi).1 (h i hi)) hne

/-- The first difference is unique, so the one `cmpBytes_spec` reports is the given one. -/
theorem cmpBytes_differ {i : Nat} {l : Byte} (hl : loc[i]? = some l)
    (h : ∀ j, j < i → SameAt g a loc inp j) (hne : l ≠ inp.readAt (i + 1) (g.wrap (a + i))) :
    cmpBytes g a loc 0 inp =
      (if l.toNat < (inp.readAt (i + 1) (g.wrap (a + i))).toNat then .lt else .gt, inp.advance (i + 1)) := by
  obtain ⟨hi, rfl⟩ := List.getElem?_eq_some_iff.1 hl
  rcases cmpBytes_spec g a loc 0 inp with ⟨hall, -⟩ | ⟨k, hk, hall, hdiff, heq⟩
  · exact absurd (by simpa using (hall i hi).symm) hne
  · have hki : k = i := by
      rcases lt_trichotomy k i with hlt | heq | hgt
      · exact absurd ((sameAt_iff hk).1 (h k hlt)) hdiff
      · exact heq
      · exact absurd (by simpa using (hall i hgt).symm) hne
    subst hki
    simpa using heq

end Compare

/-- Settles O11, by the first difference. -/
theorem cmpFirstDifferenceDecides : Obligations.CmpFirstDifferenceDecides := by
  intro s hg ha hn hspan byteRead
  have hdom := (bufferDomain_iff s.geom s.arg[0].toNat s.arg[2].toNat).2 ⟨ha, hn, hspan⟩
  have hlen : (s.lbuf.toList.take s.arg[2].toNat).length = s.arg[2].toNat := by simpa using hn
  have hloc : ∀ j, j < s.arg[2].toNat → (s.lbuf.toList.take s.arg[2].toNat)[j]? = s.lbuf[j]? := fun j hj =>
    take_toList_getElem? s.lbuf hj
  refine ⟨fun hall => ?_, fun i l hi hall hl => ?_⟩
  · have hcmp := cmpBytes_equal (fun j hj => (hloc j (hlen ▸ hj)).trans (hall j (hlen ▸ hj)))
    rw [exec_cmp_ok hg hdom hcmp, hlen]
    rfl
  · have hl' := (hloc i hi).trans hl
    have hall' := fun j hj => (hloc j (hj.trans hi)).trans (hall j hj)
    refine ⟨fun hlt => ?_, fun hgt => ?_⟩
    · have hcmp := cmpBytes_differ hl' hall' (by rintro rfl; exact lt_irrefl _ hlt)
      rw [if_pos hlt] at hcmp
      exact exec_cmp_ok hg hdom hcmp
    · have hcmp := cmpBytes_differ hl' hall' (by rintro rfl; exact lt_irrefl _ hgt)
      rw [if_neg hgt.asymm] at hcmp
      exact exec_cmp_ok hg hdom hcmp

/-! ### COPY (R109) -/

theorem exec_copy_ok (hg : s.geomOk = true) (hdom : bufferDomain s.geom (s.argNat 0) (s.argNat 2) = true) :
    exec .copy s = .next
      { s with
        input := s.input.advance s.arg[2].toNat
        lbuf := storeBytes s.lbuf 0 (s.bytesRead s.arg[0].toNat s.arg[2].toNat)
        status := 0 } := by
  rw [exec_copy]
  simp only [execCopy, copyBytes_spec]
  rw [if_neg (by simp [hg]), if_neg (by simp [hdom])]
  rfl

theorem bytesRead_length (s : State) (a n : Nat) : (s.bytesRead a n).length = n := by
  simp [Parametric.State.bytesRead]

theorem bytesRead_getElem? (s : State) {a n j : Nat} (hj : j < n) :
    (s.bytesRead a n)[j]? = some (s.input.readAt (j + 1) (s.geom.wrap (a + j))) := by
  simp [Parametric.State.bytesRead, hj]

/-- Settles O12: the bytes stored are the bytes read. -/
theorem copyFillsTheLocalBuffer : Obligations.CopyFillsTheLocalBuffer := by
  intro s hg ha hn hspan
  refine ⟨_, exec_copy_ok hg ((bufferDomain_iff _ _ _).2 ⟨ha, hn, hspan⟩), fun j => ?_⟩
  rw [storeBytes_getElem? _ _ _ (by rw [bytesRead_length, Config.params_lbufSize, zero_add]; exact hn),
    bytesRead_length]
  by_cases hj : j < s.arg[2].toNat
  · rw [if_pos (by omega), if_pos hj]
    exact bytesRead_getElem? s hj
  · rw [if_neg (by omega), if_neg hj]

end Sys2Proof.Machine
end

section
/-! Frame headers: the layout and header checks by their bounds, little-endian fields as values and as bytes, and HDEC
on an operand in its domain (spec/10_state.md R17, spec/42_header_codec.md R121 to R123). -/

namespace Sys2Proof.Machine

/-! ### The selected layout (R121) -/

section Layout

variable {s : State}

theorem State.layoutField_eq_iff (s : State) (v : BitVec 2) : s.layoutField = v.toNat ↔ s.ctrl.extractLsb' 4 2 = v := by
  rw [Parametric.State.layoutField, field_eq_extractLsb' s.ctrl 5 4 2 rfl, BitVec.toNat_inj]

theorem State.layout_of_two (h : s.layoutField = 2) : s.layout = .padded := if_pos h

theorem State.layout_of_one (h : s.layoutField = 1) : s.layout = .compact := by
  rw [Parametric.State.layout, if_neg (by omega), if_pos h]

theorem State.layout_of_zero (h : s.layoutField = 0) :
    s.layout = if s.hdrSize = 22 then .padded else .compact := by
  have hsize : s.hdrSize.toNat = Config.params.padHdrSize ↔ s.hdrSize = 22 := BitVec.toNat_inj (y := 22)
  rw [Parametric.State.layout, if_neg (by omega), if_neg (by omega)]
  simp only [hsize]

theorem State.hdrOk_iff (s : State) : s.hdrOk = true ↔ s.geomOk = true ∧ s.layoutField ≠ 3 ∧
    s.layout.minSize ≤ s.hdrSize.toNat ∧ s.hdrSize.toNat + 6 < s.geom.span := by
  rw [Parametric.State.hdrOk, Bool.and_eq_true, decide_eq_true_eq]

/-- Settles O13, one value of `CTRL.LAYOUT` at a time. -/
theorem layoutSelection : Obligations.LayoutSelection := by
  intro s geomBounds
  have hfield := s.layoutField_eq_iff
  have hgeom : s.geomOk = true ↔ geomBounds := s.geomOk_iff
  have hthree : s.layoutField ≠ 3 ↔ s.ctrl.extractLsb' 4 2 ≠ 3 := (hfield 3).not
  refine ⟨fun h => State.layout_of_two ((hfield 2).2 h), fun h => State.layout_of_one ((hfield 1).2 h),
    fun h hsize => ?_, fun h hsize => ?_, hgeom, ?_⟩
  · rw [State.layout_of_zero ((hfield 0).2 h), if_pos hsize]
  · rw [State.layout_of_zero ((hfield 0).2 h), if_neg hsize]
  · exact s.hdrOk_iff.trans (and_congr hgeom (and_congr hthree Iff.rfl))

end Layout

/-! ### Little-endian fields (spec/00_scope.md R5) -/

theorem leBytes_two (f : Nat → Byte) : leBytes ((List.range 2).map f) = (f 0).toNat + 256 * (f 1).toNat := by
  simp [List.range_succ, leBytes]

theorem leBytes_four (f : Nat → Byte) : leBytes ((List.range 4).map f) =
    (f 0).toNat + 256 * (f 1).toNat + 65536 * (f 2).toNat + 16777216 * (f 3).toNat := by
  simp only [List.range_succ, List.range_zero, List.nil_append, List.map_cons, List.map_nil,
    List.cons_append, leBytes]
  omega

/-- A 16-bit field in a 32-bit result register keeps its value. -/
theorem half_setWidth (b0 b1 : Byte) :
    (BitVec.ofNat 16 (b0.toNat + 256 * b1.toNat)).setWidth 32 = BitVec.ofNat 32 (b0.toNat + 256 * b1.toNat) := by
  have hlt : b0.toNat + 256 * b1.toNat < 2 ^ 16 := by
    have := b0.isLt
    have := b1.isLt
    omega
  apply BitVec.eq_of_toNat_eq
  rw [BitVec.toNat_setWidth, BitVec.toNat_ofNat, BitVec.toNat_ofNat, Nat.mod_eq_of_lt hlt]

/-- The `n` bytes of a little-endian value, as `encodeHdr` writes each field (R123). -/
def leEncode (v n : Nat) : List Byte := (List.range n).map fun k => BitVec.ofNat 8 (v / 256 ^ k)

@[simp] theorem leEncode_length (v n : Nat) : (leEncode v n).length = n := by simp [leEncode]

theorem leEncode_succ (v n : Nat) : leEncode v (n + 1) = BitVec.ofNat 8 v :: leEncode (v / 256) n := by
  simp [leEncode, List.range_succ_eq_map, Function.comp_def, pow_succ', Nat.div_div_eq_div_mul]

theorem leBytes_leEncode (v n : Nat) : leBytes (leEncode v n) = v % 256 ^ n := by
  induction n generalizing v with
  | zero => simp [leEncode, leBytes, Nat.mod_one]
  | succ n ih => rw [leEncode_succ, leBytes, ih, BitVec.toNat_ofNat, pow_succ' 256 n, Nat.mod_mul]

/-! ### A header in the ring (R71, R72, R123) -/

section Ring

variable {s : State} {a : Nat}

theorem State.holds_append {xs ys : List Byte} :
    s.holds a (xs ++ ys) ↔ s.holds a xs ∧ s.holds (a + xs.length) ys := by
  constructor
  · intro h
    refine ⟨fun k hk => ?_, fun k hk => ?_⟩
    · rw [h k (by rw [List.length_append]; omega), List.getElem_append_left hk]
    · have := h (xs.length + k) (by simp [hk])
      rw [List.getElem_append_right (by omega)] at this
      simpa [Parametric.State.ringByte, Nat.add_assoc] using this
  · rintro ⟨hx, hy⟩ k hk
    rw [List.getElem_append]
    split
    · exact hx k _
    · have := hy (k - xs.length) (by rw [List.length_append] at hk; omega)
      rwa [Parametric.State.ringByte, show a + xs.length + (k - xs.length) = a + k by omega] at this

/-- A field of `n` bytes that stands in the ring, read back. -/
theorem State.fieldNow_of_holds {o n b : Nat} {v : BitVec b} (hb : 2 ^ b = 256 ^ n)
    (h : s.holds (a + o) (leEncode v.toNat n)) : BitVec.ofNat b (s.fieldNow a o n) = v := by
  have hbytes : (List.range n).map (fun k => s.ringByte a (o + k)) = leEncode v.toNat n := by
    refine List.ext_getElem (by simp) fun k _ hk => ?_
    rw [← h k hk, List.getElem_map, List.getElem_range, Parametric.State.ringByte, Parametric.State.ringByte,
      Nat.add_assoc]
  rw [Parametric.State.fieldNow, hbytes, leBytes_leEncode, ← hb, Nat.mod_eq_of_lt v.isLt, BitVec.ofNat_toNat,
    BitVec.setWidth_eq]

/-- Both layouts at once: a gap before `capture_time`, then the rest of `HDR_SIZE` after `stream_counter`. -/
theorem encodeHdr_eq (l : Layout) (hd : Hdr) (hdrSize : Nat) :
    encodeHdr l hd hdrSize =
      leEncode hd.length.toNat 4 ++ leEncode hd.sequenceCounter.toNat 4 ++ List.replicate (l.timeOff - 8) 0 ++
        leEncode hd.captureTime.toNat 4 ++ leEncode hd.streamType.toNat 2 ++ leEncode hd.streamCounter.toNat 2 ++
        List.replicate (hdrSize - (l.counterOff + 2)) 0 := by
  cases l <;> rfl

theorem Layout.offsets_eq (l : Layout) :
    8 + (l.timeOff - 8) = l.timeOff ∧ l.timeOff + 4 = l.typeOff ∧ l.typeOff + 2 = l.counterOff := by
  cases l <;> decide

/-- The decoder finds each field where the encoder put it. -/
theorem State.headerNow_of_holds {hd : Hdr} {hdrSize : Nat} (h : s.holds a (encodeHdr s.layout hd hdrSize)) :
    s.headerNow a = hd := by
  obtain ⟨htime, htype, hcounter⟩ := s.layout.offsets_eq
  simp only [encodeHdr_eq, State.holds_append, List.length_append, leEncode_length, List.length_replicate,
    Nat.reduceAdd, htime, htype, hcounter] at h
  obtain ⟨⟨⟨⟨⟨⟨hlen, hseq⟩, -⟩, htimeBytes⟩, htypeBytes⟩, hcounterBytes⟩, -⟩ := h
  rw [Parametric.State.headerNow, State.fieldNow_of_holds (o := 0) rfl hlen, State.fieldNow_of_holds rfl hseq,
    State.fieldNow_of_holds rfl htimeBytes, State.fieldNow_of_holds rfl htypeBytes,
    State.fieldNow_of_holds rfl hcounterBytes]

end Ring

/-! ### HDEC (R122) -/

theorem exec_hdec (s : State) : exec .hdec s = execHdec s := rfl

/-- HDEC on an operand in its domain reports the header `decodeHdr` answers. -/
theorem exec_hdec_ok {s : State} (hok : s.hdrOk = true) (ha : s.geom.isRing s.arg[0].toNat = true) {hd : Hdr}
    {inp : InputRing} (h : decodeHdr s.geom s.layout s.arg[0].toNat s.input = (hd, inp)) :
    exec .hdec s = .next
      { s with
        input := inp
        res := #v[hd.length, hd.sequenceCounter, hd.captureTime, hd.streamType.setWidth 32,
          hd.streamCounter.setWidth 32]
        status := 0 } := by
  have hring : s.geom.isRing (s.argNat 0) = true := ha
  have hdec : decodeHdr s.geom s.layout (s.argNat 0) s.input = (hd, inp) := h
  rw [exec_hdec]
  simp only [execHdec]
  rw [if_neg (by simp [hok]), if_neg (by simp [hring]), hdec]
  rfl

/-- Settles O14: the 16 reads of `decodeHdr_spec`, at the offsets of each layout. -/
theorem hdecDecodesTheFields : Obligations.HdecDecodesTheFields := by
  intro s hok ha byte u32 u16
  have hexec := exec_hdec_ok hok ha (decodeHdr_spec _ _ _ _)
  simp only [leBytes_two, leBytes_four, half_setWidth] at hexec
  constructor <;> (intro hl; rw [hl] at hexec; exact hexec)

/-- Settles O15: over a quiet ring HDEC reports the header as `IMEM` stands, which is the one encoded there. -/
theorem headerRoundTrip : Obligations.HeaderRoundTrip := by
  intro s hd hq hok ha hholds
  have hdec := decodeHdr_quiet s hq s.arg[0].toNat
  rw [State.headerNow_of_holds hholds] at hdec
  exact exec_hdec_ok hok ha hdec

end Sys2Proof.Machine
end

section
/-! Classification and sequence tracking: ROUTE, SEQW, SEQL, the choice of the policy and the signature lookup
(spec/43_demux.md R130 to R140, R152). -/

namespace Sys2Proof.Machine

/-! ### Dispatch and operands -/

theorem exec_route (s : State) : exec .route s = execRoute s := rfl
theorem exec_seqw (st : StreamId) (s : State) : exec (.seqw st) s = execSeqw st s := rfl
theorem exec_seql (st : StreamId) (s : State) : exec (.seql st) s = execSeql st s := rfl

theorem State.argHalf_eq (s : State) (i : Fin 4) : s.argHalf i = s.arg[i].setWidth 16 := by
  apply BitVec.eq_of_toNat_eq
  rw [Parametric.State.argHalf, BitVec.toNat_ofNat, BitVec.toNat_setWidth, Nat.mod_mod]

/-! ### The bits of a `stream_type` (R130, R131) -/

/-- A mask of one bit tests that bit. -/
theorem and_twoPow_ne_zero_iff {w : Nat} (t : BitVec w) {i : Nat} (hi : i < w) :
    t &&& BitVec.twoPow w i ≠ 0 ↔ t.getLsbD i = true := by
  rw [BitVec.and_twoPow]
  cases t.getLsbD i
  · simp
  · have hne : BitVec.twoPow w i ≠ 0 := fun h => by
      have := congrArg (·.getLsbD i) h
      simp [hi] at this
    simpa using hne

/-- The stream of the first route bit that is set, in the order LOW, HIGH, AUD. -/
theorem route_eq (t : Half) : route t =
    if t.getLsbD 11 then some .low else if t.getLsbD 10 then some .high else if t.getLsbD 8 then some .aud else none := by
  have hlow : t &&& Config.params.routeLow ≠ 0 ↔ _ := and_twoPow_ne_zero_iff t (i := 11) (by decide)
  have hhigh : t &&& Config.params.routeHigh ≠ 0 ↔ _ := and_twoPow_ne_zero_iff t (i := 10) (by decide)
  have haud : t &&& Config.params.routeAud ≠ 0 ↔ _ := and_twoPow_ne_zero_iff t (i := 8) (by decide)
  simp only [route, hlow, hhigh, haud]

theorem tSps_iff (t : Half) : t &&& Config.params.tSps ≠ 0 ↔ t.getLsbD 1 = true :=
  and_twoPow_ne_zero_iff t (i := 1) (by decide)

/-- The kind bits of a 16-bit operand are the low four bits of the register. -/
theorem kindBits_setWidth (w : Word) : (kindBits (w.setWidth 16)).setWidth 32 = w &&& 0xF := by
  have hmask : (0xF : Word).setWidth 16 = 0xF := rfl
  have h : kindBits (w.setWidth 16) = (w &&& 0xF).setWidth 16 := by
    rw [BitVec.setWidth_and, hmask]; rfl
  rw [h]
  apply BitVec.eq_of_toNat_eq
  have hlt : (w &&& 0xF).toNat < 2 ^ 4 := by
    rw [BitVec.toNat_and]; exact Nat.and_lt_two_pow _ (by decide)
  rw [BitVec.toNat_setWidth, BitVec.toNat_setWidth]
  omega

/-! ### ROUTE (R131) -/

theorem exec_route_some {s : State} {st : StreamId} (h : route (s.arg[0].setWidth 16) = some st) :
    exec .route s = .next
      { s with res := (s.res.set 0 (toWord (natOfStream st))).set 1 (s.arg[0] &&& 0xF), status := 0 } := by
  have harg : s.argHalf 0 = s.arg[0].setWidth 16 := s.argHalf_eq 0
  rw [exec_route]
  simp only [execRoute]
  rw [harg, h, ← kindBits_setWidth]
  rfl

theorem exec_route_none {s : State} (h : route (s.arg[0].setWidth 16) = none) :
    exec .route s = .next { s with event := s.event ||| 0x20, status := 9 } := by
  have harg : s.argHalf 0 = s.arg[0].setWidth 16 := s.argHalf_eq 0
  rw [exec_route]
  simp only [execRoute]
  rw [harg, h]
  rfl

/-- Settles O18, by the first route bit that is set. -/
theorem routeByTypeBits : Obligations.RouteByTypeBits := by
  intro s found
  have hroute := route_eq (s.arg[0].setWidth 16)
  simp only [BitVec.getLsbD_setWidth, Nat.reduceLT, decide_true, Bool.true_and] at hroute
  refine ⟨fun hlow => ?_, fun hlow hhigh => ?_, fun hlow hhigh haud => ?_, fun hlow hhigh haud => ?_⟩
  · exact exec_route_some (by rw [hroute, if_pos hlow])
  all_goals rw [if_neg (Bool.eq_false_iff.1 hlow)] at hroute
  · exact exec_route_some (by rw [hroute, if_pos hhigh])
  all_goals rw [if_neg (Bool.eq_false_iff.1 hhigh)] at hroute
  · exact exec_route_some (by rw [hroute, if_pos haud])
  · exact exec_route_none (by rw [hroute, if_neg (Bool.eq_false_iff.1 haud)])

/-! ### The window policy (R134, R135) -/

section Window

variable {st : StreamId} {c : Half} {s : State} {r : Resync}

theorem inWindow_counterDistance (c last : Half) :
    inWindow (counterDistance c last) = true ↔ 1 ≤ (c - last).toNat ∧ (c - last).toNat ≤ 20 := by
  rw [counterDistance_eq_sub]
  exact decide_eq_true_iff

theorem seqWindow_first (hr : r = s.resync.get st) (hset : r.lvSet = false) :
    seqWindow st c s = (.ok, 0, s.setResync st { r with lastValid := c, lvSet := true, invRun := 0 }) := by
  subst hr
  exact if_pos hset

/-- With a baseline the window decides on the distance of the counters. -/
theorem seqWindow_accepted (hr : r = s.resync.get st) (hset : r.lvSet = true)
    (hin : 1 ≤ (c - r.lastValid).toNat ∧ (c - r.lastValid).toNat ≤ 20) :
    seqWindow st c s = (.ok, (c - r.lastValid).toNat, s.setResync st { r with lastValid := c, invRun := 0 }) := by
  subst hr
  rw [seqWindow, if_neg (by simp [hset]), if_pos ((inWindow_counterDistance _ _).2 hin), counterDistance_eq_sub]

theorem seqWindow_suppressed (hr : r = s.resync.get st) (hset : r.lvSet = true)
    (hout : ¬(1 ≤ (c - r.lastValid).toNat ∧ (c - r.lastValid).toNat ≤ 20)) (hrun : (r.invRun + 1).toNat ≤ 40) :
    seqWindow st c s = (.suppressed, (c - r.lastValid).toNat,
      (s.raise .seqAnom).setResync st { r with invRun := r.invRun + 1 }) := by
  subst hr
  rw [seqWindow, if_neg (by simp [hset]), if_neg (mt (inWindow_counterDistance _ _).1 hout), if_neg (not_lt.2 hrun),
    counterDistance_eq_sub]

theorem seqWindow_resync (hr : r = s.resync.get st) (hset : r.lvSet = true)
    (hout : ¬(1 ≤ (c - r.lastValid).toNat ∧ (c - r.lastValid).toNat ≤ 20)) (hrun : 40 < (r.invRun + 1).toNat) :
    seqWindow st c s = (.resync, (c - r.lastValid).toNat, ((s.raise .seqAnom).setResync st
      { r with lastValid := c, invRun := 0, syncLost := r.syncLost + 1 }).raise .syncLost) := by
  subst hr
  rw [seqWindow, if_neg (by simp [hset]), if_neg (mt (inWindow_counterDistance _ _).1 hout), if_pos hrun,
    counterDistance_eq_sub]

/-- SEQW reports the outcome and the distance of the policy. -/
theorem exec_seqw_of {t : State} {code : StatusCode} {d : Nat}
    (h : seqWindow st (s.arg[0].setWidth 16) s = (code, d, t)) :
    exec (.seqw st) s = .next { t with res := t.res.set 0 (toWord d), status := code.word } := by
  have harg : s.argHalf 0 = s.arg[0].setWidth 16 := s.argHalf_eq 0
  rw [exec_seqw, execSeqw, harg, h]
  rfl

end Window

/-- Settles O19, one exit of the window policy at a time. -/
theorem seqwWindowPolicy : Obligations.SeqwWindowPolicy := by
  intro s st r hr c d
  refine ⟨fun hset => ?_, fun hset h1 h20 => ?_, fun hset hout hrun => ?_, fun hset hout hrun => ?_⟩
  · exact exec_seqw_of (seqWindow_first hr hset)
  · exact exec_seqw_of (seqWindow_accepted hr hset ⟨h1, h20⟩)
  · exact exec_seqw_of (seqWindow_suppressed hr hset hout hrun)
  · have hbits : s.event ||| 0xC = s.event ||| Event.seqAnom.mask ||| Event.syncLost.mask := by
      rw [BitVec.or_assoc]; rfl
    rw [hbits, exec_seqw_of (seqWindow_resync hr hset hout hrun)]
    rfl

/-! ### Runs of SEQW (R136) -/

section Runs

variable {st : StreamId} {s : State} {r : Resync}

/-- The master's write of an operand before SEQW. -/
def State.withCounter (s : State) (c : Word) : State := { s with arg := s.arg.set 0 c }

theorem State.withCounter_arg (s : State) (c : Word) : (s.withCounter c).arg[0] = c := Vector.getElem_set_self _

theorem seqwAll_concat (st : StreamId) (cs : List Word) (c : Word) (s : State) :
    seqwAll st (cs ++ [c]) s = seqwAll st [c] (seqwAll st cs s) := List.foldl_append

/-- A run of one counter takes its outcome and its resync state from the window policy. -/
theorem seqwAll_singleton {t : State} {code : StatusCode} {d : Nat} {c : Word}
    (h : seqWindow st (c.setWidth 16) (s.withCounter c) = (code, d, t)) :
    (seqwAll st [c] s).status = code.word ∧ (seqwAll st [c] s).resync = t.resync := by
  have hread : seqWindow st ((s.withCounter c).arg[0].setWidth 16) (s.withCounter c) = (code, d, t) := by
    rw [State.withCounter_arg]; exact h
  have hexec := exec_seqw_of hread
  rw [State.withCounter] at hexec
  rw [seqwAll, List.foldl_cons, List.foldl_nil, hexec]
  exact ⟨rfl, rfl⟩

/-- Violations up to the tolerance are counted and leave the baseline where it is. -/
theorem seqwAll_violations (hr : r = s.resync.get st) (hset : r.lvSet = true) (hrun : r.invRun = 0) (cs : List Word)
    (hlen : cs.length ≤ 40) (hcs : ∀ c ∈ cs, violates r.lastValid c) :
    (seqwAll st cs s).resync.get st = { r with invRun := BitVec.ofNat 32 cs.length } ∧
      (0 < cs.length → (seqwAll st cs s).status = 6) := by
  induction cs using List.reverseRecOn with
  | nil =>
    have hself : r = { r with invRun := 0 } := by rw [← hrun]
    exact ⟨hr.symm.trans hself, fun h => absurd h (by simp)⟩
  | append_singleton cs c ih =>
    rw [List.length_append, List.length_singleton] at hlen ⊢
    obtain ⟨hprev, -⟩ := ih (by omega) fun c hc => hcs c (List.mem_append_left _ hc)
    have hcount : (BitVec.ofNat 32 cs.length + 1 : Word) = BitVec.ofNat 32 (cs.length + 1) := (BitVec.ofNat_add _ _).symm
    have hle : (BitVec.ofNat 32 cs.length + 1 : Word).toNat ≤ 40 := by
      rw [hcount, BitVec.toNat_ofNat]
      omega
    obtain ⟨hstatus, hresync⟩ := seqwAll_singleton (s := seqwAll st cs s)
      (seqWindow_suppressed hprev.symm hset (hcs c (by simp)) hle)
    rw [seqwAll_concat, hresync, ← hcount]
    exact ⟨PerStream.get_set_same _ _ _, fun _ => hstatus⟩

/-- The violation after the tolerance is used up. -/
theorem seqwAll_tooMany {c : Word} (hr : r = s.resync.get st) (hset : r.lvSet = true) (hrun : r.invRun = 40)
    (hc : violates r.lastValid c) :
    (seqwAll st [c] s).status = 7 ∧ (seqwAll st [c] s).resync.get st =
      { r with lastValid := c.setWidth 16, invRun := 0, syncLost := r.syncLost + 1 } := by
  obtain ⟨hstatus, hresync⟩ := seqwAll_singleton
    (seqWindow_resync (s := s.withCounter c) hr hset hc (by rw [hrun]; decide))
  exact ⟨hstatus, by rw [hresync]; exact PerStream.get_set_same _ _ _⟩

/-- A counter inside the window of the baseline, or the first of all, clears the count. -/
theorem seqwAll_accepted {c : Word} (hr : r = s.resync.get st) (hc : ¬ violates r.lastValid c) :
    (seqwAll st [c] s).status = 0 ∧ ((seqwAll st [c] s).resync.get st).invRun = 0 := by
  rw [violates, not_not] at hc
  cases hset : r.lvSet with
  | false =>
    obtain ⟨hstatus, hresync⟩ := seqwAll_singleton (seqWindow_first (s := s.withCounter c) hr hset)
    exact ⟨hstatus, by rw [hresync, State.setResync_resync, PerStream.get_set_same]⟩
  | true =>
    obtain ⟨hstatus, hresync⟩ := seqwAll_singleton (seqWindow_accepted (s := s.withCounter c) hr hset hc)
    exact ⟨hstatus, by rw [hresync, State.setResync_resync, PerStream.get_set_same]⟩

/-- Settles O20: `seqwAll_violations` up to the tolerance, then one counter more. -/
theorem syncLossThreshold : Obligations.SyncLossThreshold := by
  intro s st r hr hset hrun
  refine ⟨fun cs hlen hcs => ?_, fun cs c hc => ?_⟩
  · have hforty := (seqwAll_violations hr hset hrun cs hlen.le hcs).1
    rw [hlen] at hforty
    refine ⟨fun k h0 hk => ?_, hforty, fun c hc => ?_⟩
    · have htake : (cs.take k).length = k := by rw [List.length_take]; omega
      exact (seqwAll_violations hr hset hrun _ (by omega) fun c h => hcs c (List.mem_of_mem_take h)).2 (by omega)
    · rw [seqwAll_concat]
      exact seqwAll_tooMany (r := { r with invRun := 40 }) hforty.symm hset rfl hc
  · rw [seqwAll_concat]
    exact seqwAll_accepted rfl hc

end Runs

/-! ### SEQL (R137, R138) -/

section Loss

variable {st : StreamId} {c : Half} {s : State} {r : Resync}

theorem seqLoss_first (hr : r = s.resync.get st) (hset : r.lvSet = false) :
    seqLoss st c s = (0, s.setResync st { r with lastValid := c, lvSet := true }) := by
  subst hr
  exact if_pos hset

theorem seqLoss_lost (hr : r = s.resync.get st) (hset : r.lvSet = true) (hlost : 0 < lostFrames c r.lastValid) :
    seqLoss st c s = (lostFrames c r.lastValid, (s.setResync st
      { r with lastValid := c, lost := r.lost + BitVec.ofInt 32 (lostFrames c r.lastValid) }).raise .loss) := by
  subst hr
  rw [seqLoss, if_neg (by simp [hset]), if_pos hlost]

theorem seqLoss_none (hr : r = s.resync.get st) (hset : r.lvSet = true) (hlost : lostFrames c r.lastValid ≤ 0) :
    seqLoss st c s = (lostFrames c r.lastValid, s.setResync st { r with lastValid := c }) := by
  subst hr
  rw [seqLoss, if_neg (by simp [hset]), if_neg (not_lt.2 hlost)]

/-- SEQL reports the loss of the policy. -/
theorem exec_seql_of {t : State} {lost : Int} (h : seqLoss st (s.arg[0].setWidth 16) s = (lost, t)) :
    exec (.seql st) s = .next { t with res := t.res.set 0 (BitVec.ofInt 32 lost), status := 0 } := by
  have harg : s.argHalf 0 = s.arg[0].setWidth 16 := s.argHalf_eq 0
  rw [exec_seql, execSeql, harg, h]
  rfl

end Loss

/-- Settles O21, one exit of the loss policy at a time. -/
theorem seqlLossPolicy : Obligations.SeqlLossPolicy := by
  intro s st r hr c lost
  refine ⟨fun hset => ?_, fun hset hlost => ?_, fun hset hlost => ?_⟩
  · exact exec_seql_of (seqLoss_first hr hset)
  · exact exec_seql_of (seqLoss_lost hr hset hlost)
  · exact exec_seql_of (seqLoss_none hr hset hlost)

/-! ### The policy of a poll variant (R140) -/

section Policy

variable {v : Variant} {s : State}

theorem seqCheck_window (h : s.usesWindow v = true) (st : StreamId) (c : Half) :
    seqCheck v st c s = ((seqWindow st c s).1, (seqWindow st c s).2.2) := if_pos h

theorem seqCheck_loss (h : s.usesWindow v = false) (st : StreamId) (c : Half) :
    seqCheck v st c s = (.ok, (seqLoss st c s).2) := if_neg (Bool.eq_false_iff.1 h)

theorem State.usesWindow_scan (s : State) : s.usesWindow .scan = !s.ctrl.getLsbD 6 :=
  congrArg (!·) (bit_eq_getLsbD _ _)

theorem State.usesWindow_chain (s : State) : s.usesWindow .chain = s.ctrl.getLsbD 7 := bit_eq_getLsbD _ _

end Policy

/-- Settles O23: `CTRL` bit 6 for the scan variant, bit 7 for the chain variant. -/
theorem policySelection : Obligations.PolicySelection := by
  intro s st c
  refine ⟨fun h => ?_, fun h => ?_, fun h => ?_, fun h => ?_⟩
  · exact seqCheck_window (by rw [s.usesWindow_scan, h]; rfl) st c
  · exact seqCheck_loss (by rw [s.usesWindow_scan, h]; rfl) st c
  · exact seqCheck_loss (by rw [s.usesWindow_chain, h]) st c
  · exact seqCheck_window (by rw [s.usesWindow_chain, h]) st c

/-! ### The signature lookup (R152) -/

/-- The kinds by their number in a `SIG` entry (R22). -/
theorem sigKind_eq (e : Word) : sigKind e =
    [NalKind.slice, NalKind.idr, NalKind.sps, NalKind.pps, NalKind.vps][(e.extractLsb' 20 3).toNat]? := by
  rw [sigKind, field_eq_extractLsb' e 22 20 3 rfl]
  rcases (e.extractLsb' 20 3).toNat with _ | _ | _ | _ | _ | n <;> rfl

/-- What R152 asks of an entry: a kind, and one byte or both equal as `LEN` says. -/
def SigHits (b0 b1 : Byte) (e : Word) : Prop :=
  (e.extractLsb' 20 3).toNat ≤ 4 ∧
    ((e.extractLsb' 16 2 = 1 ∧ e.extractLsb' 0 8 = b0) ∨
      (e.extractLsb' 16 2 = 2 ∧ e.extractLsb' 0 8 = b0 ∧ e.extractLsb' 8 8 = b1))

theorem sigHits_iff (b0 b1 : Byte) (e : Word) :
    SigHits b0 b1 e ↔ (sigKind e).isSome = true ∧ sigMatches e b0 b1 = true := by
  have hlen (n : BitVec 2) : sigLen e = n.toNat ↔ e.extractLsb' 16 2 = n := by
    rw [sigLen, field_eq_extractLsb' e 17 16 2 rfl, BitVec.toNat_inj]
  have hb0 : sigB0 e = b0.toNat ↔ e.extractLsb' 0 8 = b0 := by
    rw [sigB0, field_eq_extractLsb' e 7 0 8 rfl, BitVec.toNat_inj]
  have hb1 : sigB1 e = b1.toNat ↔ e.extractLsb' 8 8 = b1 := by
    rw [sigB1, field_eq_extractLsb' e 15 8 8 rfl, BitVec.toNat_inj]
  have hone : sigLen e = 1 ↔ _ := hlen 1
  have htwo : sigLen e = 2 ↔ _ := hlen 2
  have hkind : (e.extractLsb' 20 3).toNat ≤ 4 ↔ (sigKind e).isSome = true := by
    rw [sigKind_eq, isSome_getElem?]
    exact Nat.lt_succ_iff.symm
  simp only [SigHits, sigMatches, Bool.or_eq_true, decide_eq_true_eq, hkind, hone, htwo, hb0, hb1]

section Lookup

variable {b0 b1 : Byte} {es : List Word}

theorem sigLookup_cons_hit {e : Word} (h : SigHits b0 b1 e) : sigLookup b0 b1 (e :: es) = sigKind e := by
  obtain ⟨hkind, hmatch⟩ := (sigHits_iff b0 b1 e).1 h
  obtain ⟨k, hk⟩ := Option.isSome_iff_exists.1 hkind
  rw [sigLookup, hk]
  exact if_pos hmatch

theorem sigLookup_cons_miss {e : Word} (h : ¬ SigHits b0 b1 e) : sigLookup b0 b1 (e :: es) = sigLookup b0 b1 es := by
  rw [sigHits_iff] at h
  rw [sigLookup]
  cases hk : sigKind e with
  | none => rfl
  | some k => exact if_neg fun hmatch => h ⟨by rw [hk]; rfl, hmatch⟩

/-- The first entry that hits decides. -/
theorem sigLookup_first {i : Nat} {e : Word} (he : es[i]? = some e) (hit : SigHits b0 b1 e)
    (hbefore : ∀ (j : Nat) (f : Word), j < i → es[j]? = some f → ¬ SigHits b0 b1 f) :
    sigLookup b0 b1 es = sigKind e := by
  induction es generalizing i with
  | nil => cases he
  | cons f es ih =>
    cases i with
    | zero =>
      cases he
      exact sigLookup_cons_hit hit
    | succ i =>
      rw [sigLookup_cons_miss (hbefore 0 f (Nat.succ_pos i) rfl)]
      exact ih he fun j f hj hf => hbefore (j + 1) f (Nat.succ_lt_succ hj) hf

theorem sigLookup_none (h : ∀ e ∈ es, ¬ SigHits b0 b1 e) : sigLookup b0 b1 es = none := by
  induction es with
  | nil => rfl
  | cons e es ih =>
    rw [sigLookup_cons_miss (h e List.mem_cons_self)]
    exact ih fun f hf => h f (List.mem_cons_of_mem _ hf)

end Lookup

/-- Settles O26, by `sigLookup_first` and `sigLookup_none` on the table. -/
theorem signatureLookup : Obligations.SignatureLookup := by
  intro s b0 b1 hits
  refine ⟨fun i e he hit hbefore => ?_, fun hmiss => ?_⟩
  · rw [← sigKind_eq]
    refine sigLookup_first (i := i) (by rwa [Vector.getElem?_toList]) hit fun j f hj hf => ?_
    exact hbefore j f hj (by rwa [Vector.getElem?_toList] at hf)
  · refine sigLookup_none fun e he => ?_
    obtain ⟨i, hi⟩ := List.mem_iff_getElem?.1 he
    exact hmiss i e (by rwa [Vector.getElem?_toList] at hi)

end Sys2Proof.Machine
end

section
/-! Delivery of one frame at each of its checks, and the delivery loop of POLLC (spec/43_demux.md R142, R160;
spec/44_sps_emit.md R171; spec/45_output_ring.md R180). -/

namespace Sys2Proof.Machine

/-! ### Enable bits (R132) -/

theorem State.enabled_eq (s : State) (st : StreamId) :
    s.enabled st = s.ctrl.getLsbD (match st with | .low => 1 | .high => 2 | .aud => 3) := by
  cases st <;> exact bit_eq_getLsbD _ _

theorem State.spsRw_eq (s : State) : s.spsRw = s.ctrl.getLsbD 0 := bit_eq_getLsbD _ _

theorem seqCheck_ctrl (v : Variant) (st : StreamId) (c : Half) (s : State) : (seqCheck v st c s).2.ctrl = s.ctrl := by
  obtain ⟨r, ev, h, -⟩ := seqCheck_frame v st c s
  rw [h]

/-! ### The checks of `deliver` (R142) -/

section Deliver

variable {v : Variant} {hd : Hdr} {pay : Nat} {sps : Bool} {s s1 : State} {st : StreamId} {code : StatusCode}

theorem deliver_unrouted (h : route hd.streamType = none) :
    deliver v hd pay sps s = (.misclass, s.raise .misclass) := by
  rw [deliver, h]

theorem deliver_disabled (h : route hd.streamType = some st) (hen : s.enabled st = false) :
    deliver v hd pay sps s = (.skipped, s) := by
  rw [deliver, h]
  exact if_pos hen

/-- A sequence check other than `ST_OK` ends the delivery. -/
theorem deliver_ended (h : route hd.streamType = some st) (hen : s.enabled st = true)
    (hseq : seqCheck v st hd.streamCounter s = (code, s1)) (hcode : code ≠ .ok) :
    deliver v hd pay sps s = (code, s1) := by
  simp only [deliver, h, hseq, hen, Bool.true_eq_false, if_false]

theorem deliver_checked (h : route hd.streamType = some st) (hen : s.enabled st = true)
    (hseq : seqCheck v st hd.streamCounter s = (.ok, s1)) :
    deliver v hd pay sps s = deliverPayload st hd pay sps s1 := by
  simp only [deliver, h, hseq, hen, Bool.true_eq_false, if_false]

end Deliver

/-! ### Trim and emission (R142, R171) -/

section Payload

variable {st : StreamId} {hd : Hdr} {pay : Nat} {sps : Bool} {s : State}

theorem deliverPayload_short (hsps : sps = true) (hlen : hd.length.toNat < 6) :
    deliverPayload st hd pay sps s = (.dropLen, s.raise .dropLen) := by
  simp only [deliverPayload]
  rw [if_pos hsps]
  exact if_pos hlen

/-- What is left of the frame after the trim is emitted. -/
theorem deliverPayload_emit {a n : Nat} (hlen : sps = true → 6 ≤ hd.length.toNat)
    (ha : a = if sps then s.geom.move pay 6 else pay)
    (hn : n = if sps then hd.length.toNat - 6 else hd.length.toNat) :
    deliverPayload st hd pay sps s =
      (outcomeCode (emit st a n hd.sequenceCounter sps s).1, (emit st a n hd.sequenceCounter sps s).2) := by
  subst ha hn
  simp only [deliverPayload]
  cases sps with
  | false => rfl
  | true =>
    rw [if_pos rfl, if_neg (not_lt.2 (hlen rfl))]
    rfl

theorem emit_empty (st : StreamId) (a : Nat) (sq : Word) (isSps : Bool) (s : State) :
    emit st a 0 sq isSps s = (.error .dropLen, s.raise .dropLen) := if_pos rfl

theorem push_tooBig {o : StreamId} {bytes : List Byte} (sq : Word) (h0 : 0 < bytes.length)
    (h : (s.ring.get o).cap.toNat ≤ bytes.length) : push o bytes sq s = (.error .tooBig, s.raise .tooBig) :=
  (if_neg h0.ne').trans (if_pos h)

theorem push_stored {o : StreamId} {bytes : List Byte} (sq : Word) (h0 : 0 < bytes.length)
    (h : bytes.length < (s.ring.get o).cap.toNat) :
    ∃ v, push o bytes sq s = (.ok v, s.setRing o ((s.ring.get o).store bytes sq)) :=
  ⟨_, (if_neg h0.ne').trans (if_neg (not_le.2 h))⟩

/-- A push of `n` bytes reports that they are too many, or stores them. -/
theorem push_outcome {o : StreamId} {bytes : List Byte} {sq : Word} {n : Nat} {r : StatusCode × State}
    (hn : bytes.length = n) (h0 : 0 < n) (hr : r = (outcomeCode (push o bytes sq s).1, (push o bytes sq s).2)) :
    ((s.ring.get o).cap.toNat ≤ n → r = (.tooBig, { s with event := s.event ||| 0x80 })) ∧
    (n < (s.ring.get o).cap.toNat → ∃ r', (s.ring.get o).StoredFrame bytes sq r' ∧
      r = (.ok, { s with ring := s.ring.set o r' })) := by
  subst hn hr
  refine ⟨fun h => ?_, fun h => ⟨_, OutRing.store_storedFrame _ bytes sq h, ?_⟩⟩
  · rw [push_tooBig sq h0 h]; rfl
  · obtain ⟨v, hv⟩ := push_stored sq h0 h
    rw [hv]; rfl

end Payload

theorem SpsEntry.ofLength.replBytes_length {e : SpsEntry Config.params} {n : Nat} (h : e.ofLength n) :
    e.replBytes.length = e.rlen.toNat ∧ 0 < e.rlen.toNat := by
  obtain ⟨-, -, ⟨h1, h64⟩, -⟩ := h
  refine ⟨?_, h1⟩
  rw [SpsEntry.replBytes, List.length_take, Vector.length_toList, Config.params_spsMax]
  omega

theorem State.firstSps_ofLength {s : State} {bytes : List Byte} {e : SpsEntry Config.params} (h : s.firstSps bytes e) :
    e.ofLength bytes.length := by
  obtain ⟨-, -, -, -, hlen, -⟩ := h
  exact hlen

/-- Settles O22, check by check. -/
theorem deliveryOrder : Obligations.DeliveryOrder := by
  intro v hd pay sps s s1 st code t target enable n a cap
  have hroute : route hd.streamType = target := route_eq _
  have henable : s.enabled st = enable := s.enabled_eq st
  refine ⟨fun hnone => deliver_unrouted (hroute.trans hnone), fun hst hen =>
    deliver_disabled (hroute.trans hst) (henable.trans hen), fun hst hen hseq => ⟨fun hcode =>
    deliver_ended (hroute.trans hst) (henable.trans hen) hseq hcode, ?_⟩⟩
  have hrw : s1.spsRw = s.ctrl.getLsbD 0 := by
    rw [State.spsRw_eq, ← seqCheck_ctrl v st hd.streamCounter s, hseq]
  have hpayload : code = .ok → deliver v hd pay sps s = deliverPayload st hd pay sps s1 := by
    rintro rfl
    exact deliver_checked (hroute.trans hst) (henable.trans hen) hseq
  have hemit : code = .ok → (sps = true → 6 ≤ hd.length.toNat) → deliver v hd pay sps s =
      (outcomeCode (emit st a n hd.sequenceCounter sps s1).1, (emit st a n hd.sequenceCounter sps s1).2) :=
    fun hok hlen => (hpayload hok).trans (deliverPayload_emit hlen rfl rfl)
  have hlong : 0 < n → sps = true → 6 ≤ hd.length.toNat := fun h0 hsps => by
    have hn : n = hd.length.toNat - 6 := if_pos hsps
    omega
  refine ⟨fun hok hsps hlen => ?_, fun hok hlen hn => ?_, fun hok h0 hoff => ?_, fun hok h0 hsps hon => ⟨fun hnone => ?_,
    fun e he => ?_⟩⟩
  · exact (hpayload hok).trans (deliverPayload_short hsps hlen)
  · rw [hemit hok hlen, hn, emit_empty]
    rfl
  · have hoff' : ¬(sps = true ∧ s1.spsRw = true) := by
      rw [hrw]
      rintro ⟨hsps, hon⟩
      exact hoff.elim (Bool.eq_false_iff.1 · hsps) (Bool.eq_false_iff.1 · hon)
    have hpush := hemit hok (hlong h0)
    rw [(emit_pushes st a n hd.sequenceCounter sps s1 h0).1 hoff'] at hpush
    exact push_outcome (bytesRead_length s1 a n) h0 hpush
  · rw [hemit hok (hlong h0), ((emit_pushes st a n hd.sequenceCounter sps s1 h0).2 hsps (hrw.trans hon)).2 hnone]
    rfl
  · obtain ⟨hlen, hpos⟩ := (State.firstSps_ofLength he).replBytes_length
    have hpush := hemit hok (hlong h0)
    rw [((emit_pushes st a n hd.sequenceCounter sps s1 h0).2 hsps (hrw.trans hon)).1 e he] at hpush
    exact push_outcome hlen hpos hpush

/-! ### The delivery loop (R160) -/

section Loop

variable {s : State}

theorem deliverBatch_singleton (x : Nat × Hdr) (s : State) : deliverBatch [x] s = ([], s) := rfl

/-- With frames behind it the first is delivered, port B is served, and the loop goes on. -/
theorem deliverBatch_cons {f : Nat × Hdr} {fs : List (Nat × Hdr)} {s1 : State} {c : StatusCode} (hfs : fs ≠ [])
    (h : deliver .chain f.2 (s.geom.move f.1 s.hdrSize.toNat) (f.2.streamType.getLsbD 1) s = (c, s1)) :
    deliverBatch (f :: fs) s =
      (c :: (deliverBatch fs (consumerGap s1)).1, (deliverBatch fs (consumerGap s1)).2) := by
  obtain ⟨p, hd⟩ := f
  obtain ⟨f2, fs, rfl⟩ := List.exists_cons_of_ne_nil hfs
  have hbit : decide (hd.streamType &&& Config.params.tSps ≠ 0) = hd.streamType.getLsbD 1 :=
    Bool.eq_iff_iff.2 (decide_eq_true_iff.trans (tSps_iff hd.streamType))
  simp only [deliverBatch]
  rw [hbit, h]

/-- What is delivered does not depend on the last entry of the table, and every other frame has an outcome. -/
theorem deliverBatch_append_singleton (fs : List (Nat × Hdr)) (x y : Nat × Hdr) (s : State) :
    deliverBatch (fs ++ [x]) s = deliverBatch (fs ++ [y]) s ∧ (deliverBatch (fs ++ [x]) s).1.length = fs.length := by
  induction fs generalizing s with
  | nil => exact ⟨rfl, rfl⟩
  | cons f fs ih =>
    rcases hdel : deliver .chain f.2 (s.geom.move f.1 s.hdrSize.toNat) (f.2.streamType.getLsbD 1) s with ⟨c, s1⟩
    obtain ⟨heq, hlen⟩ := ih (consumerGap s1)
    rw [List.cons_append, List.cons_append, deliverBatch_cons (by simp) hdel, deliverBatch_cons (by simp) hdel, heq]
    exact ⟨rfl, by rw [List.length_cons, List.length_cons, ← heq, hlen]⟩

end Loop

/-- Settles O31. -/
theorem deliveryLoopLeavesTheLastFrame : Obligations.DeliveryLoopLeavesTheLastFrame :=
  ⟨deliverBatch_append_singleton, deliverBatch_singleton, fun _ _ _ _ _ hfs h => deliverBatch_cons hfs h⟩

end Sys2Proof.Machine
end

section
/-! POLLS: the sample of the commit offset, the exits without a frame, and the handling of one frame over a quiet ring
(spec/43_demux.md R146, R150, R152). -/

namespace Sys2Proof.Machine

variable {s : State} {wr i1 i2 : Nat}

/-! ### The sample (R146) -/

/-- The commit offset is what the next four reads return. -/
theorem sampleScan_eq (g : Geom) (inp : InputRing) {commit : Nat}
    (hc : commit = leBytes [inp.readAt 1 16, inp.readAt 2 17, inp.readAt 3 18, inp.readAt 4 19]) :
    sampleScan g inp = (if g.span ≤ commit then none else some (g.off + commit), inp.advance 4) := by
  have hread : memRead Config.params.irhCommitOff 4 inp = (commit, inp.advance 4) := by
    rw [memRead_spec, hc]; rfl
  rw [sampleScan, hread]

/-- Settles O24: the three exits before the first search. -/
theorem pollsSamplesTheCommitOffset : Obligations.PollsSamplesTheCommitOffset := by
  intro s hok hcur commit hc
  have hstale := s.staleCursor_eq_false_iff.2 hcur
  have hsample := sampleScan_eq s.geom s.input hc
  refine ⟨fun hout => ?_, fun hin hv => ?_⟩
  · rw [if_pos hout] at hsample
    exact execPolls_transient hok hstale hsample
  · rw [if_neg (not_le.2 hin)] at hsample
    have hinit := pollsSampled_init (s := s.setInput (s.input.advance 4)) (s.geom.off + commit) hv
    exact (execPolls_sampled hok hstale hsample).trans (congrArg Host.Outcome.next hinit)

/-! ### Over a quiet ring -/

/-- A consistent sample from a valid cursor leads to the first search. -/
theorem exec_polls_sampled (hq : s.quiet) (hok : s.hdrOk = true) (hring : s.geom.isRing s.cur.toNat = true)
    (hin : s.irhNow 16 < s.geom.span) (hwr : wr = s.bufOffset.toNat + s.irhNow 16) :
    exec .polls s = .next (pollsSampled wr s) := by
  subst hwr
  exact execPolls_sampled hok (s.staleCursor_eq_false_iff.2 fun _ => hring) (sampleScan_quiet s hq hin)

theorem pollsSampled_firstMatch {k : Nat} (hq : s.quiet) (hv : s.curValid = true)
    (hm : s.firstMatch s.cur.toNat (s.geom.dist s.cur.toNat wr) [0, 0, 0, 1] k)
    (hi : i1 = s.geom.wrap (s.cur.toNat + k)) : pollsSampled wr s = pollsSecond i1 wr s := by
  subst hi
  exact pollsSampled_first hv (findWin_first s hq _ _ _ k hm)

/-- Settles O25: the two searches that end without a match. -/
theorem pollsWithoutTwoStartCodes : Obligations.PollsWithoutTwoStartCodes := by
  intro s hq hok hv hring wr hin hwr
  rw [exec_polls_sampled hq hok hring hin hwr]
  refine ⟨fun hnone => ?_, fun k1 i1 hm hi hnone => ?_⟩
  · rw [pollsSampled_noFirst hv (findWin_noMatch s hq _ _ _ hnone), State.setInput_self]
    rfl
  · rw [pollsSampled_firstMatch hq hv hm hi, pollsSecond_noSecond (findWin_noMatch s hq _ _ _ hnone)]
    rfl

theorem pollsBoth_quiet (hq : s.quiet) (i1 i2 : Nat) : pollsBoth i1 i2 s.input s =
    { s with cur := toWord i1, res := (s.res.set 0 (toWord i1)).set 1 (toWord i2) } := by
  rw [pollsBoth, InputRing.advance_quiet hq]
  exact State.setInput_self ((pollsAt i1 s).setRes 1 (toWord i2))

/-- Both start codes known, the signature decides: none that names a kind, or a frame of that kind. -/
theorem pollsSecond_quiet {k : Nat} (hq : s.quiet)
    (hm : s.firstMatch (s.geom.move i1 4) (s.geom.dist (s.geom.move i1 4) wr) [0, 0, 0, 1] k)
    (hi : i2 = s.geom.wrap (s.geom.move i1 4 + k)) :
    (sigLookup (s.ringByte i1 4) (s.ringByte i1 5) s.sig.toList = none →
      pollsSecond i1 wr s = (((pollsBoth i1 i2 s.input s).raise .misclass).setCur i2).finish .a .misclass) ∧
    ∀ kind, sigLookup (s.ringByte i1 4) (s.ringByte i1 5) s.sig.toList = some kind →
      pollsSecond i1 wr s = pollsFrame i1 i2 kind (pollsBoth i1 i2 s.input s) := by
  subst hi
  have hb0 : s.input.readAt 1 (s.geom.wrap (i1 + 4)) = s.ringByte i1 4 := InputRing.readAt_quiet hq _ _
  have hb1 : s.input.readAt 2 (s.geom.wrap (i1 + 5)) = s.ringByte i1 5 := InputRing.readAt_quiet hq _ _
  rw [pollsSecond_second (findWin_first s hq _ _ _ k hm), hb0, hb1]
  exact ⟨fun hsig => by rw [hsig], fun kind hsig => by rw [hsig]⟩

/-- All five result registers written one after another. -/
theorem set_five {α : Type} (v : Vector α 5) (a b c d e : α) :
    ((((v.set 0 a).set 1 b).set 2 c).set 3 d).set 4 e = #v[a, b, c, d, e] := by
  refine Vector.ext fun i hi => ?_
  rcases i with _ | _ | _ | _ | _ | i
  all_goals simp
  omega

theorem pollsHeader_self (hd : Hdr) (s : State) : pollsHeader hd s.input s =
    { s with res := ((s.res.set 2 hd.length).set 3 (hd.streamType.setWidth 32)).set 4 (hd.streamCounter.setWidth 32) } := by
  rw [pollsHeader, State.setInput_self]
  rfl

/-- Settles O27: the exits of POLLS once both start codes are known. -/
theorem pollsHandlesOneFrame : Obligations.PollsHandlesOneFrame := by
  intro s hq hok hv hring wr k1 k2 i1 i2 hin hwr hm1 hi1 hm2 hi2
  obtain ⟨hunknown, hknown⟩ := pollsSecond_quiet hq hm2 hi2
  rw [exec_polls_sampled hq hok hring hin hwr, pollsSampled_firstMatch hq hv hm1 hi1]
  rw [pollsBoth_quiet hq] at hunknown hknown
  refine ⟨fun hsig => ?_, fun kind h hd hsig hh hhd => ?_⟩
  · rw [hunknown hsig]
    rfl
  · rw [hknown kind hsig, ← set_five s.res]
    subst hhd hh
    have hdec := decodeHdr_quiet
      { s with cur := toWord i1, res := (s.res.set 0 (toWord i1)).set 1 (toWord i2) } hq
      (s.geom.move i1 (-(headerBack s.hdrSize.toNat kind : Int)))
    refine ⟨fun hlen => ?_, fun hlen code t hdel => ?_⟩
    · rw [pollsFrame_drop hdec hlen, pollsHeader_self]
      rfl
    · rw [pollsFrame_deliver (v := code) (s2 := t) hdec hlen (by rw [pollsHeader_self]; exact hdel)]
      rfl

end Sys2Proof.Machine
end

section
/-! POLLC: the sample of the commit fields, and the two ends of a walk over a quiet ring (spec/43_demux.md R145,
R160 to R163). -/

namespace Sys2Proof.Machine

variable {s : State} {stop : Nat}

/-! ### The sample (R145) -/

/-- Of the next twelve reads the first four are the commit offset and the last four its echo. -/
theorem sampleChain_eq (g : Geom) (inp : InputRing) {commit echo : Nat}
    (hc : commit = leBytes [inp.readAt 1 16, inp.readAt 2 17, inp.readAt 3 18, inp.readAt 4 19])
    (he : echo = leBytes [inp.readAt 9 12, inp.readAt 10 13, inp.readAt 11 14, inp.readAt 12 15]) :
    sampleChain g inp =
      (if commit ≠ echo ∨ g.span ≤ commit then none else some (g.off + commit), inp.advance 12) := by
  have hcommit : memRead Config.params.irhCommitOff 4 inp = (commit, inp.advance 4) := by
    rw [memRead_spec, hc]; rfl
  have hecho : memRead Config.params.irhEchoOff 4 (inp.advance 8) = (echo, inp.advance 12) := by
    simp only [memRead_spec, InputRing.readAt_advance, InputRing.advance_add, he]
    rfl
  simp only [sampleChain, hcommit, memRead_spec Config.params.irhLenOff, InputRing.advance_add, Nat.reduceAdd, hecho]

/-- Settles O28: the exits before the walk. -/
theorem pollcSamplesTheCommitFields : Obligations.PollcSamplesTheCommitFields := by
  intro s hok hcur commit echo hc he
  have hstale := s.staleCursor_eq_false_iff.2 hcur
  have hsample := sampleChain_eq s.geom s.input hc he
  refine ⟨fun hbad => ?_, fun heq hin hv => ?_, fun heq hin hv hat => ?_⟩
  · rw [if_pos hbad] at hsample
    exact execPollc_transient hok hstale hsample
  all_goals
    rw [if_neg (not_or.2 ⟨not_not.2 heq, not_le.2 hin⟩)] at hsample
    refine (execPollc_sampled hok hstale hsample).trans (congrArg Host.Outcome.next ?_)
  · exact pollcSampled_init (s := s.setInput (s.input.advance 12)) _ hv
  · have hstop : s.geom.off + commit = (s.setInput (s.input.advance 12)).cur.toNat := hat.symm
    rw [hstop]
    exact pollcSampled_empty hv

/-! ### The ends of a walk over a quiet ring (R160, R162) -/

/-- A consistent sample from a valid cursor leads to the walk. -/
theorem exec_pollc_sampled (hq : s.quiet) (hok : s.hdrOk = true) (hring : s.geom.isRing s.cur.toNat = true)
    (hecho : s.irhNow 16 = s.irhNow 12) (hin : s.irhNow 16 < s.geom.span)
    (hstop : stop = s.bufOffset.toNat + s.irhNow 16) : exec .pollc s = .next (pollcSampled stop s) := by
  subst hstop
  exact execPollc_sampled hok (s.staleCursor_eq_false_iff.2 fun _ => hring) (sampleChain_quiet s hq hin hecho)

/-- A walk that has recorded 10 frames before `stop`, or stands at a header that passes it, is aborted. -/
theorem walk_aborted {tab : List (Nat × Hdr)} {q : Nat} (hq : s.quiet) (hchain : s.chainNow stop s.cur.toNat tab q)
    (hne : q ≠ stop) (hbad : tab.length = 10 ∨
      (tab.length < 10 ∧ s.geom.dist q stop < s.hdrSize.toNat + (s.headerNow q).length.toNat)) :
    walk s.geom s.layout s.hdrSize.toNat stop 10 s.cur.toNat [] s.input = (.sync tab.length, s.input) := by
  have hle : tab.length ≤ 10 := by omega
  rw [walk_chain s hq stop tab _ q 10 [] hchain hle, List.nil_append]
  rcases hbad with hfull | ⟨hroom, hpass⟩
  · rw [hfull, Nat.sub_self, walk, if_neg hne, hfull]
  · obtain ⟨left, hleft⟩ : ∃ left, 10 - tab.length = left + 1 := ⟨9 - tab.length, by omega⟩
    simp only [hleft, walk, if_neg hne, decodeHdr_quiet s hq, if_pos hpass]

/-- A walk over at most 10 frames up to `stop` records them all. -/
theorem walk_completed {tab : List (Nat × Hdr)} (hq : s.quiet) (hchain : s.chainNow stop s.cur.toNat tab stop)
    (hle : tab.length ≤ 10) :
    walk s.geom s.layout s.hdrSize.toNat stop 10 s.cur.toNat [] s.input = (.done tab, s.input) := by
  rw [walk_chain s hq stop tab _ stop 10 [] hchain hle, List.nil_append]
  cases 10 - tab.length <;> simp [walk]

/-- A chain with a frame in it does not begin at `stop`. -/
theorem State.chainNow_ne {p q : Nat} {tab : List (Nat × Hdr)} (h : s.chainNow stop p tab q) (htab : tab ≠ []) :
    p ≠ stop := by
  obtain ⟨f, fs, rfl⟩ := List.exists_cons_of_ne_nil htab
  exact h.1

/-- Settles O29, by `walk_aborted`. -/
theorem pollcDiscardsABadBatch : Obligations.PollcDiscardsABadBatch := by
  intro s hq hok hv hring hecho hin stop q tab hstop hcur hchain hne hbad
  rw [exec_pollc_sampled hq hok hring hecho hin hstop,
    pollcSampled_sync hv hcur.symm (walk_aborted hq hchain hne hbad), State.setInput_self]
  rfl

/-- Settles O30, by `walk_completed`. -/
theorem pollcDeliversAllButTheLast : Obligations.PollcDeliversAllButTheLast := by
  intro s hq hok hv hring hecho hin stop last hd fs hstop hchain hlen out t hbatch
  have hne : s.cur.toNat ≠ stop := State.chainNow_ne hchain (by simp)
  have hcount : (fs ++ [(last, hd)]).length = fs.length + 1 := List.length_append
  rw [exec_pollc_sampled hq hok hring hecho hin hstop,
    pollcSampled_done hv hne.symm (walk_completed hq hchain (by omega)), State.setInput_self, pollcDone_eq hbatch,
    List.getLast?_concat, hcount, Option.map_some, Option.getD_some]
  rfl

end Sys2Proof.Machine
end

section
/-! The walk of POLLC under any producer: where it decodes headers and how it ends (spec/43_demux.md R160, R161). -/

namespace Sys2Proof.Machine

/-- The header at `q` after `i` headers have been decoded, 16 reads each. -/
def headerAfter (g : Geom) (l : Layout) (inp : InputRing) (i q : Nat) : Hdr :=
  (decodeHdr g l q (inp.advance (16 * i))).1

/-- That header's frame, with the header itself. -/
def frameSize (g : Geom) (l : Layout) (hs : Nat) (inp : InputRing) (i q : Nat) : Nat :=
  hs + (headerAfter g l inp i q).length.toNat

/-- The result of a walk that had recorded `tab` before. -/
def Walk.after (tab : List (Nat × Hdr)) : Walk → Walk
  | .sync n => .sync (tab.length + n)
  | .done res => .done (tab ++ res)

variable {g : Geom} {l : Layout} {hs stop p : Nat} {inp : InputRing}

/-! ### Equations of the walk -/

theorem Walk.after_after (tab tab2 : List (Nat × Hdr)) (w : Walk) :
    (w.after tab2).after tab = w.after (tab ++ tab2) := by
  cases w <;> simp [Walk.after, Nat.add_assoc]

/-- The frames recorded before play no part in a walk. -/
theorem walk_after (left p : Nat) (tab : List (Nat × Hdr)) (inp : InputRing) :
    walk g l hs stop left p tab inp =
      ((walk g l hs stop left p [] inp).1.after tab, (walk g l hs stop left p [] inp).2) := by
  induction left generalizing p tab inp with
  | zero => simp only [walk]; split <;> simp [Walk.after]
  | succ left ih =>
    simp only [walk]
    split
    · simp [Walk.after]
    · split
      · simp [Walk.after]
      · rw [ih _ (tab ++ _), ih _ ([] ++ _), List.nil_append, Walk.after_after]

theorem walk_at_stop (left : Nat) : walk g l hs stop left stop [] inp = (.done [], inp) := by
  cases left <;> simp [walk]

theorem headerAfter_zero (q : Nat) : headerAfter g l inp 0 q = (decodeHdr g l q inp).1 := by
  rw [headerAfter, Nat.mul_zero, InputRing.advance_zero]

theorem headerAfter_advance (i q : Nat) : headerAfter g l (inp.advance 16) i q = headerAfter g l inp (i + 1) q := by
  rw [headerAfter, headerAfter, InputRing.advance_add, Nat.mul_succ, Nat.add_comm 16]

theorem frameSize_advance (i q : Nat) : frameSize g l hs (inp.advance 16) i q = frameSize g l hs inp (i + 1) q := by
  rw [frameSize, frameSize, headerAfter_advance]

theorem decodeHdr_eq (q : Nat) : decodeHdr g l q inp = (headerAfter g l inp 0 q, inp.advance 16) := by
  rw [headerAfter_zero, decodeHdr_spec]

/-- A header whose frame passes `stop` aborts the walk. -/
theorem walk_passes {left : Nat} (hp : p ≠ stop) (h : g.dist p stop < frameSize g l hs inp 0 p) :
    walk g l hs stop (left + 1) p [] inp = (.sync 0, inp.advance 16) := by
  rw [walk, if_neg hp, decodeHdr_eq]
  exact if_pos h

/-- A header whose frame does not is recorded, and the walk goes on behind it. -/
theorem walk_records {left : Nat} (hp : p ≠ stop) (h : frameSize g l hs inp 0 p ≤ g.dist p stop) :
    walk g l hs stop (left + 1) p [] inp =
      let r := walk g l hs stop left (g.move p (frameSize g l hs inp 0 p : Nat)) [] (inp.advance 16)
      (r.1.after [(p, headerAfter g l inp 0 p)], r.2) := by
  rw [walk, if_neg hp, decodeHdr_eq]
  exact (if_neg (not_lt.2 h)).trans (walk_after _ _ _ _)

/-! ### The places (R161) -/

/-- `places` begin at `p` and follow one another as the walk of R160 does: each a ring address before `stop`, and
each next one behind a header whose frame does not pass `stop`. -/
structure Visits (g : Geom) (l : Layout) (hs stop p : Nat) (inp : InputRing) (places : List Nat) : Prop where
  start : ∀ q, places[0]? = some q → q = p
  next : ∀ i q, places[i]? = some q → g.isRing q = true ∧ q ≠ stop ∧
    ∀ q', places[i + 1]? = some q' → frameSize g l hs inp i q ≤ g.dist q stop ∧
      q' = g.move q (frameSize g l hs inp i q : Nat)

theorem Visits.nil : Visits g l hs stop p inp [] := ⟨fun _ h => (by cases h), fun _ _ h => (by cases h)⟩

theorem Visits.cons {places : List Nat} (hring : g.isRing p = true) (hp : p ≠ stop)
    (hfits : places ≠ [] → frameSize g l hs inp 0 p ≤ g.dist p stop)
    (h : Visits g l hs stop (g.move p (frameSize g l hs inp 0 p : Nat)) (inp.advance 16) places) :
    Visits g l hs stop p inp (p :: places) where
  start := fun q hq => (Option.some.inj hq).symm
  next := fun i q hq => by
    cases i with
    | zero =>
      obtain rfl := Option.some.inj hq
      refine ⟨hring, hp, fun q' hq' => ⟨hfits ?_, h.start q' hq'⟩⟩
      rintro rfl
      cases hq'
    | succ i =>
      have hnext := h.next i q hq
      simp only [frameSize_advance] at hnext
      exact hnext

/-- How the walk ends, by the places where it decoded a header (R160, R162). -/
def Walk.EndsAt (g : Geom) (l : Layout) (hs stop left : Nat) (inp : InputRing) (places : List Nat) : Walk → Prop
  | .sync n =>
    (n = left ∧ places.length = left ∧
      ∀ i q, i + 1 = left → places[i]? = some q → frameSize g l hs inp i q ≤ g.dist q stop) ∨
    (places.length = n + 1 ∧ ∀ q, places[n]? = some q → g.dist q stop < frameSize g l hs inp n q)
  | .done tab => tab.length = places.length ∧ ∀ i q, places[i]? = some q →
      tab[i]? = some (q, headerAfter g l inp i q) ∧ frameSize g l hs inp i q ≤ g.dist q stop

/-- One more recorded frame in front. -/
theorem Walk.EndsAt.cons {left : Nat} {places : List Nat} {w : Walk} (hfits : frameSize g l hs inp 0 p ≤ g.dist p stop)
    (h : w.EndsAt g l hs stop left (inp.advance 16) places) :
    (w.after [(p, headerAfter g l inp 0 p)]).EndsAt g l hs stop (left + 1) inp (p :: places) := by
  cases w with
  | sync n =>
    have hafter : (Walk.sync n).after [(p, headerAfter g l inp 0 p)] = .sync (n + 1) :=
      congrArg Walk.sync (Nat.add_comm 1 n)
    rw [hafter]
    simp only [Walk.EndsAt, frameSize_advance] at h
    rcases h with ⟨rfl, hlen, hlast⟩ | ⟨hlen, hlast⟩
    · refine .inl ⟨rfl, congrArg (· + 1) hlen, fun i q hi hq => ?_⟩
      cases i with
      | zero => exact Option.some.inj hq ▸ hfits
      | succ i => exact hlast i q (by omega) hq
    · exact .inr ⟨congrArg (· + 1) hlen, hlast⟩
  | done tab =>
    simp only [Walk.EndsAt, headerAfter_advance, frameSize_advance] at h
    obtain ⟨hlen, hall⟩ := h
    refine ⟨congrArg (· + 1) hlen, fun i q hq => ?_⟩
    cases i with
    | zero =>
      obtain rfl := Option.some.inj hq
      exact ⟨rfl, hfits⟩
    | succ i => exact hall i q hq

/-- A walk from `p` over `left` headers at most has decoded headers at `places`, and ended with `r`. -/
structure WalkTrace (g : Geom) (l : Layout) (hs stop left p : Nat) (inp : InputRing) (places : List Nat)
    (r : Walk × InputRing) : Prop where
  visits : Visits g l hs stop p inp places
  begins : p ≠ stop → 0 < left → places ≠ []
  length_le : places.length ≤ left
  reads : r.2 = inp.advance (16 * places.length)
  ends : r.1.EndsAt g l hs stop left inp places

/-- Every walk has a trace, whatever the ring holds and the producer does. -/
theorem walk_trace (hstop : g.isRing stop = true) (hp : g.isRing p = true) (left : Nat) :
    ∃ places : List Nat, WalkTrace g l hs stop left p inp places (walk g l hs stop left p [] inp) := by
  induction left generalizing p inp with
  | zero =>
    refine ⟨[], .nil, fun _ h => absurd h (lt_irrefl 0), le_rfl, ?_, ?_⟩ <;> rw [walk] <;> split
    · exact inp.advance_zero.symm
    · exact inp.advance_zero.symm
    · exact ⟨rfl, fun _ _ h => (by cases h)⟩
    · exact .inl ⟨rfl, rfl, fun _ _ _ h => (by cases h)⟩
  | succ left ih =>
    by_cases hne : p = stop
    · subst hne
      rw [walk_at_stop]
      exact ⟨[], .nil, fun h => absurd rfl h, Nat.zero_le _, inp.advance_zero.symm, rfl, fun _ _ h => (by cases h)⟩
    rcases lt_or_ge (g.dist p stop) (frameSize g l hs inp 0 p) with hpass | hfits
    · rw [walk_passes hne hpass]
      exact ⟨[p], .cons hp hne (fun h => absurd rfl h) .nil, fun _ _ => List.cons_ne_nil _ _,
        Nat.succ_le_succ (Nat.zero_le _), rfl, .inr ⟨rfl, fun q hq => Option.some.inj hq ▸ hpass⟩⟩
    · have hdist := Geom.dist_lt hp hstop
      obtain ⟨places, htrace⟩ := ih (p := g.move p (frameSize g l hs inp 0 p : Nat)) (inp := inp.advance 16)
        (Geom.move_isRing hp (by omega) (by omega))
      rw [walk_records hne hfits]
      refine ⟨p :: places, .cons hp hne (fun _ => hfits) htrace.visits, fun _ _ => List.cons_ne_nil _ _,
        Nat.succ_le_succ htrace.length_le, htrace.reads.trans ?_, htrace.ends.cons hfits⟩
      rw [InputRing.advance_add, List.length_cons, Nat.mul_succ, Nat.add_comm]

/-- Settles O32, by the trace of a walk over 10 headers. -/
theorem walkIsBounded : Obligations.WalkIsBounded := by
  intro g l hs stop p inp hg hstop hp hs0
  obtain ⟨places, hvisits, hbegins, hlen, hreads, hends⟩ :=
    walk_trace (l := l) (hs := hs) (inp := inp) hstop hp 10
  refine ⟨places, hlen, hreads, hvisits.start, hvisits.next, ?_⟩
  rcases hw : walk g l hs stop 10 p [] inp with ⟨n | tab, inp'⟩ <;> rw [hw] at hends
  · rcases hends with ⟨rfl, hten, hlast⟩ | ⟨hn, hlast⟩
    · exact ⟨le_rfl, .inl ⟨rfl, hten, fun q => hlast 9 q rfl⟩⟩
    · exact ⟨by omega, .inr ⟨hn, hlast⟩⟩
  · obtain ⟨htab, hall⟩ := hends
    refine ⟨fun hne hnil => ?_, htab, fun i q hq => ?_⟩
    · rw [hnil] at htab
      exact hbegins hne (by decide) (List.length_eq_zero_iff.1 htab.symm)
    · obtain ⟨hentry, hfits⟩ := hall i q hq
      exact ⟨hentry, lt_of_le_of_lt hfits (Geom.dist_lt (hvisits.next i q hq).1 hstop)⟩

end Sys2Proof.Machine
end

section
/-! EMIT on operands in its domain, and how a push ends: the master's results and status of a frame stored or too
big (spec/44_sps_emit.md R170 to R172; spec/45_output_ring.md R180, R181). -/

namespace Sys2Proof.Machine

variable {s : State} {st : StreamId}

/-! ### The end of a push (R180, R181) -/

section Push

variable {o : StreamId} {bytes : List Byte} {n : Word}

/-- A frame that fits is stored, and its size, offset and slot are reported. -/
theorem finishStored_push_stored (sq : Word) (hn : bytes.length = n.toNat) (h0 : 0 < n.toNat)
    (h : n.toNat < (s.ring.get o).cap.toNat) :
    ∃ r', (s.ring.get o).StoredFrame bytes sq r' ∧
      finishStored (push o bytes sq s) =
        { s with
          ring := s.ring.set o r'
          res := ((s.res.set 0 n).set 1 (s.ring.get o).owr).set 2 (s.ring.get o).fwr
          status := 0 } := by
  have hsize : toWord bytes.length = n := by rw [hn, toWord, BitVec.ofNat_toNat, BitVec.setWidth_eq]
  rw [← hn] at h0 h
  refine ⟨_, OutRing.store_storedFrame _ bytes sq h, ?_⟩
  rw [push, if_neg h0.ne', if_neg (not_le.2 h), hsize]
  rfl

/-- A frame as large as the ring sets one event and the status. -/
theorem finishStored_push_tooBig (sq : Word) (h0 : 0 < bytes.length) (h : (s.ring.get o).cap.toNat ≤ bytes.length) :
    finishStored (push o bytes sq s) = { s with event := s.event ||| 0x80, status := 0xD } := by
  rw [push_tooBig sq h0 h]
  rfl

end Push

/-! ### EMIT (R170, R171) -/

theorem exec_emit_ok (hg : s.geomOk = true) (ha : s.geom.isRing s.arg[0].toNat = true)
    (hspan : s.arg[1].toNat < s.geom.span) :
    exec (.emit st) s =
      .next (finishStored (emit st s.arg[0].toNat s.arg[1].toNat s.arg[2] (s.arg[3].getLsbD 0) s)) := by
  rw [← bit_eq_getLsbD]
  exact (if_neg (by rw [hg]; decide)).trans (if_neg (not_not.2 ⟨ha, hspan⟩))

/-- Settles O34: `emit` pushes the bytes read, and they fit. -/
theorem emitCopiesTheFrame : Obligations.EmitCopiesTheFrame := by
  intro s st hg ha h0 hspan hcap hoff
  have hoff' : ¬(s.arg[3].getLsbD 0 = true ∧ s.spsRw = true) := by
    rintro ⟨hsps, hon⟩
    rw [State.spsRw_eq] at hon
    exact hoff.elim (Bool.eq_false_iff.1 · hsps) (Bool.eq_false_iff.1 · hon)
  have hpush := (emit_pushes st s.arg[0].toNat s.arg[1].toNat s.arg[2] _ s h0).1 hoff'
  obtain ⟨r', hstored, hend⟩ := finishStored_push_stored (s := s.setInput (s.input.advance s.arg[1].toNat)) s.arg[2]
    (bytesRead_length s s.arg[0].toNat s.arg[1].toNat) h0 hcap
  exact ⟨r', hstored, by rw [exec_emit_ok hg ha hspan, hpush, hend]; rfl⟩

/-- Settles O35: `emit` pushes the replacement of the first entry that is the frame, judged by the replacement's own
length; without such an entry it refuses. -/
theorem emitRewritesAKnownSps : Obligations.EmitRewritesAKnownSps := by
  intro s st hg ha h0 hspan hsps hon bytes
  have hexec := exec_emit_ok (st := st) hg ha hspan
  obtain ⟨hknown, hunknown⟩ := (emit_pushes st s.arg[0].toNat s.arg[1].toNat s.arg[2] (s.arg[3].getLsbD 0) s h0).2 hsps
    (s.spsRw_eq.trans hon)
  refine ⟨fun e he => ?_, fun hnone => ?_⟩
  · obtain ⟨hlen, hpos⟩ := (State.firstSps_ofLength he).replBytes_length
    rw [hknown e he] at hexec
    refine ⟨fun hfits => ?_, fun hbig => ?_⟩
    · have hword : (e.rlen.setWidth 32).toNat = e.rlen.toNat := BitVec.toNat_setWidth_of_le (by decide)
      rw [← hword] at hlen hpos hfits
      obtain ⟨r', hstored, hend⟩ :=
        finishStored_push_stored (s := s.setInput (s.input.advance s.arg[1].toNat)) s.arg[2] hlen hpos hfits
      exact ⟨r', hstored, hexec.trans (congrArg Host.Outcome.next hend)⟩
    · rw [← hlen] at hpos hbig
      exact hexec.trans (congrArg Host.Outcome.next (finishStored_push_tooBig s.arg[2] hpos hbig))
  · rw [hexec, hunknown hnone]
    rfl

end Sys2Proof.Machine
end

section
/-! PUSH and POP: the two ends of an output ring, the frames a run of pushes leaves in the table, and where the data of
a POP come from (spec/45_output_ring.md R180 to R187). -/

namespace Sys2Proof.Machine

variable {s : State} {o : StreamId}

theorem toWord_toNat_self (w : Word) : toWord w.toNat = w := by rw [toWord, BitVec.ofNat_toNat, BitVec.setWidth_eq]

/-! ### Frames stored one after another (R180, R182, R187) -/

section StoreAll

theorem OutRing.store_fwr_toNat (r : OutRing) (bytes : List Byte) (sq : Word) :
    (r.store bytes sq).fwr.toNat = (r.fwr.toNat + 1) % 42 := slot_next_toNat r.fwr

theorem OutRing.store_owr_toNat {r : OutRing} (h : 0 < r.cap.toNat) (bytes : List Byte) (sq : Word) :
    (r.store bytes sq).owr.toNat = (r.owr.toNat + bytes.length) % r.cap.toNat :=
  toWord_toNat ((Nat.mod_lt _ h).trans r.cap.isLt)

theorem OutRing.store_desc (r : OutRing) (bytes : List Byte) (sq : Word) :
    (r.store bytes sq).desc = Memory.write r.desc r.fwr.toNat { off := r.owr, seq := sq, size := toWord bytes.length } :=
  rfl

variable {r : OutRing} {frames : List (List Byte × Word)}

theorem OutRing.storeAll_concat (r : OutRing) (frames : List (List Byte × Word)) (f : List Byte × Word) :
    r.storeAll (frames ++ [f]) = (r.storeAll frames).store f.1 f.2 := List.foldl_concat ..

@[simp] theorem OutRing.storeAll_cap (r : OutRing) (frames : List (List Byte × Word)) :
    (r.storeAll frames).cap = r.cap := by
  induction frames using List.reverseRecOn with
  | nil => rfl
  | append_singleton frames f ih => rw [storeAll_concat]; exact ih

@[simp] theorem OutRing.storeAll_frd (r : OutRing) (frames : List (List Byte × Word)) :
    (r.storeAll frames).frd = r.frd := by
  induction frames using List.reverseRecOn with
  | nil => rfl
  | append_singleton frames f ih => rw [storeAll_concat]; exact ih

theorem OutRing.storeAll_fwr (h : r.fwr.toNat < 42) :
    (r.storeAll frames).fwr.toNat = (r.fwr.toNat + frames.length) % 42 := by
  induction frames using List.reverseRecOn with
  | nil => exact (Nat.mod_eq_of_lt h).symm
  | append_singleton frames f ih =>
    rw [storeAll_concat, store_fwr_toNat, ih, Nat.mod_add_mod, List.length_append, List.length_singleton, Nat.add_assoc]

/-- The byte cursor has advanced by all the frames' bytes. -/
theorem OutRing.storeAll_owr (h : r.owr.toNat < r.cap.toNat) :
    (r.storeAll frames).owr.toNat = (r.owr.toNat + (frames.map (·.1.length)).sum) % r.cap.toNat := by
  induction frames using List.reverseRecOn with
  | nil => exact (Nat.mod_eq_of_lt h).symm
  | append_singleton frames f ih =>
    have hcap : 0 < (r.storeAll frames).cap.toNat := by rw [storeAll_cap]; exact Nat.zero_lt_of_lt h
    rw [storeAll_concat, store_owr_toNat hcap, storeAll_cap, ih, Nat.mod_add_mod, List.map_append, List.sum_append,
      List.map_singleton, List.sum_singleton, Nat.add_assoc]

/-- Each of the last 42 frames has its descriptor in its slot: the frame stored last writes its own slot, and no other
of the last 42 frames has that slot. -/
theorem OutRing.storeAll_desc (hfwr : r.fwr.toNat < 42) (howr : r.owr.toNat < r.cap.toNat) {i : Nat}
    (hi : i < frames.length) (hlast : frames.length ≤ i + 42) :
    Memory.read (r.storeAll frames).desc ((r.fwr.toNat + i) % 42) =
      some
        { off := toWord ((r.owr.toNat + ((frames.take i).map (·.1.length)).sum) % r.cap.toNat)
          seq := frames[i].2
          size := toWord frames[i].1.length } := by
  induction frames using List.reverseRecOn with
  | nil => exact absurd hi (Nat.not_lt_zero i)
  | append_singleton frames f ih =>
    rw [List.length_append, List.length_singleton] at hi hlast
    rw [storeAll_concat, store_desc, storeAll_fwr hfwr]
    rcases Nat.lt_succ_iff_lt_or_eq.1 hi with hold | rfl
    · have hslot : (r.fwr.toNat + i) % 42 ≠ (r.fwr.toNat + frames.length) % 42 := by omega
      rw [Memory.read_write_ne _ _ hslot, ih hold (by omega), List.getElem_append_left hold,
        List.take_append_of_le_length hold.le]
    · rw [Memory.read_write_same, List.getElem_concat_length rfl, List.take_left, ← storeAll_owr howr,
        toWord_toNat_self]

end StoreAll

/-- Settles O40: the cursors left by the frames before one give its slot and its offset. -/
theorem newestDescriptorsAreKept : Obligations.NewestDescriptorsAreKept := fun r frames hfwr howr _ =>
  ⟨r.storeAll_fwr hfwr, r.storeAll_frd frames, fun _ hi hlast => OutRing.storeAll_desc hfwr howr hi hlast⟩

/-! ### PUSH (R180, R181) -/

theorem exec_push_ok (h : s.arg[1].toNat ≤ 256) :
    exec (.push o) s = .next (finishStored (push o (s.lbuf.toList.take s.arg[1].toNat) s.arg[2] s)) :=
  if_neg (not_lt.2 h)

theorem lbuf_take_length {n : Nat} (h : n ≤ 256) : (s.lbuf.toList.take n).length = n := by
  rw [List.length_take, Vector.length_toList]
  exact min_eq_left h

/-- Settles O36: the bytes of `LBUF` fit, so `push` stores them. -/
theorem pushStoresTheFrame : Obligations.PushStoresTheFrame := by
  intro s o h0 h256 hcap
  rw [exec_push_ok h256]
  obtain ⟨r', hstored, hend⟩ := finishStored_push_stored s.arg[2] (lbuf_take_length h256) h0 hcap
  exact ⟨r', hstored, congrArg _ hend⟩

/-! ### Refusals of PUSH and EMIT (R180, R171) -/

theorem finishStored_dropLen :
    finishStored (.error .dropLen, s.raise .dropLen) = { s with event := s.event ||| 0x2, status := 8 } := rfl

theorem State.geomOk_span_pos (h : s.geomOk = true) : 0 < s.geom.span := by
  obtain ⟨-, -, -, hspan⟩ := (Geom.ok_iff _).1 h
  exact Nat.lt_of_lt_of_le Nat.two_pos hspan

/-- Settles O37: with no bytes `push` and `emit` report a dropped length; as many as the ring holds are too many for
`push`, which an EMIT that the rewriter does not touch ends in. -/
theorem emptyAndOversizedFramesAreRefused : Obligations.EmptyAndOversizedFramesAreRefused := by
  intro s o
  refine ⟨fun h0 => ?_, fun h0 hg ha => ?_, fun h0 h256 hcap => ?_, fun h0 hspan hcap hg ha hoff => ?_⟩
  · rw [exec_push_ok (by rw [h0]; decide), h0]
    exact congrArg _ finishStored_dropLen
  · have hn : s.arg[1].toNat = 0 := congrArg BitVec.toNat h0
    rw [exec_emit_ok hg ha (hn ▸ State.geomOk_span_pos hg), hn, emit_empty, finishStored_dropLen]
  · have hlen := lbuf_take_length (s := s) h256
    rw [exec_push_ok h256, finishStored_push_tooBig s.arg[2] (by rwa [hlen]) (by rwa [hlen])]
  · have hoff' : ¬(s.arg[3].getLsbD 0 = true ∧ s.spsRw = true) := by
      rw [State.spsRw_eq, not_and_or, Bool.not_eq_true, Bool.not_eq_true]
      exact hoff
    have hlen := bytesRead_length s s.arg[0].toNat s.arg[1].toNat
    rw [exec_emit_ok hg ha hspan, (emit_pushes o _ _ _ _ s h0).1 hoff',
      finishStored_push_tooBig s.arg[2] (by rwa [hlen]) (by rwa [hlen])]
    rfl

/-! ### POP (R184, R185) -/

theorem exec_pop (p : Port) (o : StreamId) (s : State) : exec (.pop p o) s = .next (popCommand p o s) := rfl

theorem popCommand_empty (p : Port) (h : (s.ring.get o).frd = (s.ring.get o).fwr) :
    popCommand p o s = s.finish p .empty :=
  ((popCommand_cases p o s).resolve_right fun ⟨hne, _⟩ => hne h).2

theorem popCommand_unread (p : Port) (h : (s.ring.get o).frd ≠ (s.ring.get o).fwr) {d : Desc}
    (hd : d = s.descAt o (s.ring.get o).frd.toNat) :
    popCommand p o s =
      (((s.setRing o { s.ring.get o with frd := toWord (((s.ring.get o).frd.toNat + 1) % 42) }).setResults3 p
        d.size d.seq d.off).setDataOut p (s.descBytes o d)).finish p .ok := by
  subst hd
  exact ((popCommand_cases p o s).resolve_left fun ⟨he, _⟩ => h he).2

/-- POP writes all three result registers of port B. -/
theorem State.setResults3_resb (s : State) (a b c : Word) : (s.setResults3 .b a b c).resb = #v[a, b, c] := by
  refine Vector.ext fun i hi => ?_
  rcases i with _ | _ | _ | i
  all_goals simp [Parametric.State.setResults3]
  omega

theorem State.setResults3_res (s : State) (a b c : Word) :
    let t := s.setResults3 .a a b c
    t.res[0] = a ∧ t.res[1] = b ∧ t.res[2] = c := by
  simp [Parametric.State.setResults3]

/-- Settles O38: the two ends of `pop`, and which fields its results and bytes go to on each port. -/
theorem popReturnsTheOldestUnreadFrame : Obligations.PopReturnsTheOldestUnreadFrame := by
  rintro s o r rfl
  refine ⟨fun hempty => ?_, fun hunread d hd => ?_⟩
  · rw [exec_pop, exec_pop, popCommand_empty .a hempty, popCommand_empty .b hempty]
    exact ⟨rfl, rfl⟩
  · rw [exec_pop, exec_pop, popCommand_unread .a hunread hd, popCommand_unread .b hunread hd,
      ← State.setResults3_resb s d.size d.seq d.off]
    exact ⟨rfl, rfl⟩

/-! ### What a POP reads (R180, R186) -/

@[simp] theorem State.descBytes_length (d : Desc) : (s.descBytes o d).length = d.size.toNat := by
  rw [Parametric.State.descBytes, List.length_map, List.length_range]

theorem State.descBytes_getElem {d : Desc} {k : Nat} (hk : k < (s.descBytes o d).length) :
    (s.descBytes o d)[k] = s.omemByte o ((d.off.toNat + k) % (s.ring.get o).cap.toNat) := by
  simp only [Parametric.State.descBytes, List.getElem_map, List.getElem_range]

theorem State.omemByte_of_read {i : Nat} {b : Byte} (h : Memory.read (s.ring.get o).omem i = some b) :
    s.omemByte o i = b := by
  rw [Parametric.State.omemByte, h, Option.getD_some]

theorem State.descAt_of_read {slot : Nat} {d : Desc} (h : Memory.read (s.ring.get o).desc slot = some d) :
    s.descAt o slot = d := by
  rw [Parametric.State.descAt, h, Option.getD_some]

/-- A descriptor whose bytes the ring holds gives these bytes. -/
theorem State.descBytes_of_read {d : Desc} {bytes : List Byte} (hlen : d.size.toNat = bytes.length)
    (h : ∀ k, ∀ hk : k < bytes.length,
      Memory.read (s.ring.get o).omem ((d.off.toNat + k) % (s.ring.get o).cap.toNat) = some bytes[k]) :
    s.descBytes o d = bytes := by
  refine List.ext_getElem ((State.descBytes_length d).trans hlen) fun k hkd hk => ?_
  rw [State.descBytes_getElem hkd, State.omemByte_of_read (h k hk)]

/-- In a ring that keeps the invariant, the bytes of a listed descriptor are the ring's. -/
theorem State.read_omem_of_listed (hr : (s.ring.get o).Inv) {slot : Nat} {d : Desc}
    (hd : Memory.read (s.ring.get o).desc slot = some d) {k : Nat} (hk : k < (s.descBytes o d).length) :
    Memory.read (s.ring.get o).omem ((d.off.toNat + k) % (s.ring.get o).cap.toNat) = some (s.descBytes o d)[k] := by
  have hsize : k < d.size.toNat := by rwa [State.descBytes_length] at hk
  obtain ⟨b, hb⟩ := Option.isSome_iff_exists.1 (hr.descWritten _ (Memory.mem_of_read hd) k hsize)
  rw [State.descBytes_getElem hk, State.omemByte_of_read hb, hb]

/-- In a ring that keeps the invariant, the next descriptor of a queue that is not empty is listed. -/
theorem OutRing.Inv.listed_of_unread {r : OutRing} (hr : r.Inv) (h : r.frd ≠ r.fwr) :
    ∃ d, Memory.read r.desc r.frd.toNat = some d := by
  have hne : r.frd.toNat ≠ r.fwr.toNat := fun he => h (BitVec.eq_of_toNat_eq he)
  have hfrd := hr.frdLt
  have hfwr := hr.fwrLt
  have hlisted := hr.unreadListed 0 (by omega)
  rw [Nat.add_zero, Nat.mod_eq_of_lt hfrd] at hlisted
  exact Option.isSome_iff_exists.1 hlisted

/-- A frame stored in an empty queue is its one descriptor, and its bytes are the ring's: a POP returns it and leaves
the queue empty. -/
theorem exec_popB_of_storedFrame {r : OutRing} {bytes : List Byte} {sq : Word}
    (h : r.StoredFrame bytes sq (s.ring.get o)) (hempty : r.frd = r.fwr) (hfits : bytes.length < r.cap.toNat) :
    ∃ u, exec (.pop .b o) s = .next u ∧ u.statusb = 0 ∧ u.dataOutB = bytes ∧
      u.resb = #v[toWord bytes.length, sq, r.owr] ∧ (u.ring.get o).frd = (u.ring.get o).fwr := by
  have hfrd : (s.ring.get o).frd = r.fwr := h.frd.trans hempty
  have hnext : (s.ring.get o).fwr.toNat = (r.fwr.toNat + 1) % 42 := by rw [h.fwr]; exact slot_next_toNat r.fwr
  have hunread : (s.ring.get o).frd ≠ (s.ring.get o).fwr := by
    intro he
    rw [← he, hfrd] at hnext
    omega
  have hdesc := State.descAt_of_read (hfrd ▸ h.slot)
  have hbytes := State.descBytes_of_read (d := ⟨r.owr, sq, toWord bytes.length⟩)
    (toWord_toNat (hfits.trans r.cap.isLt)) (h.cap ▸ h.stored)
  rw [exec_pop, popCommand_unread .b hunread hdesc.symm]
  refine ⟨_, rfl, rfl, hbytes, State.setResults3_resb .., ?_⟩
  have hempties : toWord (((s.ring.get o).frd.toNat + 1) % 42) = (s.ring.get o).fwr := by rw [hfrd, h.fwr, toWord]
  simpa using hempties

/-- Settles O39: the frame is stored in the queue by PUSH, and taken from it by POP. -/
theorem pushedFrameIsPoppedIntact : Obligations.PushedFrameIsPoppedIntact := by
  intro s t o h0 h256 hcap hempty _ hpush
  obtain ⟨r', hstored, hnext⟩ := pushStoresTheFrame s o h0 h256 hcap
  have hring : t.ring.get o = r' := by
    rw [Host.Outcome.next.inj (hpush.symm.trans hnext)]
    exact PerStream.get_set_same s.ring o r'
  have hlen := lbuf_take_length (s := s) h256
  have hpop := exec_popB_of_storedFrame (hring ▸ hstored) hempty (by rwa [hlen])
  rwa [hlen, toWord_toNat_self] at hpop

/-- Settles O60: a POP takes the descriptor at `FRD`, which is listed, and gives its bytes, which are written. -/
theorem popReadsOnlyWrittenStorage : Obligations.PopReadsOnlyWrittenStorage := by
  intro s u p o hinv hunread hpop
  have hr := hinv.rings o
  obtain ⟨d, hd⟩ := hr.listed_of_unread hunread
  have hnext := popCommand_unread p hunread (State.descAt_of_read hd).symm
  obtain rfl := Host.Outcome.next.inj ((exec_pop p o s).symm.trans hpop)
  rw [hnext]
  have hlen := State.descBytes_length (s := s) (o := o) d
  have hbytes := fun k hk => State.read_omem_of_listed (k := k) hr hd hk
  cases p with
  | a =>
    obtain ⟨h0, h1, h2⟩ := State.setResults3_res s d.size d.seq d.off
    exact ⟨d, hd, congrArg₂ _ h0 (congrArg₂ _ h1 (congrArg (fun w => [w]) h2)), hlen, hbytes⟩
  | b => exact ⟨d, hd, congrArg Vector.toList (State.setResults3_resb s d.size d.seq d.off), hlen, hbytes⟩

end Sys2Proof.Machine
end

section
/-! SRST: the indices of each ring are zeroed once, and what the consumer does in the gaps after that finds the queue
empty (spec/46_control.md R200; spec/70_reset_and_hazards.md R254). -/

namespace Sys2Proof.Machine

variable {s t u : State} {o : StreamId}

/-! ### A consumer at an empty queue (R184) -/

/-- A POP leaves the other queues alone, and its own queue when it is empty. -/
theorem popCommand_ring_of_empty (p : Port) (q : StreamId) (h : (s.ring.get o).frd = (s.ring.get o).fwr) :
    (popCommand p q s).ring.get o = s.ring.get o := by
  by_cases ho : o = q
  · subst ho
    rw [popCommand_empty p h, State.finish_ring]
  · exact ((OpFrame.popCommand p q s).popOnly p q rfl o).2 ho

theorem serveConsumer_ring_of_empty (a : ConsumerAct) (h : (s.ring.get o).frd = (s.ring.get o).fwr) :
    (serveConsumer a s).ring.get o = s.ring.get o := by
  cases a with
  | read off => rfl
  | write off v =>
    by_cases hoff : off = cmdbOffset
    · have hcmdb : serveConsumer (.write off v) s = portBCommand v s := if_pos hoff
      rcases portBCommand_cases v s with ⟨q, -, hpop⟩ | ⟨e, -, hillegal⟩
      · rw [hcmdb, hpop]
        exact popCommand_ring_of_empty .b q h
      · rw [hcmdb, hillegal]
        rfl
    · have hother : serveConsumer (.write off v) s = s := if_neg hoff
      rw [hother]

theorem serveAll_ring_of_empty (acts : List ConsumerAct) (h : (s.ring.get o).frd = (s.ring.get o).fwr) :
    (serveAll acts s).ring.get o = s.ring.get o := by
  induction acts generalizing s with
  | nil => rfl
  | cons a acts ih =>
    have hfirst := serveConsumer_ring_of_empty a h
    exact (ih (by rw [hfirst, h])).trans hfirst

theorem consumerGap_ring_of_empty (h : (s.ring.get o).frd = (s.ring.get o).fwr) :
    (consumerGap s).ring.get o = s.ring.get o := by
  rcases hc : s.consumer with _ | ⟨batch, rest⟩
  · rw [consumerGap_nil hc]
  · rw [consumerGap, hc]
    exact serveAll_ring_of_empty batch h

/-! ### A ring with its indices zeroed (R200) -/

/-- The ring with its queue empty and its contents kept. -/
def OutRing.cleared (r : OutRing) : OutRing := { r with owr := 0, fwr := 0, frd := 0 }

theorem clearRing_ring_same (o : StreamId) (s : State) : (clearRing o s).ring.get o = (s.ring.get o).cleared :=
  PerStream.get_set_same ..

theorem clearRing_ring_ne {q : StreamId} (h : o ≠ q) (s : State) : (clearRing q s).ring.get o = s.ring.get o :=
  PerStream.get_set_ne _ _ h

/-- Popping moves only an index that is zeroed anyway. -/
theorem OutRing.cleared_of_popped {r r' : OutRing} (h : r.popped r') : r'.cleared = r.cleared := by
  rw [OutRing.popped] at h
  rw [h]
  rfl

/-! ### The ring updates of SRST, each with the gap after it (R200, R254) -/

/-- The rings `os` cleared in order, port B served after each update. -/
def clearRings (os : List StreamId) (s : State) : State :=
  os.foldl (fun s o => consumerGap (clearRing o s)) s

theorem exec_srst (s : State) :
    exec .srst s = .next (({ clearRings [.low, .high, .aud] (clearTracking s) with event := 0 }).finish .a .ok) := rfl

/-- One update and its gap keep the contents of every ring. -/
theorem clearThenGap_cleared (q o : StreamId) (s : State) :
    ((consumerGap (clearRing q s)).ring.get o).cleared = (s.ring.get o).cleared := by
  rw [OutRing.cleared_of_popped ((consumerGap_frame (clearRing q s)).ring o)]
  by_cases ho : o = q
  · rw [ho, clearRing_ring_same]
    rfl
  · rw [clearRing_ring_ne ho]

/-- One update and its gap leave the ring they clear, and every ring cleared before, with its indices zero. -/
theorem clearThenGap_ring {q : StreamId} (h : o = q ∨ (s.ring.get o).cleared = s.ring.get o) :
    (consumerGap (clearRing q s)).ring.get o = (s.ring.get o).cleared := by
  have hclear : (clearRing q s).ring.get o = (s.ring.get o).cleared := by
    by_cases ho : o = q
    · rw [ho, clearRing_ring_same]
    · rw [clearRing_ring_ne ho, h.resolve_left ho]
  rw [consumerGap_ring_of_empty (by rw [hclear]; rfl), hclear]

/-- Whatever the consumer does, the listed rings end cleared and a ring that was cleared stays so. -/
theorem clearRings_ring {os : List StreamId} (h : o ∈ os ∨ (s.ring.get o).cleared = s.ring.get o) :
    (clearRings os s).ring.get o = (s.ring.get o).cleared := by
  induction os generalizing s with
  | nil => exact (h.resolve_left List.not_mem_nil).symm
  | cons q os ih =>
    have hkeep := clearThenGap_cleared q o s
    refine (ih ?_).trans hkeep
    rw [List.mem_cons, or_right_comm] at h
    rcases h with hdone | hlater
    · exact .inr (hkeep.trans (clearThenGap_ring hdone).symm)
    · exact .inl hlater

/-- With no consumer acting the gaps do nothing. -/
theorem clearRings_idle (os : List StreamId) (h : s.consumer = []) :
    clearRings os s = os.foldl (fun s o => clearRing o s) s := by
  induction os generalizing s with
  | nil => rfl
  | cons q os ih =>
    have hgap : consumerGap (clearRing q s) = clearRing q s := consumerGap_nil h
    rw [clearRings, List.foldl_cons, hgap]
    exact ih h

/-! ### What the ring updates and their gaps leave alone -/

/-- State `t` is state `s` but for the rings, `EVENT`, port B's own registers and channel, and the schedule. -/
def SameBesidesRings (s t : State) : Prop :=
  t = { s with ring := t.ring, event := t.event, cmdb := t.cmdb, statusb := t.statusb, resb := t.resb,
               rdataB := t.rdataB, dataOutB := t.dataOutB, consumer := t.consumer }

theorem SameBesidesRings.trans (h : SameBesidesRings s t) (h' : SameBesidesRings t u) : SameBesidesRings s u := by
  unfold SameBesidesRings at *
  rw [h] at h'
  exact h'

theorem ConsumerFrame.sameBesidesRings (h : ConsumerFrame s t) : SameBesidesRings s t := by
  obtain ⟨ev, -, heq⟩ := h.eq
  rw [SameBesidesRings, heq]

theorem clearRings_sameBesidesRings (os : List StreamId) (s : State) : SameBesidesRings s (clearRings os s) := by
  induction os generalizing s with
  | nil => rfl
  | cons q os ih =>
    have hclear : SameBesidesRings s (clearRing q s) := rfl
    exact (hclear.trans (consumerGap_frame _).sameBesidesRings).trans (ih _)

/-! ### SRST -/

/-- Settles O42: each ring is cleared once and stays empty, and the rest is written outside the ring updates. -/
theorem srstEmptiesQueuesUnderAnyConsumer : Obligations.SrstEmptiesQueuesUnderAnyConsumer := by
  intro s t h
  obtain rfl := Host.Outcome.next.inj ((exec_srst s).symm.trans h)
  have hkept := clearRings_sameBesidesRings [.low, .high, .aud] (clearTracking s)
  refine ⟨congrArg (·.cur) hkept, congrArg (·.curValid) hkept, rfl, rfl, congrArg (·.res) hkept,
    congrArg (·.ctrl) hkept, fun o => ⟨?_, ?_⟩⟩
  · have hmem : o ∈ [StreamId.low, .high, .aud] := by cases o <;> decide
    exact clearRings_ring (s := clearTracking s) (.inl hmem)
  · calc (clearRings [.low, .high, .aud] (clearTracking s)).resync.get o
        = (clearTracking s).resync.get o := congrArg (·.resync.get o) hkept
      _ = Resync.zero := by cases o <;> rfl

/-- Settles O41: with no consumer acting only the updates themselves are left. -/
theorem srstClearsCursorTrackingAndQueues : Obligations.SrstClearsCursorTrackingAndQueues := by
  intro s hidle
  rw [exec_srst, clearRings_idle _ (s := clearTracking s) hidle]
  rfl

end Sys2Proof.Machine
end

section
/-! How every operation finishes: an outcome code in the status register of its own port, and port B left alone by an
operation of port A (spec/30_encoding.md R83, R84; spec/60_exceptions.md R210). -/

namespace Sys2Proof

/-- The operations whose meaning names no geometry register (R213). -/
def Instr.ignoresGeometry : Instr → Bool
  | .route | .seqw _ | .seql _ | .push _ | .pop _ _ | .srst => true
  | _ => false

namespace Machine

/-- Port B's status, results and data-out channel, and what the consumer still does. -/
def Parametric.State.portB {P : Params} (s : Parametric.State P) :
    Word × Vector Word 3 × List Byte × List (List ConsumerAct) :=
  (s.statusb, s.resb, s.dataOutB, s.consumer)

/-- State `t` is one in which an operation of port A begun in state `s` has finished with code `c`. -/
structure Finished (s t : State) (c : StatusCode) : Prop where
  status : t.status = c.word
  portB : s.consumer = [] → t.portB = s.portB

/-- Operation `i` of port A finishes, and not with `ST_ERR_CFG` if it ignores the geometry. -/
def Finishes (i : Instr) (s : State) (o : Host.Outcome State Fault Refusal) : Prop :=
  ∃ t c, o = .next t ∧ Finished s t c ∧ (i.ignoresGeometry = true → c ≠ .errCfg)

variable {i : Instr} {s t u : State} {c : StatusCode}

theorem Finished.finish (c : StatusCode) (h : s.consumer = [] → u.portB = s.portB) : Finished s (u.finish .a c) c :=
  ⟨rfl, h⟩

/-- An operation that goes on from a state in which port B is as it was. -/
theorem Finished.of_portB (hu : u.portB = s.portB) (h : ∃ c, Finished u t c) : ∃ c, Finished s t c := by
  obtain ⟨c, hstatus, hkept⟩ := h
  exact ⟨c, hstatus, fun hc => (hkept ((congrArg (·.2.2.2) hu).trans hc)).trans hu⟩

theorem Finishes.finish {c : StatusCode} (hc : i.ignoresGeometry = true → c ≠ .errCfg)
    (h : s.consumer = [] → u.portB = s.portB) : Finishes i s (.next (u.finish .a c)) :=
  ⟨_, c, rfl, .finish c h, hc⟩

/-- The end of an operation that may report any code. -/
theorem Finishes.of_finished (hi : i.ignoresGeometry = false) (h : ∃ c, Finished s t c) : Finishes i s (.next t) := by
  obtain ⟨c, hc⟩ := h
  exact ⟨t, c, rfl, hc, fun hi' => absurd (hi.symm.trans hi') (by decide)⟩

theorem Finishes.errCfg (hi : i.ignoresGeometry = false) (s : State) : Finishes i s (.next s.errCfg) :=
  .of_finished hi ⟨_, .finish .errCfg fun _ => rfl⟩

theorem Finishes.errRange (i : Instr) (s : State) : Finishes i s (.next s.errRange) :=
  .finish (fun _ => by decide) fun _ => rfl

/-! ### What the updates and the shared operations leave of port B -/

section Updates

variable (s : State)

@[simp] theorem State.raise_portB (e : Event) : (s.raise e).portB = s.portB := rfl
@[simp] theorem State.setInput_portB (inp : InputRing) : (s.setInput inp).portB = s.portB := rfl
@[simp] theorem State.setCur_portB (a : Nat) : (s.setCur a).portB = s.portB := rfl
@[simp] theorem State.initCur_portB (a : Nat) : (s.initCur a).portB = s.portB := rfl
@[simp] theorem State.setRes_portB (j : Fin 5) (v : Word) : (s.setRes j v).portB = s.portB := rfl
@[simp] theorem State.setResults5_portB (v0 v1 v2 v3 v4 : Word) :
    (s.setResults5 v0 v1 v2 v3 v4).portB = s.portB := rfl
@[simp] theorem pollsAt_portB (i1 : Nat) : (pollsAt i1 s).portB = s.portB := rfl
@[simp] theorem pollsBoth_portB (i1 i2 : Nat) (inp : InputRing) : (pollsBoth i1 i2 inp s).portB = s.portB := by
  simp [pollsBoth]
@[simp] theorem pollsHeader_portB (hd : Hdr) (inp : InputRing) : (pollsHeader hd inp s).portB = s.portB := by
  simp [pollsHeader]

end Updates

theorem push_portB (o : StreamId) (bytes : List Byte) (sq : Word) (s : State) :
    (push o bytes sq s).2.portB = s.portB := by
  rcases push_cases o bytes sq s with ⟨-, h⟩ | ⟨-, -, h⟩ | ⟨-, -, h⟩ <;> rw [h] <;> rfl

theorem emit_portB (st : StreamId) (a n : Nat) (sq : Word) (isSps : Bool) (s : State) :
    (emit st a n sq isSps s).2.portB = s.portB := by
  obtain ⟨_, _, _, h, -⟩ := emit_frame st a n sq isSps s
  rw [h]
  rfl

theorem deliver_portB (v : Variant) (hd : Hdr) (pay : Nat) (isSps : Bool) (s : State) :
    (deliver v hd pay isSps s).2.portB = s.portB := by
  obtain ⟨_, _, _, _, h, -⟩ := deliver_frame v hd pay isSps s
  rw [h]
  rfl

theorem deliverBatch_portB (tab : List (Nat × Hdr)) (h : s.consumer = []) :
    (deliverBatch tab s).2.portB = s.portB := by
  obtain ⟨hconsumer, -, hstatusb, hresb, -, hdataOut, -⟩ := (deliverBatch_frame tab s).quiet h
  rw [Parametric.State.portB, Parametric.State.portB, hconsumer, hstatusb, hresb, hdataOut, h]

theorem clearRing_portB (o : StreamId) (s : State) : (clearRing o s).portB = s.portB := rfl

theorem clearRings_portB (os : List StreamId) (h : s.consumer = []) : (clearRings os s).portB = s.portB := by
  rw [clearRings_idle os h]
  clear h
  induction os generalizing s with
  | nil => rfl
  | cons o os ih => exact (ih (s := clearRing o s)).trans (clearRing_portB o s)

theorem seqWindow_portB (st : StreamId) (c : Half) (s : State) : (seqWindow st c s).2.2.portB = s.portB := by
  rcases seqWindow_cases st c s with ⟨-, h⟩ | ⟨-, -, h⟩ | ⟨-, -, -, h⟩ | ⟨-, -, -, h⟩ <;> rw [h] <;> rfl

theorem seqWindow_code (st : StreamId) (c : Half) (s : State) : (seqWindow st c s).1 ≠ .errCfg := by
  rcases seqWindow_cases st c s with ⟨-, h⟩ | ⟨-, -, h⟩ | ⟨-, -, -, h⟩ | ⟨-, -, -, h⟩ <;> rw [h] <;>
    exact StatusCode.noConfusion

theorem seqLoss_portB (st : StreamId) (c : Half) (s : State) : (seqLoss st c s).2.portB = s.portB := by
  simp only [seqLoss]
  split
  · rfl
  split <;> rfl

/-- The refusals of `push` are its own (R180). -/
theorem push_code {o : StreamId} {bytes : List Byte} {sq : Word} (h : (push o bytes sq s).1 = .error c) :
    c ≠ .errCfg := by
  rcases push_cases o bytes sq s with ⟨-, he⟩ | ⟨-, -, he⟩ | ⟨-, -, he⟩ <;> rw [he] at h <;> cases h <;> decide

/-- The end of PUSH and EMIT: the code of the refusal, or `ST_OK`. -/
theorem finishStored_finished {r : Except StatusCode Stored × State} (h : r.2.portB = s.portB) :
    Finished s (finishStored r) (outcomeCode r.1) := by
  obtain ⟨c | v, t⟩ := r
  · exact .finish c fun _ => h
  · exact .finish .ok fun _ => h

/-! ### Locator, codec, classification, sequence, rings -/

theorem execMove_finishes (s : State) : Finishes .move s (execMove s) := by
  simp only [execMove]
  split
  · exact .errCfg rfl s
  split
  · exact .errRange _ s
  · exact .finish nofun fun _ => rfl

theorem execFind_finishes (s : State) : Finishes .find s (execFind s) := by
  simp only [execFind]
  split
  · exact .errCfg rfl s
  split
  · exact .errRange _ s
  split
  · exact .finish nofun fun _ => rfl
  · exact .finish nofun fun _ => rfl

theorem execCmp_finishes (s : State) : Finishes .cmp s (execCmp s) := by
  simp only [execCmp]
  split
  · exact .errCfg rfl s
  split
  · exact .errRange _ s
  · exact .finish nofun fun _ => rfl

theorem execCopy_finishes (s : State) : Finishes .copy s (execCopy s) := by
  simp only [execCopy]
  split
  · exact .errCfg rfl s
  split
  · exact .errRange _ s
  · exact .finish nofun fun _ => rfl

theorem execHdec_finishes (s : State) : Finishes .hdec s (execHdec s) := by
  simp only [execHdec]
  split
  · exact .errCfg rfl s
  split
  · exact .errRange _ s
  · exact .finish nofun fun _ => rfl

theorem execRoute_finishes (s : State) : Finishes .route s (execRoute s) := by
  simp only [execRoute]
  split
  · exact .finish (fun _ => by decide) fun _ => rfl
  · exact .finish (fun _ => by decide) fun _ => rfl

theorem execSeqw_finishes (st : StreamId) (s : State) : Finishes (.seqw st) s (execSeqw st s) :=
  .finish (fun _ => seqWindow_code st _ s) fun _ => seqWindow_portB st _ s

theorem execSeql_finishes (st : StreamId) (s : State) : Finishes (.seql st) s (execSeql st s) :=
  .finish (fun _ => by decide) fun _ => seqLoss_portB st _ s

theorem execEmit_finishes (st : StreamId) (s : State) : Finishes (.emit st) s (execEmit st s) := by
  simp only [execEmit]
  split
  · exact .errCfg rfl s
  split
  · exact .errRange _ s
  · exact .of_finished rfl ⟨_, finishStored_finished (emit_portB ..)⟩

theorem execPush_finishes (o : StreamId) (s : State) : Finishes (.push o) s (execPush o s) := by
  simp only [execPush]
  split
  · exact .errRange _ s
  · refine ⟨_, _, rfl, finishStored_finished (push_portB ..), fun _ => ?_⟩
    cases hr : (push o (s.lbuf.toList.take (s.argNat 1)) s.arg[2] s).1 with
    | ok v => exact StatusCode.noConfusion
    | error c => exact push_code hr

theorem execPopA_finishes (o : StreamId) (s : State) : Finishes (.pop .a o) s (execPop .a o s) := by
  rw [execPop]
  rcases popCommand_cases .a o s with ⟨-, h⟩ | ⟨-, h⟩ <;> rw [h]
  · exact .finish (fun _ => by decide) fun _ => rfl
  · exact .finish (fun _ => by decide) fun _ => rfl

theorem execSrst_finishes (s : State) : Finishes .srst s (exec .srst s) := by
  rw [exec_srst]
  have hkept : (clearTracking s).portB = s.portB := rfl
  exact .finish (fun _ => by decide) fun hc => (clearRings_portB _ (s := clearTracking s) hc).trans hkept

/-! ### POLLS (spec/43_demux.md R150) -/

theorem pollsFrame_finished (i1 i2 : Nat) (k : NalKind) (s : State) : ∃ c, Finished s (pollsFrame i1 i2 k s) c := by
  rcases hdec : decodeHdr s.geom s.layout (s.geom.move i1 (-(headerBack s.hdrSize.toNat k : Int))) s.input with
    ⟨hd, inp⟩
  by_cases hl : hd.length.toNat < s.geom.dist i1 i2
  · rw [pollsFrame_deliver hdec hl (Prod.eta _).symm]
    exact ⟨_, .finish _ fun _ => by simp [deliver_portB]⟩
  · rw [pollsFrame_drop hdec (not_lt.1 hl)]
    exact ⟨_, .finish _ fun _ => by simp⟩

theorem pollsSecond_finished (i1 wr : Nat) (s : State) : ∃ c, Finished s (pollsSecond i1 wr s) c := by
  rcases hf : findWin s.geom (s.geom.move i1 4) (s.geom.dist (s.geom.move i1 4) wr) Config.params.startCode s.input with
    ⟨_ | i2, inp⟩
  · rw [pollsSecond_noSecond hf]
    exact ⟨_, .finish _ fun _ => by simp⟩
  · rw [pollsSecond_second hf]
    split
    · exact ⟨_, .finish _ fun _ => by simp⟩
    · exact Finished.of_portB (pollsBoth_portB ..) (pollsFrame_finished ..)

theorem pollsSampled_finished (wr : Nat) (s : State) : ∃ c, Finished s (pollsSampled wr s) c := by
  by_cases hv : s.curValid = true
  · rcases hf : findWin s.geom s.cur.toNat (s.geom.dist s.cur.toNat wr) Config.params.startCode s.input with
      ⟨_ | i1, inp⟩
    · rw [pollsSampled_noFirst hv hf]
      exact ⟨_, .finish _ fun _ => by simp⟩
    · rw [pollsSampled_first hv hf]
      exact Finished.of_portB (State.setInput_portB ..) (pollsSecond_finished ..)
  · rw [pollsSampled_init wr (by simpa using hv)]
    exact ⟨_, .finish _ fun _ => by simp⟩

theorem execPolls_finishes (s : State) : Finishes .polls s (execPolls s) := by
  simp only [execPolls]
  split
  · exact .errCfg rfl s
  split
  · exact .finish nofun fun _ => rfl
  split
  · exact .finish nofun fun _ => rfl
  · exact .of_finished rfl (Finished.of_portB (State.setInput_portB ..) (pollsSampled_finished ..))

/-! ### POLLC (R160) -/

theorem pollcSampled_finished (stop : Nat) (s : State) : ∃ c, Finished s (pollcSampled stop s) c := by
  simp only [pollcSampled]
  split
  · exact ⟨_, .finish _ fun _ => by simp⟩
  split
  · exact ⟨_, .finish _ fun _ => by simp⟩
  split
  · exact ⟨_, .finish _ fun _ => by simp⟩
  · rw [pollcDone_eq rfl]
    exact ⟨_, .finish _ fun hc => deliverBatch_portB (s := s.setInput _) _ hc⟩

theorem execPollc_finishes (s : State) : Finishes .pollc s (execPollc s) := by
  simp only [execPollc]
  split
  · exact .errCfg rfl s
  split
  · exact .finish nofun fun _ => rfl
  split
  · exact .finish nofun fun _ => rfl
  · exact .of_finished rfl (Finished.of_portB (State.setInput_portB ..) (pollcSampled_finished ..))

/-! ### Every operation -/

theorem exec_finishes (s : State) (h : i.port = .a) : Finishes i s (exec i s) := by
  cases i with
  | move => exact execMove_finishes s
  | find => exact execFind_finishes s
  | cmp => exact execCmp_finishes s
  | copy => exact execCopy_finishes s
  | hdec => exact execHdec_finishes s
  | route => exact execRoute_finishes s
  | seqw st => exact execSeqw_finishes st s
  | seql st => exact execSeql_finishes st s
  | polls => exact execPolls_finishes s
  | pollc => exact execPollc_finishes s
  | emit st => exact execEmit_finishes st s
  | push o => exact execPush_finishes o s
  | pop p o =>
    obtain rfl : p = .a := h
    exact execPopA_finishes o s
  | srst => exact execSrst_finishes s

/-- The only operation of port B is POP. -/
theorem Instr.eq_pop_of_port_b (h : i.port = .b) : ∃ o, i = .pop .b o := by
  cases i with
  | pop p o =>
    obtain rfl : p = .b := h
    exact ⟨o, rfl⟩
  | _ => cases h

/-- Settles O43: every branch of an operation of port A ends in `finish`, and a POP on port B in one of its two
codes. -/
theorem everyOperationFinishes : Obligations.EveryOperationFinishes := by
  intro i s
  cases hp : i.port with
  | a =>
    obtain ⟨t, c, ht, hf, -⟩ := exec_finishes s hp
    refine ⟨t, c, ht, hf.status, fun hc => ?_⟩
    have hb := hf.portB hc
    exact ⟨congrArg (·.1) hb, congrArg (·.2.1) hb, congrArg (·.2.2.1) hb⟩
  | b =>
    obtain ⟨o, rfl⟩ := Instr.eq_pop_of_port_b hp
    obtain ⟨c, _, _, _, h, -⟩ := popB_frame o s
    exact ⟨_, c, (exec_pop .b o s).trans (congrArg _ h), rfl, rfl, rfl, rfl⟩

end Machine
end Sys2Proof
end

section
/-! Accesses outside the operations: what the consumer reads and leaves alone, and that no mapped access stops the
machine (spec/10_state.md R25, R26; spec/60_exceptions.md R210, R220). -/

namespace Sys2Proof.Machine

variable {s t : State} {off : Nat}

/-! ### Reads of the consumer (R220) -/

/-- In the output-ring registers and the descriptor windows the consumer reads what the master would. -/
theorem portBRead_window (s : State) (h : off % 4 = 0)
    (hwin : (0xC0 ≤ off ∧ off ≤ 0xFC) ∨ (0x1000 ≤ off ∧ off ≤ 0x1BFC)) : s.portBRead off = s.regRead off := by
  rw [Parametric.State.portBRead, if_neg (by omega), if_neg (by omega), if_neg (by omega), if_neg (by omega),
    if_neg (by omega), if_pos ⟨h, hwin⟩]

theorem portBRead_resb (s : State) {i : Nat} {w : Word} (h : s.resb[i]? = some w) :
    s.portBRead (0x2008 + 4 * i) = w := by
  obtain ⟨hi, rfl⟩ := Vector.getElem?_eq_some_iff.1 h
  match i, hi with
  | 0, _ | 1, _ | 2, _ => rfl

theorem portBRead_elsewhere (s : State) (hown : ¬(0x2000 ≤ off ∧ off ≤ 0x2010)) (hring : ¬(0xC0 ≤ off ∧ off ≤ 0xFC))
    (hdesc : ¬(0x1000 ≤ off ∧ off ≤ 0x1BFC)) : s.portBRead off = 0 := by
  rw [Parametric.State.portBRead, if_neg (by omega), if_neg (by omega), if_neg (by omega), if_neg (by omega),
    if_neg (by omega), if_neg (by omega)]

theorem serveConsumer_read (s : State) (off : Nat) :
    serveConsumer (.read off) s = { s with rdataB := s.portBRead off } := rfl

theorem serveConsumer_write_ne (s : State) (v : Word) (h : off ≠ 0x2000) : serveConsumer (.write off v) s = s :=
  if_neg h

/-- The value a master's read answers is that of the register. -/
theorem regRead_of_masterRead {w : Word} (h : masterRead off s = .next { s with rdataA := w }) : s.regRead off = w := by
  rw [masterRead] at h
  split at h
  · cases h
  · exact congrArg (·.rdataA) (Host.Outcome.next.inj h)

/-- Settles O52: the frame is `ConsumerFrame`, and a read is one of `portBRead`. -/
theorem consumerTouchesOnlyItsOwn : Obligations.ConsumerTouchesOnlyItsOwn := by
  intro s t a h
  obtain rfl := Host.Outcome.next.inj ((consumerAccess_eq a s).symm.trans h)
  obtain ⟨⟨ev, hev, q⟩, hring, -, -⟩ := serveConsumer_frame a s
  have hevent : (serveConsumer a s).event = s.event ∨ (serveConsumer a s).event = s.event ||| 0x800 := by
    rw [q]
    rcases hev with rfl | rfl
    · exact .inl BitVec.or_zero
    · exact .inr rfl
  refine ⟨?_, ?_, ?_, ?_, ?_, ?_, ?_, ?_, hevent, ?_, ?_, ?_, ?_, ?_, ?_, ?_, ?_, ?_, ?_, hring, ?cmdb, ?statusb, ?resb,
    ?window, ?elsewhere, ?read, ?write⟩
  case cmdb | statusb =>
    rintro rfl
    rfl
  case resb =>
    rintro i w hw rfl
    exact portBRead_resb s hw
  case window =>
    rintro off w rfl h0 hwin hmaster
    exact (portBRead_window s h0 hwin).trans (regRead_of_masterRead hmaster)
  case elsewhere =>
    rintro off rfl hown hring hdesc
    exact portBRead_elsewhere s hown hring hdesc
  case read =>
    rintro off rfl
    rfl
  case write =>
    rintro off v rfl hoff
    exact serveConsumer_write_ne s v hoff
  all_goals rw [q]

/-! ### Steps that do not stop (R210) -/

theorem OpFrame.inbox {i : Instr} (h : OpFrame i s t) : t.inbox = s.inbox := congrArg (·.inbox) h.eq

theorem runCommand_inbox (p : Port) (w : Word) (s : State) : ∃ t, runCommand p w s = .next t ∧ t.inbox = s.inbox := by
  cases hd : decode p w with
  | error e => exact ⟨_, runCommand_illegal hd, by cases p <;> rfl⟩
  | ok i =>
    obtain ⟨t, ht, hf⟩ := exec_answers i s
    exact ⟨t, (runCommand_legal hd).trans ht, hf.inbox⟩

theorem regWrite_inbox (s : State) (off : Nat) (v : Word) : (s.regWrite off v).inbox = s.inbox := by
  have branch {c : Prop} [Decidable c] {a b : State} (ha : a.inbox = s.inbox) (hb : b.inbox = s.inbox) :
      (if c then a else b).inbox = s.inbox :=
    iteInduction (motive := fun t : State => t.inbox = s.inbox) (fun _ => ha) (fun _ => hb)
  refine branch rfl <| branch rfl <| branch rfl <| branch rfl <| branch rfl <| branch rfl <| branch rfl <| branch rfl <|
    branch rfl <| branch ?_ rfl
  split <;> rfl

theorem masterWrite_inbox (s : State) (v : Word) (h : masterMayAccess off = true) :
    ∃ t, masterWrite off v s = .next t ∧ t.inbox = s.inbox := by
  obtain ⟨h0, h1⟩ := of_decide_eq_true h
  by_cases hcmd : off = 0x10
  · subst hcmd
    exact runCommand_inbox .a v { s with cmd := v }
  · exact ⟨_, masterWrite_register s v h0 h1 hcmd, regWrite_inbox s off v⟩

/-- A mapped access is performed, and leaves the accesses still to come. -/
theorem perform_inbox {a : HostAct} (h : a.mapped = true) (s : State) :
    ∃ t, performWith exec a s = .next t ∧ t.inbox = s.inbox := by
  cases a with
  | masterRead off =>
    obtain ⟨h0, h1⟩ := of_decide_eq_true (show masterMayAccess off = true from h)
    exact ⟨_, masterRead_register h0 h1 rfl, rfl⟩
  | masterWrite off v => exact masterWrite_inbox s v h
  | consumer c =>
    obtain ⟨_, -, q⟩ := (serveConsumer_frame c s).eq
    exact ⟨_, consumerAccess_eq c s, congrArg (·.inbox) q⟩
  | produce c => exact ⟨_, rfl, rfl⟩
  | resetInput => exact ⟨_, rfl, rfl⟩

/-- Settles O59: the step performs the first access, which is mapped, and leaves the others in the inbox. -/
theorem mappedAccessesNeverStop : Obligations.MappedAccessesNeverStop := by
  intro s hs
  rcases hin : s.inbox with _ | ⟨a, rest⟩
  · exact ⟨s, step_nil hin, hs⟩
  · obtain ⟨t, ht, hrest⟩ := perform_inbox (hs a (by rw [hin]; exact List.mem_cons_self)) { s with inbox := rest }
    refine ⟨t, (step_cons hin).trans ht, fun b hb => hs b ?_⟩
    rw [hrest] at hb
    rw [hin]
    exact List.mem_cons_of_mem a hb

end Sys2Proof.Machine
end

section
/-! Refused configurations and operands: which branch of an operation refuses, and that nothing else happens
(spec/60_exceptions.md R212, R213). -/

namespace Sys2Proof.Machine

/-- The state with other values in the geometry registers. -/
def Parametric.State.withGeometry {P : Params} (s : Parametric.State P) (x y z : Word) : Parametric.State P :=
  { s with bufOffset := x, bufSize := y, hdrSize := z }

variable {s : State}

/-! ### Refused configurations (R213) -/

theorem execFind_errCfg (hg : s.geomOk = false) : execFind s = .next s.errCfg := if_pos hg
theorem execCmp_errCfg (hg : s.geomOk = false) : execCmp s = .next s.errCfg := if_pos hg
theorem execCopy_errCfg (hg : s.geomOk = false) : execCopy s = .next s.errCfg := if_pos hg
theorem execEmit_errCfg (st : StreamId) (hg : s.geomOk = false) : execEmit st s = .next s.errCfg := if_pos hg
theorem execHdec_errCfg (h : s.hdrOk = false) : execHdec s = .next s.errCfg := if_pos h

/-! ### Refused operands (R212) -/

theorem execFind_errRange (hg : s.geomOk = true)
    (h : ¬(s.geom.isRing (s.argNat 0) = true ∧ (-(s.geom.span : Int) < s.argInt 1 ∧ s.argInt 1 < s.geom.span) ∧
      (1 ≤ s.argNat 2 ∧ s.argNat 2 ≤ 16))) : execFind s = .next s.errRange :=
  (if_neg (by simp [hg])).trans (if_pos h)

theorem bufferDomain_eq_false_iff (g : Geom) (a n : Nat) :
    bufferDomain g a n = false ↔ ¬ g.isRing a = true ∨ 256 < n ∨ g.span ≤ n := by
  rw [← Bool.not_eq_true, bufferDomain, Bool.and_eq_true, decide_eq_true_eq, not_and_or, not_and_or, not_le, not_lt]

theorem execCmp_errRange (hg : s.geomOk = true) (h : bufferDomain s.geom (s.argNat 0) (s.argNat 2) = false) :
    execCmp s = .next s.errRange :=
  (if_neg (by simp [hg])).trans (if_pos h)

theorem execCopy_errRange (hg : s.geomOk = true) (h : bufferDomain s.geom (s.argNat 0) (s.argNat 2) = false) :
    execCopy s = .next s.errRange :=
  (if_neg (by simp [hg])).trans (if_pos h)

theorem execEmit_errRange (st : StreamId) (hg : s.geomOk = true)
    (h : ¬(s.geom.isRing (s.argNat 0) = true ∧ s.argNat 1 < s.geom.span)) : execEmit st s = .next s.errRange :=
  (if_neg (by simp [hg])).trans (if_pos h)

theorem execHdec_errRange (hok : s.hdrOk = true) (h : s.geom.isRing (s.argNat 0) = false) :
    execHdec s = .next s.errRange :=
  (if_neg (by simp [hok])).trans (if_pos h)

theorem execPush_errRange (o : StreamId) (h : 256 < s.argNat 1) : execPush o s = .next s.errRange := if_pos h

/-- Settles O16: an operand outside its domain takes the branch that refuses. -/
theorem operandOutsideDomain : Obligations.OperandOutsideDomain := by
  intro s refusal notRing span
  have hring : notRing ↔ ¬ s.geom.isRing (s.argNat 0) = true := not_congr (State.isRing_iff s (s.argNat 0)).symm
  refine ⟨fun hg => ⟨fun h => ?move, fun h => ?find, fun h => ?buffer, fun h st => ?emit⟩, fun hok h => ?hdec,
    fun h o => execPush_errRange o h⟩
  case move =>
    rw [hring, ← not_and_or] at h
    exact execMove_errRange hg h
  case find =>
    rw [hring, ← not_and_or, ← not_and_or] at h
    exact execFind_errRange hg h
  case buffer =>
    rw [hring] at h
    have hdom := (bufferDomain_eq_false_iff ..).2 h
    exact ⟨execCmp_errRange hg hdom, execCopy_errRange hg hdom⟩
  case emit =>
    rw [hring, ← not_lt, ← not_and_or] at h
    exact execEmit_errRange st hg h
  case hdec => exact execHdec_errRange hok (Bool.not_eq_true _ ▸ hring.1 h)

/-! ### The operations that ignore the geometry (R213) -/

/-- The operation neither reads nor writes a geometry register: it commutes with replacing them. -/
def IgnoresGeometry (f : State → State) : Prop :=
  ∀ s x y z, f (s.withGeometry x y z) = (f s).withGeometry x y z

theorem IgnoresGeometry.comp {f f' : State → State} (h' : IgnoresGeometry f') (h : IgnoresGeometry f) :
    IgnoresGeometry fun s => f' (f s) :=
  fun s x y z => (congrArg f' (h s x y z)).trans (h' (f s) x y z)

section Geometry

variable (s : State) (x y z : Word)

theorem State.withGeometry_resync : (s.withGeometry x y z).resync = s.resync := rfl
theorem State.withGeometry_ring : (s.withGeometry x y z).ring = s.ring := rfl
theorem State.withGeometry_pat : (s.withGeometry x y z).pat = s.pat := rfl
theorem State.withGeometry_lbuf : (s.withGeometry x y z).lbuf = s.lbuf := rfl
theorem State.withGeometry_sig : (s.withGeometry x y z).sig = s.sig := rfl
theorem State.withGeometry_spslut : (s.withGeometry x y z).spslut = s.spslut := rfl
theorem State.withGeometry_cmdb : (s.withGeometry x y z).cmdb = s.cmdb := rfl
theorem State.withGeometry_statusb : (s.withGeometry x y z).statusb = s.statusb := rfl
theorem State.withGeometry_resb : (s.withGeometry x y z).resb = s.resb := rfl
theorem State.withGeometry_consumer : (s.withGeometry x y z).consumer = s.consumer := rfl
theorem State.withGeometry_descRegRead (j : Nat) : (s.withGeometry x y z).descRegRead j = s.descRegRead j := rfl
theorem State.withGeometry_argHalf (j : Fin 4) : (s.withGeometry x y z).argHalf j = s.argHalf j := rfl

/-- The geometry registers are read at the control offsets alone (spec/10_state.md R25). -/
theorem State.withGeometry_regRead {off : Nat} (h : 0x80 ≤ off) :
    (s.withGeometry x y z).regRead off = s.regRead off := by
  unfold Parametric.State.regRead
  rw [if_neg (not_lt.2 h), if_neg (not_lt.2 h), State.withGeometry_descRegRead, State.withGeometry_resync,
    State.withGeometry_ring, State.withGeometry_pat, State.withGeometry_sig, State.withGeometry_lbuf,
    State.withGeometry_spslut]

/-- Port B reads no geometry register (spec/60_exceptions.md R220). -/
theorem State.withGeometry_portBRead (off : Nat) : (s.withGeometry x y z).portBRead off = s.portBRead off := by
  by_cases h : 0x80 ≤ off
  · simp only [Parametric.State.portBRead, State.withGeometry_regRead s x y z h, State.withGeometry_cmdb,
      State.withGeometry_statusb, State.withGeometry_resb]
  · rw [portBRead_elsewhere _ (by omega) (by omega) (by omega), portBRead_elsewhere _ (by omega) (by omega) (by omega)]

theorem seqWindow_withGeometry (st : StreamId) (c : Half) :
    seqWindow st c (s.withGeometry x y z) =
      ((seqWindow st c s).1, (seqWindow st c s).2.1, (seqWindow st c s).2.2.withGeometry x y z) := by
  simp only [seqWindow]
  rw [State.withGeometry_resync]
  split
  · rfl
  split
  · rfl
  split <;> rfl

theorem seqLoss_withGeometry (st : StreamId) (c : Half) :
    seqLoss st c (s.withGeometry x y z) = ((seqLoss st c s).1, (seqLoss st c s).2.withGeometry x y z) := by
  simp only [seqLoss]
  rw [State.withGeometry_resync]
  split
  · rfl
  split <;> rfl

theorem push_withGeometry (o : StreamId) (bytes : List Byte) (sq : Word) :
    push o bytes sq (s.withGeometry x y z) =
      ((push o bytes sq s).1, (push o bytes sq s).2.withGeometry x y z) := by
  simp only [push]
  rw [State.withGeometry_ring]
  split
  · rfl
  split <;> rfl

theorem finishStored_withGeometry (r : Except StatusCode Stored × State) :
    finishStored (r.1, r.2.withGeometry x y z) = (finishStored r).withGeometry x y z := by
  obtain ⟨c | v, t⟩ := r <;> rfl

end Geometry

theorem popCommand_ignoresGeometry (p : Port) (o : StreamId) : IgnoresGeometry (popCommand p o) := by
  intro s x y z
  simp only [popCommand]
  rw [State.withGeometry_ring]
  split <;> cases p <;> rfl

theorem portBCommand_ignoresGeometry (w : Word) : IgnoresGeometry (portBCommand w) := by
  intro s x y z
  rcases portBCommand_cases w s with ⟨o, hd, -⟩ | ⟨e, hd, -⟩
  · rw [portBCommand_pop hd, portBCommand_pop hd]
    exact popCommand_ignoresGeometry .b o { s with cmdb := w } x y z
  · rw [portBCommand_illegal hd, portBCommand_illegal hd]
    rfl

theorem serveConsumer_ignoresGeometry (a : ConsumerAct) : IgnoresGeometry (serveConsumer a) := by
  intro s x y z
  cases a with
  | read off =>
    rw [serveConsumer_read, serveConsumer_read, State.withGeometry_portBRead]
    rfl
  | write off v =>
    simp only [serveConsumer]
    split
    · exact portBCommand_ignoresGeometry v s x y z
    · rfl

theorem serveAll_ignoresGeometry (acts : List ConsumerAct) : IgnoresGeometry (serveAll acts) := by
  induction acts with
  | nil => exact fun _ _ _ _ => rfl
  | cons a acts ih => exact ih.comp (serveConsumer_ignoresGeometry a)

theorem consumerGap_ignoresGeometry : IgnoresGeometry consumerGap := by
  intro s x y z
  simp only [consumerGap, State.withGeometry_consumer]
  split
  · rfl
  · rename_i batch rest _
    exact serveAll_ignoresGeometry batch { s with consumer := rest } x y z

theorem clearRings_ignoresGeometry (os : List StreamId) : IgnoresGeometry (clearRings os) := by
  induction os with
  | nil => exact fun _ _ _ _ => rfl
  | cons o os ih =>
    have hclear : IgnoresGeometry (clearRing o) := fun _ _ _ _ => rfl
    exact ih.comp (consumerGap_ignoresGeometry.comp hclear)

theorem exec_push (o : StreamId) (s : State) : exec (.push o) s = execPush o s := rfl

theorem exec_withGeometry {i : Instr} {t : State} (hi : i.ignoresGeometry = true) (x y z : Word)
    (h : exec i s = .next t) : exec i (s.withGeometry x y z) = .next (t.withGeometry x y z) := by
  cases i with
  | route =>
    rw [exec_route] at h ⊢
    simp only [execRoute, State.withGeometry_argHalf] at h ⊢
    split at h <;> cases h <;> rfl
  | seqw st =>
    rw [exec_seqw] at h ⊢
    cases h
    simp only [execSeqw, State.withGeometry_argHalf, seqWindow_withGeometry]
    rfl
  | seql st =>
    rw [exec_seql] at h ⊢
    cases h
    simp only [execSeql, State.withGeometry_argHalf, seqLoss_withGeometry]
    rfl
  | push o =>
    rw [exec_push] at h ⊢
    rcases Nat.lt_or_ge 256 (s.argNat 1) with hn | hn
    · cases (execPush_errRange o hn).symm.trans h
      exact execPush_errRange o hn
    · cases (exec_push_ok hn).symm.trans h
      rw [← finishStored_withGeometry, ← push_withGeometry]
      exact exec_push_ok (s := s.withGeometry x y z) hn
  | pop p o =>
    rw [exec_pop] at h ⊢
    cases h
    exact congrArg _ (popCommand_ignoresGeometry p o s x y z)
  | srst =>
    rw [exec_srst] at h ⊢
    cases h
    exact congrArg (fun u : State => Host.Outcome.next (({ u with event := 0 } : State).finish .a .ok))
      (clearRings_ignoresGeometry _ (clearTracking s) x y z)
  | _ => cases hi

/-! ### Which operations report `ST_ERR_CFG` -/

theorem StatusCode.word_ne_errCfg {c : StatusCode} (h : c ≠ .errCfg) : c.word ≠ 0x11 := by
  cases c with
  | errCfg => exact absurd rfl h
  | _ => decide

/-- An operation that ignores the geometry reports another code on its port. -/
theorem exec_status_ne_errCfg {i : Instr} {t : State} (hi : i.ignoresGeometry = true) (h : exec i s = .next t) :
    (i.port = .a → t.status ≠ 0x11) ∧ (i.port = .b → t.statusb ≠ 0x11) := by
  refine ⟨fun hp => ?_, fun hp => ?_⟩
  · obtain ⟨u, c, hu, hf, hc⟩ := exec_finishes s hp
    cases hu.symm.trans h
    rw [hf.status]
    exact StatusCode.word_ne_errCfg (hc hi)
  · obtain ⟨o, rfl⟩ := Instr.eq_pop_of_port_b hp
    obtain ⟨c, _, _, _, hpop, hc, -⟩ := popB_frame o s
    rw [exec_pop, hpop] at h
    cases h
    refine StatusCode.word_ne_errCfg ?_
    rcases hc with rfl | rfl <;> decide

/-- Settles O17: the refusal is the first branch of the eight operations, and the other six commute with replacing the
geometry registers. -/
theorem badConfigurationIsReportedFirst : Obligations.BadConfigurationIsReportedFirst := by
  intro s refusal
  refine ⟨fun hg => ⟨execMove_errCfg hg, execFind_errCfg hg, execCmp_errCfg hg, execCopy_errCfg hg,
    fun st => execEmit_errCfg st hg⟩, fun hok => ⟨execHdec_errCfg hok, execPolls_errCfg hok, execPollc_errCfg hok⟩,
    fun t x y z i hi h => ?_⟩
  have hignores : i.ignoresGeometry = true := by
    rcases hi with rfl | rfl | ⟨st, rfl | rfl | rfl⟩ | ⟨p, st, rfl⟩ <;> rfl
  exact ⟨exec_withGeometry hignores x y z h, exec_status_ne_errCfg hignores h⟩

end Sys2Proof.Machine
end

section
/-! The reset input (spec/70_reset_and_hazards.md R240; spec/10_state.md R27). -/

namespace Sys2Proof.Machine

/-- The capacity is a parameter of the build (R28), so it is all that tells two empty rings apart. -/
theorem State.reset_ring_withCap (o : StreamId) (cap : Word) :
    { State.reset.ring.get o with cap := cap } = OutRing.fresh cap := by
  cases o <;> rfl

theorem hardwareReset_ring (s : State) :
    (hardwareReset s).ring =
      { low := { State.reset.ring.low with cap := s.ring.low.cap }
        high := { State.reset.ring.high with cap := s.ring.high.cap }
        aud := { State.reset.ring.aud with cap := s.ring.aud.cap } } := by
  refine PerStream.eq_of_get fun o => (PerStream.get_map _ s.ring o).trans ?_
  rw [← State.reset_ring_withCap o]
  cases o <;> rfl

theorem perform_resetInput (s : State) : performWith exec .resetInput s = .next (hardwareReset s) := rfl

/-- Settles O56: the step performs the reset input on the state without that access, and the rings are the only
registers whose reset value depends on the state before. -/
theorem resetInputFromAnyState : Obligations.ResetInputFromAnyState := by
  intro s rest h
  rw [step_cons h, perform_resetInput, ← hardwareReset_ring s]
  rfl

end Sys2Proof.Machine
end
